-- ==== Sys2Proof/Word.lean ====
section
/-! DEFINITION. The two word types of HBP: a register or bus word (R62) and a symbol or output byte (R6, R39). -/
namespace Sys2Proof

/-- A 32-bit register, bus word, command word or node word. -/
abbrev Word := BitVec 32

/-- An 8-bit symbol, code length or packed output byte. -/
abbrev Byte := BitVec 8

end Sys2Proof
end

