-- ==== Sys2Proof/Config.lean ====
section
/-! DEFINITION. The implementation parameters of R6 (fixed constants and the three parameters of an instance) and the free values the spec leaves open (R14 "any value", R230). -/
namespace Sys2Proof.Config

/-- NODE_DEPTH of R6: words in the tree memory. -/
abbrev nodeDepth : Nat := 512
/-- NSYM of R6: code-table entries. -/
abbrev nsym : Nat := 256
/-- MAX_CODE_LEN of R6: the longest code an entry holds. -/
abbrev maxCodeLen : Nat := 255
/-- CBITS_W of R6: code-bit cells per entry. -/
abbrev cbitsW : Nat := 256
/-- The size of the aperture, 128 KiB (R60). -/
abbrev apertureBytes : Nat := 0x20000
/-- The constant that ID reads (R21). -/
def idValue : BitVec 32 := 0x48425031#32

/-- The parameters of an HBP instance (R6): BASE, IN_DEPTH and BIT_DEPTH. -/
structure Params where
  base : Nat
  inDepth : Nat
  bitDepth : Nat
deriving DecidableEq, Repr

/-- OUT_DEPTH of R6, derived: BIT_DEPTH / 8. -/
def Params.outDepth (p : Params) : Nat := p.bitDepth / 8

/-- The defaults of R6. BASE has none: 0 is a DESIGN CHOICE (log 1). -/
def Params.default : Params := { base := 0, inDepth := 4096, bitDepth := 32768 }

/-- The "any value" word of R221 (U1), drawn freshly: a free value, applied to the draw counter of the state (log 8). -/
opaque freeWord : Nat → BitVec 32

/-- Whether, with a host access waiting and the engine busy, the completion comes first (R230, U4, U5): a free value,
applied to the draw counter of the state (log 8). -/
opaque freeEngineFirst : Nat → Bool

end Sys2Proof.Config
end

