-- ==== Sys2Proof/Syntax.lean ====
section
/-! DEFINITION. HBP's six commands (R92). No command has an operand field (R90), so no constructor has an argument. -/
namespace Sys2Proof

/-- The opcode map of R92, in the order of spec/opcode_table.json. -/
inductive Instr where
  | nop
  | buildCodes
  | encode
  | pack
  | run
  | clearCodes
deriving DecidableEq, Repr

end Sys2Proof
end

