-- ==== Sys2Proof/WellFormed.lean ====
section
/-! DEFINITION. What is well formed: a command word (R91), an instruction (R90: no operand, so nothing to check), a host access (R62) and the parameters of an instance (R6). -/
namespace Sys2Proof

/-- R91: a command word is legal exactly when MBZ (bits 31:8) is 0 and OP (bits 7:0) is one of the six of R92. -/
def cmdWordLegal (w : Word) : Bool :=
  w.extractLsb' 8 24 == 0#24 && decide ((w.extractLsb' 0 8).toNat ≤ 5)

/-- An instruction has no operand (R90), so every one is well formed. -/
def Instr.wf : Instr → Bool
  | .nop => true
  | .buildCodes => true
  | .encode => true
  | .pack => true
  | .run => true
  | .clearCodes => true

/-- R62: an access is 32 bits wide (4 bytes) and at an offset that is a multiple of 4. -/
def accessLegal (offset size : Nat) : Bool :=
  size == 4 && offset % 4 == 0

/-- R6's legal ranges: BASE 128 KiB-aligned, IN_DEPTH a multiple of 4 in 4..32768, BIT_DEPTH a multiple of 32 in
32..262144. -/
def Config.Params.wf (p : Config.Params) : Bool :=
  p.base % Config.apertureBytes == 0 &&
  (p.inDepth % 4 == 0 && (decide (4 ≤ p.inDepth) && decide (p.inDepth ≤ 32768))) &&
  (p.bitDepth % 32 == 0 && (decide (32 ≤ p.bitDepth) && decide (p.bitDepth ≤ 262144)))

end Sys2Proof
end

