-- ==== Sys2Proof/Decode.lean ====
section
/-! DEFINITION. Decoding a command word (R90 to R93), total on every 32-bit word and rejecting by name, and the encoder (R92). -/
namespace Sys2Proof

/-- Why a word is not a command (R93). -/
inductive Reject where
  /-- MBZ, bits 31:8, is not zero, whatever OP is. -/
  | mbzNonzero (word : Word)
  /-- MBZ is zero and OP is one of 0x06 to 0xFF. -/
  | reservedOpcode (op : Byte)
deriving DecidableEq, Repr

/-- The OP field, bits 7:0 (R90). -/
def cmdOp (w : Word) : Byte := w.extractLsb' 0 8

/-- The MBZ field, bits 31:8 (R90). -/
def cmdMbz (w : Word) : BitVec 24 := w.extractLsb' 8 24

/-- The opcode map of R92, read from OP. -/
def opcodeInstr (op : Byte) : Option Instr :=
  match op.toNat with
  | 0x00 => some .nop
  | 0x01 => some .buildCodes
  | 0x02 => some .encode
  | 0x03 => some .pack
  | 0x04 => some .run
  | 0x05 => some .clearCodes
  | _ => none

/-- R91 and R93: the command a word stands for, or the reason it stands for none. -/
def decodeWord (w : Word) : Except Reject Instr :=
  if cmdMbz w = 0#24 then
    match opcodeInstr (cmdOp w) with
    | some i => .ok i
    | none => .error (.reservedOpcode (cmdOp w))
  else .error (.mbzNonzero w)

/-- The OP of a command (R92). -/
def opcode : Instr → Byte
  | .nop => 0x00#8
  | .buildCodes => 0x01#8
  | .encode => 0x02#8
  | .pack => 0x03#8
  | .run => 0x04#8
  | .clearCodes => 0x05#8

/-- The command word of a command: MBZ zero above OP (R90). -/
def encode (i : Instr) : Word := 0#24 ++ opcode i

/-- The low `nbits` bits of `w` as the one 32-bit word of a command (R97); none where a bit above bit 31 would be set. -/
def tableWord (nbits w : Nat) : Option Word :=
  if w % 2 ^ nbits < 2 ^ 32 then some (BitVec.ofNat 32 (w % 2 ^ nbits)) else none

/-- The decoder's reading of an opcode-table word. A command is one 32-bit bus word, so there is no byte layout to go
through (R97). -/
def decodeTableWord (nbits w : Nat) : Option Instr :=
  match tableWord nbits w with
  | some v => (decodeWord v).toOption
  | none => none

end Sys2Proof
end

