-- ==== Sys2Proof/Machine/State.lean ====
section
/-! DEFINITION. HBP's state (R20): the registers of R21 to R32, the memories of R35 to R39, the internal engine state of R40 to R42, and beside them the model's own port queue, port output and draw counter. The state at power-on reset (R210, R44). -/
namespace Sys2Proof.Machine

/-- A memory: the written cells, each a (cell index, value) pair, in rising order of index. A cell not listed holds no
value: it was never written (R44). Cells have the width of the memory's own element (R71, log 3); a memory of bytes is a
list of `Host.Cell`. -/
abbrev Memory (α : Type) := List (Nat × α)

/-- The memories of R35 to R39 whose cells can be unwritten, to name one in a fault. -/
inductive MemName where
  | tree
  | cbits
  | inp
  | bit
  | out
deriving DecidableEq, Repr

/-- Why the machine stops with a fault. -/
inductive Fault where
  /-- Raised by a host access of a size other than 4 bytes or at an offset that is no multiple of 4 (R62, U6), with the
  offset. Safe: the hardware answers with a bus error and goes on unchanged. -/
  | accessError (offset : Nat)
  /-- Raised by a host read or a command that reads a cell written neither by the host nor by a command since power-on
  or since an abort (R44, R213, D35, U2, U3), with the memory and the cell. Safe: the hardware returns a stale value. -/
  | unwrittenRead (memory : MemName) (cell : Nat)
  /-- Raised by the engine when STATUS.BUSY is 1 and LASTOP is no opcode of R92, which acceptance (R183) rules out.
  Safe: no reachable state raises it (log 12). -/
  | engineWithoutCommand (op : Byte)
deriving DecidableEq, Repr

/-- Why the model gives no meaning. -/
inductive Refusal where
  /-- Raised by an arm of `exec` for an instruction without a meaning yet; no arm does. Safe. -/
  | notModelled (mnemonic : String)
deriving DecidableEq, Repr

/-- STATUS.ERR (R181). -/
inductive ErrCode where
  | none
  | emptyInput
  | unknownSymbol
  | malformedCode
  | treeMalformed
  | dupSymbol
  | bitOverflow
  | badLength
  | illegalCmd
deriving DecidableEq, Repr

/-- STATUS.ESTAGE (R24), and the stage the engine is in (R40). -/
inductive Stage where
  | none
  | build
  | encode
  | pack
deriving DecidableEq, Repr

/-- The fields of STATUS (R24). Its reserved bits read 0 and have no storage. BUSY and LASTOP are also the engine's phase
and the running opcode (R40). -/
structure Status where
  busy : Bool
  done : Bool
  ovr : Bool
  err : ErrCode
  estage : Stage
  lastop : Byte
deriving DecidableEq, Repr

/-- The engine's internal registers (R40 to R42), which the host cannot read. -/
structure EngineRegs where
  /-- the stage being run (R40) -/
  stage : Stage
  /-- the visit counter (R41) -/
  visits : Nat
  /-- the path register, first bit at the root (R41) -/
  path : List Bool
  /-- the traversal stack of pending right branches: (handle, depth) pairs, top first (R41) -/
  stack : List (Nat × Nat)
  /-- ENCODE's symbol index i (R42) -/
  symIdx : Nat
  /-- ENCODE's bit cursor b (R42) -/
  bitCur : Nat
  /-- PACK's byte index k (R42) -/
  byteIdx : Nat
deriving DecidableEq, Repr

/-- What the internal registers are outside a command: the spec gives them no value there (R41, R42, R44); this one is
a DESIGN CHOICE (log 6). -/
def EngineRegs.idle : EngineRegs :=
  { stage := .none, visits := 0, path := [], stack := [], symIdx := 0, bitCur := 0, byteIdx := 0 }

/-- An event from outside: a host bus access at a bus address, of a size in bytes (R8, R62), or power-on (R210). -/
inductive PortEvent where
  | read (addr size : Nat)
  | write (addr size : Nat) (v : Word)
  | powerOn
deriving DecidableEq, Repr

/-- The whole machine. -/
structure State where
  /-- BASE, IN_DEPTH, BIT_DEPTH of this instance (R6): constants no step changes (log 1). -/
  params : Config.Params
  /-- CTRL.IRQ_EN (R22) -/
  irqEn : Bool
  /-- STATUS (R24) -/
  status : Status
  /-- ERR_INFO (R25) -/
  errInfo : Word
  /-- NODE_COUNT (R27) -/
  nodeCount : Word
  /-- ROOT (R28) -/
  root : Word
  /-- IN_LEN (R29) -/
  inLen : Word
  /-- BIT_LEN (R30) -/
  bitLen : Word
  /-- OUT_LEN (R31) -/
  outLen : Word
  /-- TREE (R35): cell h is the node word of handle h -/
  tree : Memory Word
  /-- CODE[s].LEN (R36): the non-zero lengths; a symbol not listed has LEN 0 -/
  lens : Memory Byte
  /-- CODE[s].CBITS[j] (R36): cell 256·s + j -/
  cbits : Memory Bool
  /-- IN (R37) -/
  inp : Memory Byte
  /-- BIT (R38) -/
  bit : Memory Bool
  /-- OUT (R39) -/
  out : Memory Byte
  /-- the engine's internal registers (R40 to R42) -/
  eng : EngineRegs
  /-- the model's own: the port's events still to come, in port order (R72, log 7) -/
  port : List PortEvent
  /-- the model's own: the data the port returned for the latest access, if it was a read (log 9) -/
  busData : Option Word
  /-- the model's own: how many free values have been drawn (log 8) -/
  draws : Nat
deriving DecidableEq, Repr

/-- STATUS at reset (R210). -/
def Status.reset : Status :=
  { busy := false, done := false, ovr := false, err := .none, estage := .none, lastop := 0#8 }

/-- The power-on state of an instance (R210): every register at its reset value, every LEN 0, the other memories never
written (R44), the engine IDLE. -/
def State.resetOf (p : Config.Params) : State :=
  { params := p
    irqEn := false
    status := .reset
    errInfo := 0#32
    nodeCount := 0#32
    root := 0#32
    inLen := 0#32
    bitLen := 0#32
    outLen := 0#32
    tree := []
    lens := []
    cbits := []
    inp := []
    bit := []
    out := []
    eng := .idle
    port := []
    busData := none
    draws := 0 }

/-- The power-on state of the instance with the default parameters (R6). -/
def State.reset : State := .resetOf .default

end Sys2Proof.Machine
end

