-- ==== Sys2Proof/Machine/Flags.lean ====
section
/-! DEFINITION. The flags (R34): the numbers of ERR (R181) and ESTAGE (R24), the STATUS word, write-1-to-clear, and the interrupt output (R191). -/
namespace Sys2Proof.Machine

/-- The ERR numbers of R181. -/
def ErrCode.code : ErrCode → BitVec 4
  | .none => 0#4
  | .emptyInput => 1#4
  | .unknownSymbol => 2#4
  | .malformedCode => 3#4
  | .treeMalformed => 4#4
  | .dupSymbol => 5#4
  | .bitOverflow => 6#4
  | .badLength => 7#4
  | .illegalCmd => 8#4

/-- The ESTAGE numbers of R24. -/
def Stage.code : Stage → BitVec 3
  | .none => 0#3
  | .build => 1#3
  | .encode => 2#3
  | .pack => 3#3

/-- The STATUS word of R24: each field at its place, the reserved bits 0. -/
def Status.word (st : Status) : Word :=
  (BitVec.ofBool st.busy).setWidth 32 |||
  (BitVec.ofBool st.done).setWidth 32 <<< 1 |||
  (BitVec.ofBool st.ovr).setWidth 32 <<< 2 |||
  st.err.code.setWidth 32 <<< 4 |||
  st.estage.code.setWidth 32 <<< 8 |||
  st.lastop.setWidth 32 <<< 16

/-- A STATUS write (R24): bit 1 clears DONE, bit 2 clears OVR, nothing else changes. -/
def Status.w1c (st : Status) (v : Word) : Status :=
  { st with
    done := st.done && !v.getLsbD 1
    ovr := st.ovr && !v.getLsbD 2 }

/-- The CTRL word of R22: SRST and the reserved bits read 0. -/
def ctrlWord (irqEn : Bool) : Word :=
  (BitVec.ofBool irqEn).setWidth 32 <<< 1

/-- R43, R191: `irq = CTRL.IRQ_EN AND STATUS.DONE`. -/
def State.irq (s : State) : Bool := s.irqEn && s.status.done

end Sys2Proof.Machine
end

