-- ==== Sys2Proof/Machine/Operands.lean ====
section
/-! DEFINITION. The operand data formats: the node word (R94, R95), the bit and byte orders of windows and packed bytes (R66 to R70, R152, R153). -/
namespace Sys2Proof.Machine

/-- R95: T = w[31]; a leaf has T = 0. -/
def nodeIsLeaf (w : Word) : Bool := !w.getLsbD 31

/-- R95: SYM = w[7:0]. -/
def nodeSym (w : Word) : Byte := w.extractLsb' 0 8

/-- R95: LEFT = w[8:0], as a handle. -/
def nodeLeft (w : Word) : Nat := (w.extractLsb' 0 9).toNat

/-- R95: RIGHT = w[24:16], as a handle. -/
def nodeRight (w : Word) : Nat := (w.extractLsb' 16 9).toNat

/-- R94, Construction: a leaf is `zext_32(SYM)`. -/
def leafWord (sym : Byte) : Word := sym.setWidth 32

/-- R94, Construction: an internal node is `0x80000000 | RIGHT << 16 | LEFT`. -/
def nodeWord (left right : BitVec 9) : Word :=
  0x80000000#32 ||| (right.setWidth 32 <<< 16) ||| left.setWidth 32

/-- A bit string read as an unsigned number, its first bit most significant (R152, R153). -/
def bitsValue (bits : List Bool) : Nat :=
  bits.foldl (fun acc b => 2 * acc + b.toNat) 0

/-- The byte PACK forms from up to 8 bits: right-aligned, zeros above (R152, R153). -/
def packedByte (bits : List Bool) : Byte := BitVec.ofNat 8 (bitsValue bits)

/-- The 32 cells a BIT or CBITS word holds, first cell at word bit 31 (R66, R68). -/
def wordBits (v : Word) : List Bool :=
  (List.range 32).map fun t => v.getLsbD (31 - t)

/-- The word that 32 BIT or CBITS cells assemble to, first cell at word bit 31 (R66, R68). -/
def bitsWord (bits : List Bool) : Word := BitVec.ofNat 32 (bitsValue bits)

/-- The four cells an IN or OUT word holds, little-endian (R67, R69). -/
def wordBytes (v : Word) : List Byte :=
  [v.extractLsb' 0 8, v.extractLsb' 8 8, v.extractLsb' 16 8, v.extractLsb' 24 8]

/-- The word that four IN or OUT cells assemble to, little-endian (R67, R69). -/
def bytesWord : List Byte → Word
  | [] => 0#32
  | b :: bs => (bytesWord bs <<< 8) ||| b.setWidth 32

/-- The code a leaf records (R113, R116): its path, or "0" where the path is empty. -/
def leafCode (path : List Bool) : List Bool :=
  if path.length = 0 then [false] else path

/-- A code as BUILD_CODES leaves it in the 256 cells of CBITS: the code, then zeros (R115). -/
def paddedCode (code : List Bool) : List Bool :=
  code ++ List.replicate (Config.cbitsW - code.length) false

end Sys2Proof.Machine
end

