-- ==== Sys2Proof/Machine/Ops.lean ====
section
/-! DEFINITION. The shared operations: reading and writing memory cells, acceptance (R183), illegal command (R187), raising and the two completions (R184, R185), reset, soft reset and abort (R210, R212, R213). -/
namespace Sys2Proof.Machine

variable {α : Type}

/-- What a cell not listed reads as: no value, it was never written (R44, U2). -/
def Memory.unlisted : Option α := none

/-- The canonical form: cell indexes strictly rising. No entry can equal what an unlisted cell reads as, which is no
value. -/
abbrev Memory.wf (m : Memory α) : Prop := (m.map Prod.fst).Pairwise (· < ·)

/-- Every listed cell has an index below `n`. -/
abbrev Memory.below (m : Memory α) (n : Nat) : Prop := ∀ c ∈ m, c.1 < n

/-- One cell. -/
def Memory.get (m : Memory α) (k : Nat) : Option α :=
  match m with
  | [] => Memory.unlisted
  | (k', v) :: rest => if k = k' then some v else Memory.get rest k

/-- The entries of a run of cells from `base` on. -/
def Memory.cells (base : Nat) (vals : List α) : Memory α :=
  match vals with
  | [] => []
  | v :: vs => (base, v) :: Memory.cells (base + 1) vs

/-- Write a run of cells, `vals` from cell `base` on. -/
def Memory.setRun (m : Memory α) (base : Nat) (vals : List α) : Memory α :=
  m.filter (fun c => decide (c.1 < base)) ++
    (Memory.cells base vals ++ m.filter (fun c => decide (base + vals.length ≤ c.1)))

/-- Write one cell. -/
def Memory.set (m : Memory α) (k : Nat) (v : α) : Memory α := m.setRun k [v]

/-- Make one cell unlisted. -/
def Memory.erase (m : Memory α) (k : Nat) : Memory α := m.filter (fun c => decide (c.1 ≠ k))

/-- A cell's value, or the fault of reading a cell that was never written (U2, D35). -/
def readCell (n : MemName) (m : Memory α) (k : Nat) : Except Fault α :=
  match m.get k with
  | some v => .ok v
  | none => .error (.unwrittenRead n k)

/-- The values of `len` cells from `base` on, or the fault of the first one that was never written. -/
def readCells (n : MemName) (m : Memory α) (base len : Nat) : Except Fault (List α) :=
  match len with
  | 0 => .ok []
  | len + 1 =>
    match readCell n m base with
    | .error r => .error r
    | .ok v =>
      match readCells n m (base + 1) len with
      | .error r => .error r
      | .ok vs => .ok (v :: vs)

/-- CODE[s].LEN (R36): a symbol that is not listed has LEN 0. -/
def State.lenOf (s : State) (sym : Byte) : Byte := (s.lens.get sym.toNat).getD 0#8

/-- Write CODE[s].LEN; writing 0 makes the symbol unlisted. -/
def State.setLen (s : State) (sym : Byte) (v : Byte) : State :=
  { s with lens := if v = 0#8 then s.lens.erase sym.toNat else s.lens.set sym.toNat v }

/-- `CODE[s].LEN <- 0` for every s (R112, R125). -/
def State.clearLens (s : State) : State := { s with lens := [] }

/-- The cell of CODE[s].CBITS[j] in the CBITS memory. -/
def cbitsCell (sym : Byte) (j : Nat) : Nat := Config.cbitsW * sym.toNat + j

/-- `reg(STATUS).LASTOP <- v[7:0]` and the rest of R183's acceptance of a legal command word. OVR is not changed. -/
def State.accept (s : State) (v : Word) : State :=
  { s with
    status := { s.status with busy := true, done := false, err := .none, estage := .none, lastop := cmdOp v }
    errInfo := 0#32 }

/-- R187: an illegal command word, written while BUSY = 0. BUSY stays 0 and the engine is not touched. -/
def State.illegalCommand (s : State) (v : Word) : State :=
  { s with
    status := { s.status with done := true, err := .illegalCmd, estage := .none, lastop := cmdOp v }
    errInfo := v }

/-- R183 or R187: a command word written while BUSY = 0. -/
def State.present (s : State) (v : Word) : State :=
  match decodeWord v with
  | .ok _ => s.accept v
  | .error _ => s.illegalCommand v

/-- How a command's pseudocode ends (R11, R184, R185): at its end, at a raise with the state written up to there (R186),
or at a read of a cell that was never written. -/
inductive Body where
  | ok (s : State)
  | raise (e : ErrCode) (info : Word) (s : State)
  | fault (r : Fault)
deriving DecidableEq, Repr

/-- Go on with the pseudocode where it has not been ended: "no further read or write of its pseudocode happens" (R184). -/
def Body.andThen (b : Body) (f : State → Body) : Body :=
  match b with
  | .ok s => f s
  | .raise e info s => .raise e info s
  | .fault r => .fault r

/-- Go on with a value read from a memory. -/
def Body.withRead {β : Type} (x : Except Fault β) (f : β → Body) : Body :=
  match x with
  | .ok v => f v
  | .error r => .fault r

/-- R185: successful completion. ERR_INFO keeps the 0 of acceptance. The internal registers hold no value afterwards
(R41, R42). -/
def State.completeOk (s : State) : State :=
  { s with
    status := { s.status with busy := false, done := true, err := .none, estage := .none }
    eng := .idle }

/-- R184: completion with an error, in the stage the engine is in. -/
def State.completeError (s : State) (e : ErrCode) (info : Word) : State :=
  { s with
    status := { s.status with busy := false, done := true, err := e, estage := s.eng.stage }
    errInfo := info
    eng := .idle }

/-- The completion step a command's end leads to (R184, R185). -/
def Body.complete (b : Body) : Host.Outcome State Fault Refusal :=
  match b with
  | .ok s => .next s.completeOk
  | .raise e info s => .next (s.completeError e info)
  | .fault r => .fault r

/-- `stage <- st` (R171), with the stage's own registers as they are before the stage sets them. -/
def State.enterStage (s : State) (st : Stage) : State :=
  { s with eng := { EngineRegs.idle with stage := st } }

/-- The command the engine runs: the opcode it holds, visible as LASTOP (R40). -/
def State.running (s : State) : Except Reject Instr := decodeWord (0#24 ++ s.status.lastop)

/-- R213: the memories that the aborted command could write (R71) become never-written (U3). NOP and CLEAR_CODES can
write none of them. -/
def State.forgetOutputs (s : State) (i : Instr) : State :=
  match i with
  | .nop => s
  | .buildCodes => { s with cbits := [] }
  | .encode => { s with bit := [] }
  | .pack => { s with out := [] }
  | .run => { s with cbits := [], bit := [], out := [] }
  | .clearCodes => s

/-- R213: what a soft reset does to the memories of a command that is running; nothing where none is. -/
def State.abort (s : State) : State :=
  match s.status.busy, s.running with
  | true, .ok i => s.forgetOutputs i
  | true, .error _ => s
  | false, _ => s

/-- R212: every register at its reset value, every LEN 0, a running command aborted, the engine IDLE. -/
def State.softReset (s : State) : State :=
  { s.abort with
    irqEn := false
    status := .reset
    errInfo := 0#32
    nodeCount := 0#32
    root := 0#32
    inLen := 0#32
    bitLen := 0#32
    outLen := 0#32
    lens := []
    eng := .idle }

/-- R210: power-on, with the memories as at first power-on (U16). The parameters are constants of the instance; what is
still to come at the port, and the draw counter, are the model's own. -/
def State.powerOn (s : State) : State :=
  { State.resetOf s.params with port := s.port, draws := s.draws }

end Sys2Proof.Machine
end

