-- ==== Sys2Proof/Machine/Bus.lean ====
section
/-! DEFINITION. The host's accesses: the address map (R60, R61), the register file (R21 to R33), the windows (R65 to R69), access faults (R62), RAZ/WI (R63), and the rules while BUSY = 1 (R220 to R223). -/
namespace Sys2Proof.Machine

/-- The registers of 10_state.md section 2. -/
inductive Reg where
  | id
  | ctrl
  | cmd
  | status
  | errInfo
  | nodeCount
  | root
  | inLen
  | bitLen
  | outLen
  | inDepthR
  | bitDepthR
  | outDepthR
deriving DecidableEq, Repr

/-- What an aligned offset of the aperture names (R61): a register, a mapped word of a window, or a RAZ/WI offset. -/
inductive Loc where
  | reg (r : Reg)
  | tree (h : Nat)
  | codeLen (sym : Byte)
  | codeBits (sym : Byte) (w : Nat)
  | inp (q : Nat)
  | bit (q : Nat)
  | out (q : Nat)
  | razWi
deriving DecidableEq, Repr

/-- The register offsets of R21 to R32; the rest of REGS is reserved (R33). -/
def regAt (offset : Nat) : Option Reg :=
  match offset with
  | 0x000 => some .id
  | 0x004 => some .ctrl
  | 0x008 => some .cmd
  | 0x00C => some .status
  | 0x010 => some .errInfo
  | 0x014 => some .nodeCount
  | 0x018 => some .root
  | 0x01C => some .inLen
  | 0x020 => some .bitLen
  | 0x024 => some .outLen
  | 0x028 => some .inDepthR
  | 0x02C => some .bitDepthR
  | 0x030 => some .outDepthR
  | _ => none

/-- The CODE window (R66), at `o` bytes from its start: 16 words an entry, word 0 LEN, words 1 to 8 CBITS, 9 to 15
RAZ/WI. -/
def codeLoc (o : Nat) : Loc :=
  if o % 64 / 4 = 0 then .codeLen (BitVec.ofNat 8 (o / 64))
  else if o % 64 / 4 ≤ 8 then .codeBits (BitVec.ofNat 8 (o / 64)) (o % 64 / 4 - 1)
  else .razWi

/-- The address map of R61, for an offset that is a multiple of 4. -/
def locate (p : Config.Params) (offset : Nat) : Loc :=
  if offset < 0x01000 then
    match regAt offset with
    | some r => .reg r
    | none => .razWi
  else if offset < 0x01800 then .tree ((offset - 0x01000) / 4)
  else if offset < 0x04000 then .razWi
  else if offset < 0x08000 then codeLoc (offset - 0x04000)
  else if offset < 0x10000 then
    if offset - 0x08000 < p.inDepth then .inp ((offset - 0x08000) / 4) else .razWi
  else if offset < 0x18000 then
    if offset - 0x10000 < p.bitDepth / 8 then .bit ((offset - 0x10000) / 4) else .razWi
  else
    if offset - 0x18000 < p.outDepth then .out ((offset - 0x18000) / 4) else .razWi

/-- R60: the offset of a bus address, none outside the aperture. -/
def offsetOf (p : Config.Params) (addr : Nat) : Option Nat :=
  if p.base ≤ addr ∧ addr < p.base + Config.apertureBytes then some (addr - p.base) else none

/-- The value a register reads as (R21 to R32), while BUSY = 0 or for a register R222 lists. -/
def State.readReg (s : State) (r : Reg) : Word :=
  match r with
  | .id => Config.idValue
  | .ctrl => ctrlWord s.irqEn
  | .cmd => 0#32
  | .status => s.status.word
  | .errInfo => s.errInfo
  | .nodeCount => s.nodeCount
  | .root => s.root
  | .inLen => s.inLen
  | .bitLen => s.bitLen
  | .outLen => s.outLen
  | .inDepthR => BitVec.ofNat 32 s.params.inDepth
  | .bitDepthR => BitVec.ofNat 32 s.params.bitDepth
  | .outDepthR => BitVec.ofNat 32 s.params.outDepth

/-- The value a location reads as (R63, R65 to R69); a window word with a never-written cell faults (U2). -/
def State.readLoc (s : State) (loc : Loc) : Except Fault Word :=
  match loc with
  | .reg r => .ok (s.readReg r)
  | .tree h => readCell .tree s.tree h
  | .codeLen sym => .ok ((s.lenOf sym).setWidth 32)
  | .codeBits sym w => (readCells .cbits s.cbits (cbitsCell sym (32 * w)) 32).map bitsWord
  | .inp q => (readCells .inp s.inp (4 * q) 4).map bytesWord
  | .bit q => (readCells .bit s.bit (32 * q) 32).map bitsWord
  | .out q => (readCells .out s.out (4 * q) 4).map bytesWord
  | .razWi => .ok 0#32

/-- R221: the busy-unspecified locations. -/
def busyUnspecified : Loc → Bool
  | .reg .bitLen => true
  | .reg .outLen => true
  | .reg _ => false
  | .tree _ => true
  | .codeLen _ => true
  | .codeBits _ _ => true
  | .inp _ => true
  | .bit _ => true
  | .out _ => true
  | .razWi => false

/-- R220: the locations a write to which is dropped while BUSY = 1. -/
def busyDropped : Loc → Bool
  | .reg .cmd => true
  | .reg .nodeCount => true
  | .reg .root => true
  | .reg .inLen => true
  | .reg .bitLen => true
  | .reg _ => false
  | .tree _ => true
  | .codeLen _ => true
  | .codeBits _ _ => true
  | .inp _ => true
  | .bit _ => true
  | .out _ => true
  | .razWi => false

/-- R22: SRST discards the rest of the written value; otherwise IRQ_EN takes bit 1. -/
def State.writeCtrl (s : State) (v : Word) : State :=
  if v.getLsbD 0 then s.softReset else { s with irqEn := v.getLsbD 1 }

/-- A register write that is not dropped (R22 to R33). Read-only registers ignore it. -/
def State.writeReg (s : State) (r : Reg) (v : Word) : State :=
  match r with
  | .id => s
  | .ctrl => s.writeCtrl v
  | .cmd => s.present v
  | .status => { s with status := s.status.w1c v }
  | .errInfo => s
  | .nodeCount => { s with nodeCount := v }
  | .root => { s with root := v }
  | .inLen => { s with inLen := v }
  | .bitLen => { s with bitLen := v }
  | .outLen => s
  | .inDepthR => s
  | .bitDepthR => s
  | .outDepthR => s

/-- A write that is not dropped (R63, R65 to R69). -/
def State.writeLoc (s : State) (loc : Loc) (v : Word) : State :=
  match loc with
  | .reg r => s.writeReg r v
  | .tree h => { s with tree := s.tree.set h v }
  | .codeLen sym => s.setLen sym (v.extractLsb' 0 8)
  | .codeBits sym w => { s with cbits := s.cbits.setRun (cbitsCell sym (32 * w)) (wordBits v) }
  | .inp q => { s with inp := s.inp.setRun (4 * q) (wordBytes v) }
  | .bit q => { s with bit := s.bit.setRun (32 * q) (wordBits v) }
  | .out q => { s with out := s.out.setRun (4 * q) (wordBytes v) }
  | .razWi => s

/-- R220: a dropped write sets OVR and changes nothing else. -/
def State.dropWrite (s : State) : State :=
  { s with status := { s.status with ovr := true } }

/-- A free word drawn for a read of a busy-unspecified location (U1). -/
def State.anyRead (s : State) : State :=
  { s with busData := some (Config.freeWord s.draws), draws := s.draws + 1 }

/-- A 32-bit aligned host read (R63 to R69, R221, R222). DESIGN CHOICE (log 18): while BUSY = 1 the any value of R221 comes
before the fault of a never-written cell (U2), so a read of a busy-unspecified location never stops; the spec gives the two
no order. -/
def State.hostRead (s : State) (offset : Nat) : Host.Outcome State Fault Refusal :=
  if s.status.busy && busyUnspecified (locate s.params offset) then .next s.anyRead
  else
    match s.readLoc (locate s.params offset) with
    | .ok v => .next { s with busData := some v }
    | .error r => .fault r

/-- A 32-bit aligned host write (R63 to R69, R220, R223). -/
def State.hostWrite (s : State) (offset : Nat) (v : Word) : Host.Outcome State Fault Refusal :=
  if s.status.busy && busyDropped (locate s.params offset) then .next { s.dropWrite with busData := none }
  else .next { s.writeLoc (locate s.params offset) v with busData := none }

/-- R60 and R62: the check of an access's address and size, before the access itself. -/
def State.atOffset (s : State) (addr size : Nat) (f : Nat → Host.Outcome State Fault Refusal) :
    Host.Outcome State Fault Refusal :=
  match offsetOf s.params addr with
  | none => .next { s with busData := none }
  | some offset => if accessLegal offset size then f offset else .fault (.accessError offset)

/-- One event from outside takes effect. -/
def State.portEvent (s : State) (e : PortEvent) : Host.Outcome State Fault Refusal :=
  match e with
  | .read addr size => s.atOffset addr size fun offset => s.hostRead offset
  | .write addr size v => s.atOffset addr size fun offset => s.hostWrite offset v
  | .powerOn => .next s.powerOn

/-- What happens next (R8, R189). -/
inductive NextEvent where
  /-- nothing: the engine is IDLE and nothing comes from outside (R211) -/
  | idle
  /-- the port's next event, in the state without it in the queue -/
  | host (e : PortEvent) (s : State)
  /-- the engine runs its command -/
  | engine (s : State)
deriving DecidableEq, Repr

/-- R189, R230: while BUSY = 1 and an event waits, a free choice says whether the completion comes first. -/
def State.nextEvent (s : State) : NextEvent :=
  match s.port with
  | [] => if s.status.busy then .engine s else .idle
  | e :: rest =>
    if s.status.busy then
      if Config.freeEngineFirst s.draws then .engine { s with draws := s.draws + 1 }
      else .host e { s with port := rest, draws := s.draws + 1 }
    else .host e { s with port := rest }

/-- The bus address of CMD (R23, R60). -/
def State.cmdAddr (s : State) : Nat := s.params.base + 0x008

/-- The state in which a command word is the next thing to run: a legal word just accepted (R183) with nothing else
waiting at the port, any other word written to CMD while IDLE (R187). -/
def State.withCommand (s : State) (v : Word) : State :=
  match decodeWord v with
  | .ok _ => { s.accept v with port := [] }
  | .error _ =>
    { s with status := { s.status with busy := false }, port := [.write s.cmdAddr 4 v] }

end Sys2Proof.Machine
end

