-- ==== Sys2Proof/Machine/BitPacker.lean ====
section
/-! DEFINITION. The pack command PACK (R150 to R157). -/
namespace Sys2Proof.Machine

/-- `OUT[k] <-` the byte of the given bits (R152, R153), and the next k. -/
def State.storeByte (s : State) (bits : List Bool) : State :=
  { s with
    out := s.out.set s.eng.byteIdx (packedByte bits)
    eng := { s.eng with byteIdx := s.eng.byteIdx + 1 } }

/-- Form one output byte from the `n` stream bits of group k (R152 with n = 8, R153 with n = r). -/
def packGroup (n : Nat) (s : State) : Body :=
  .withRead (readCells .bit s.bit (8 * s.eng.byteIdx) n) fun bits => .ok (s.storeByte bits)

/-- R152: the full groups still to pack. -/
def packLoop (left : Nat) (s : State) : Body :=
  match left with
  | 0 => .ok s
  | left + 1 => (packGroup 8 s).andThen (packLoop left)

/-- R153: the final group of r bits, none where r = 0. -/
def packFinal (r : Nat) (s : State) : Body :=
  if r = 0 then .ok s else packGroup r s

/-- R154: `reg(OUT_LEN) <- f + (1 if r ≠ 0 else 0)`, for n bits. -/
def State.storeOutLen (s : State) (n : Nat) : State :=
  { s with outLen := BitVec.ofNat 32 (n / 8 + if n % 8 ≠ 0 then 1 else 0) }

/-- The body of PACK (R151 to R154), stage 3. -/
def packBody (s : State) : Body :=
  if s.params.bitDepth < s.bitLen.toNat then .raise .badLength s.bitLen (s.enterStage .pack)
  else
    ((packLoop (s.bitLen.toNat / 8) (s.enterStage .pack)).andThen (packFinal (s.bitLen.toNat % 8))).andThen
      fun t => .ok (t.storeOutLen s.bitLen.toNat)

/-- PACK (R150). -/
def execPack (s : State) : Host.Outcome State Fault Refusal :=
  (packBody s).complete

end Sys2Proof.Machine
end

