-- ==== Sys2Proof/Machine/CodeTable.lean ====
section
/-! DEFINITION. The code-table commands BUILD_CODES (R110 to R123) and CLEAR_CODES (R125). -/
namespace Sys2Proof.Machine

/-- R111: the pre-checks, in order. They read no memory. -/
def State.buildPreCheck (s : State) : Option (ErrCode × Word) :=
  if Config.nodeDepth < s.nodeCount.toNat then some (.badLength, s.nodeCount)
  else if s.nodeCount.toNat = 0 then some (.emptyInput, 0#32)
  else if s.nodeCount.toNat ≤ s.root.toNat then some (.treeMalformed, s.root)
  else none

/-- `raise TREE_MALFORMED(h)` and `raise DUP_SYMBOL(h)` record a handle (R182). -/
def handleInfo (h : Nat) : Word := BitVec.ofNat 32 h

/-- `visits <- visits + 1` (R113, R114). -/
def State.countVisit (s : State) : State :=
  { s with eng := { s.eng with visits := s.eng.visits + 1 } }

/-- R115: the code into CBITS[0 .. len−1], zeros into the rest of CBITS, then LEN. -/
def State.writeCode (s : State) (sym : Byte) (code : List Bool) : State :=
  { s with cbits := s.cbits.setRun (cbitsCell sym 0) (paddedCode code) }.setLen sym (BitVec.ofNat 8 code.length)

/-- Where a visit leads: to the next handle to visit, or to the end of the traversal. -/
inductive Visit where
  | goto (h : Nat) (s : State)
  | stop (b : Body)
deriving DecidableEq, Repr

/-- R118: the pending right branch on top of the traversal stack, its path ending in 1; with none pending the traversal
is over (R119). A pending pair (h, d) hangs below the first d − 1 branches of the path. -/
def State.popPending (s : State) : Visit :=
  match s.eng.stack with
  | [] => .stop (.ok s)
  | (h, d) :: rest =>
    .goto h { s with eng := { s.eng with path := s.eng.path.take (d - 1) ++ [true], stack := rest } }

/-- R115: the leaf action. -/
def State.visitLeaf (s : State) (h : Nat) (sym : Byte) : Visit :=
  if s.lenOf sym ≠ 0#8 then .stop (.raise .dupSymbol (handleInfo h) s)
  else (s.writeCode sym (leafCode s.eng.path)).popPending

/-- R117, R118: the three checks in order, then down to LEFT with RIGHT pending. -/
def State.visitInternal (s : State) (h left right : Nat) : Visit :=
  if s.nodeCount.toNat ≤ left then .stop (.raise .treeMalformed (handleInfo h) s)
  else if s.nodeCount.toNat ≤ right then .stop (.raise .treeMalformed (handleInfo h) s)
  else if Config.maxCodeLen < s.eng.path.length + 1 then .stop (.raise .treeMalformed (handleInfo h) s)
  else
    .goto left { s with eng := { s.eng with
      path := s.eng.path ++ [false]
      stack := (right, s.eng.path.length + 1) :: s.eng.stack } }

/-- R113: one visit of node h, already counted. -/
def State.visitNode (s : State) (h : Nat) : Visit :=
  match readCell .tree s.tree h with
  | .error r => .stop (.fault r)
  | .ok w =>
    if nodeIsLeaf w then s.visitLeaf h (nodeSym w)
    else s.visitInternal h (nodeLeft w) (nodeRight w)

/-- R113, in the hardware's form (R41): visits from handle h on, with `left` visits left below the limit NODE_COUNT.
The visit that exceeds the limit is counted, raises TREE_MALFORMED(h) and does not read TREE[h] (R114). -/
def visitLoop (left h : Nat) (s : State) : Body :=
  match left with
  | 0 => .raise .treeMalformed (handleInfo h) s.countVisit
  | left + 1 =>
    match s.countVisit.visitNode h with
    | .goto h' s' => visitLoop left h' s'
    | .stop b => b

/-- The body of BUILD_CODES (R111 to R118), stage 1. -/
def buildBody (s : State) : Body :=
  match s.buildPreCheck with
  | some (e, info) => .raise e info (s.enterStage .build)
  | none => visitLoop s.nodeCount.toNat s.root.toNat (s.enterStage .build).clearLens

/-- BUILD_CODES (R110). -/
def execBuildCodes (s : State) : Host.Outcome State Fault Refusal :=
  (buildBody s).complete

/-- CLEAR_CODES (R125). -/
def execClearCodes (s : State) : Host.Outcome State Fault Refusal :=
  (Body.ok s.clearLens).complete

end Sys2Proof.Machine
end

