-- ==== Sys2Proof/Machine/Encoder.lean ====
section
/-! DEFINITION. The encode command ENCODE (R130 to R136). -/
namespace Sys2Proof.Machine

/-- `reg(BIT_LEN) <- b` (R132). -/
def State.storeBitLen (s : State) : State :=
  { s with bitLen := BitVec.ofNat 32 s.eng.bitCur }

/-- The end of an iteration of R132: the code written at the cursor, `b <- b + L`, and the next i. -/
def State.appendCode (s : State) (code : List Bool) : State :=
  { s with
    bit := s.bit.setRun s.eng.bitCur code
    eng := { s.eng with bitCur := s.eng.bitCur + code.length, symIdx := s.eng.symIdx + 1 } }

/-- One iteration of R132's loop. Only CBITS[0 .. LEN−1] is read. -/
def encodeSymbol (s : State) : Body :=
  .withRead (readCell .inp s.inp s.eng.symIdx) fun sym =>
    if (s.lenOf sym).toNat = 0 then
      .raise .unknownSymbol (BitVec.ofNat 32 s.eng.symIdx) s.storeBitLen
    else if s.params.bitDepth < s.eng.bitCur + (s.lenOf sym).toNat then
      .raise .bitOverflow (BitVec.ofNat 32 s.eng.symIdx) s.storeBitLen
    else
      .withRead (readCells .cbits s.cbits (cbitsCell sym 0) (s.lenOf sym).toNat) fun code =>
        .ok (s.appendCode code)

/-- R132's loop over the symbols still to encode, and its last line. -/
def encodeLoop (left : Nat) (s : State) : Body :=
  match left with
  | 0 => .ok s.storeBitLen
  | left + 1 => (encodeSymbol s).andThen (encodeLoop left)

/-- The body of ENCODE (R131, R132), stage 2. -/
def encodeBody (s : State) : Body :=
  if s.params.inDepth < s.inLen.toNat then .raise .badLength s.inLen (s.enterStage .encode)
  else encodeLoop s.inLen.toNat (s.enterStage .encode)

/-- ENCODE (R130). -/
def execEncode (s : State) : Host.Outcome State Fault Refusal :=
  (encodeBody s).complete

end Sys2Proof.Machine
end

