-- ==== Sys2Proof/Machine/Sequencing.lean ====
section
/-! DEFINITION. The sequencing commands NOP (R170) and RUN (R171, R172). -/
namespace Sys2Proof.Machine

/-- NOP (R170): completes at once. -/
def execNop (s : State) : Host.Outcome State Fault Refusal :=
  (Body.ok s).complete

/-- RUN (R171): the three bodies in order, ended by the first raise, then one completion. -/
def execRun (s : State) : Host.Outcome State Fault Refusal :=
  (((buildBody s).andThen encodeBody).andThen packBody).complete

end Sys2Proof.Machine
end

