-- ==== Sys2Proof/Machine/Dispatch.lean ====
section
/-! DEFINITION. One arm per command of R92. -/
namespace Sys2Proof.Machine

/-- What the engine does for an accepted command, from its acceptance (R183) to its completion, as one step (R9). -/
def exec (i : Instr) (s : State) : Host.Outcome State Fault Refusal :=
  match i with
  | .nop => Sys2Proof.Machine.execNop s
  | .buildCodes => Sys2Proof.Machine.execBuildCodes s
  | .encode => Sys2Proof.Machine.execEncode s
  | .pack => Sys2Proof.Machine.execPack s
  | .run => Sys2Proof.Machine.execRun s
  | .clearCodes => Sys2Proof.Machine.execClearCodes s

end Sys2Proof.Machine
end

