-- ==== Sys2Proof/Machine/Step.lean ====
section
/-! DEFINITION. One step of HBP: an event at the port, or the engine's run of its command as one atomic step (R9, R189). -/
namespace Sys2Proof.Machine

/-- The engine runs the command whose opcode it holds (R40). -/
def runEngine (s : State) : Host.Outcome State Fault Refusal :=
  match s.running with
  | .ok i => exec i s
  | .error _ => .fault (.engineWithoutCommand s.status.lastop)

/-- One step. With the engine IDLE and nothing at the port, HBP only waits (R211). -/
def step (s : State) : Host.Outcome State Fault Refusal :=
  match s.nextEvent with
  | .idle => .next s
  | .host e s' => s'.portEvent e
  | .engine s' => runEngine s'

/-- The state whose very next step runs the command of an opcode-table word (log 10). -/
def State.withFetchWord (s : State) (nbits w : Nat) : State :=
  s.withCommand (BitVec.ofNat 32 (w % 2 ^ nbits))

end Sys2Proof.Machine
end

