-- ==== Sys2Proof/Safety.lean ====
section
/-! DEFINITION. What counts as a safe run, in the terms the statements use: the invariant, the host's duties (R215 to R218), prefix-code trees and their codes (R13, R14), R113's VISIT as the spec writes it, and what no command changes. -/
namespace Sys2Proof.Machine

/-! ## The invariant -/

/-- Which stage an error code belongs to (R181, R182): 0 for NONE and ILLEGAL_CMD, the raising stage otherwise; BAD_LENGTH
comes from any of the three. MALFORMED_CODE belongs to none: it is never raised. -/
def errStageOk : ErrCode → Stage → Bool
  | .none, st => st == .none
  | .emptyInput, st => st == .build
  | .unknownSymbol, st => st == .encode
  | .malformedCode, _ => false
  | .treeMalformed, st => st == .build
  | .dupSymbol, st => st == .build
  | .bitOverflow, st => st == .encode
  | .badLength, st => !(st == .none)
  | .illegalCmd, st => st == .none

/-- What every step keeps. -/
structure State.Inv (s : State) : Prop where
  /-- the parameters are legal (R6) -/
  params : s.params.wf = true
  /-- TREE in canonical form, 512 words (R35) -/
  tree : s.tree.wf ∧ s.tree.below Config.nodeDepth
  /-- LEN in canonical form, 256 entries, none listed with LEN 0 (R36) -/
  lens : s.lens.wf ∧ s.lens.below Config.nsym ∧ ∀ c ∈ s.lens, c.2 ≠ 0#8
  /-- CBITS in canonical form, 256 cells an entry (R36) -/
  cbits : s.cbits.wf ∧ s.cbits.below (Config.nsym * Config.cbitsW)
  /-- IN in canonical form, IN_DEPTH bytes (R37) -/
  inp : s.inp.wf ∧ s.inp.below s.params.inDepth
  /-- BIT in canonical form, BIT_DEPTH bits (R38) -/
  bit : s.bit.wf ∧ s.bit.below s.params.bitDepth
  /-- OUT in canonical form, OUT_DEPTH bytes (R39) -/
  out : s.out.wf ∧ s.out.below s.params.outDepth
  /-- the internal registers hold no value between commands (R41, R42) -/
  eng : s.eng = .idle
  /-- a running command is one of R92, with DONE, ERR, ESTAGE and ERR_INFO as acceptance left them (R222) -/
  busy : s.status.busy = true →
    s.status.done = false ∧ s.status.err = .none ∧ s.errInfo = 0#32 ∧ s.status.lastop.toNat ≤ 5
  /-- ERR and ESTAGE go together, and ERR 3 is never produced (R181, R182, S3) -/
  errStage : errStageOk s.status.err s.status.estage = true
  /-- ERR_INFO is 0 where there is no error (R25) -/
  errInfo : s.status.err = .none → s.errInfo = 0#32
  /-- OUT_LEN counts bytes of OUT (R31) -/
  outLen : s.outLen.toNat ≤ s.params.outDepth

/-! ## What no command changes -/

/-- The parts of the state no command writes: the parameters, IRQ_EN, OVR, LASTOP, NODE_COUNT, ROOT, IN_LEN, TREE and
IN (R27 to R29, R34, R35, R37, R71), and the model's own port and counter. -/
structure SameInputs (s t : State) : Prop where
  params : t.params = s.params
  irqEn : t.irqEn = s.irqEn
  ovr : t.status.ovr = s.status.ovr
  lastop : t.status.lastop = s.status.lastop
  nodeCount : t.nodeCount = s.nodeCount
  root : t.root = s.root
  inLen : t.inLen = s.inLen
  tree : t.tree = s.tree
  inp : t.inp = s.inp
  port : t.port = s.port
  busData : t.busData = s.busData
  draws : t.draws = s.draws

/-- A state in which a command has just completed successfully (R185). -/
structure Succeeded (t : State) : Prop where
  busy : t.status.busy = false
  done : t.status.done = true
  err : t.status.err = .none
  estage : t.status.estage = .none
  eng : t.eng = .idle

/-- A state in which a command has just completed with error `e` of stage `st` and detail `info` (R184). -/
structure FailedWith (e : ErrCode) (st : Stage) (info : Word) (t : State) : Prop where
  busy : t.status.busy = false
  done : t.status.done = true
  err : t.status.err = e
  estage : t.status.estage = st
  errInfo : t.errInfo = info
  eng : t.eng = .idle

/-! ## What the memories hold -/

/-- IN[0 .. IN_LEN−1] is the symbol sequence `syms` (R215 (4), (5)). -/
def State.InputIs (s : State) (syms : List Byte) : Prop :=
  s.inLen.toNat = syms.length ∧ ∀ i, i < syms.length → s.inp.get i = syms[i]?

/-- CODE[sym] holds the code `code`: LEN its length, CBITS[0 .. LEN−1] its bits (R96). -/
def State.CodeIs (s : State) (sym : Byte) (code : List Bool) : Prop :=
  (s.lenOf sym).toNat = code.length ∧ ∀ j, j < code.length → s.cbits.get (cbitsCell sym j) = code[j]?

/-- BIT[0 .. len−1] is the stream `bits` (R218). -/
def State.StreamIs (s : State) (bits : List Bool) : Prop :=
  ∀ j, j < bits.length → s.bit.get j = bits[j]?

/-- OUT[0 .. len−1] is `bytes`. -/
def State.OutputIs (s : State) (bytes : List Byte) : Prop :=
  ∀ k, k < bytes.length → s.out.get k = bytes[k]?

/-- Some cell of the run of `len` cells from `base` on was never written. -/
def Memory.Hole {α : Type} (m : Memory α) (base len : Nat) : Prop :=
  ∃ k, k < len ∧ m.get (base + k) = none

/-- Cell `c` is the first never-written one of the run of `len` cells from `base` on. -/
def Memory.FirstHole {α : Type} (m : Memory α) (base len c : Nat) : Prop :=
  base ≤ c ∧ c < base + len ∧ m.get c = none ∧ ∀ j, base ≤ j → j < c → m.get j ≠ none

/-- The CODE entries of the symbols without a code keep their CBITS. -/
def UncodedCellsKept (s t : State) : Prop :=
  ∀ sym : Byte, t.lenOf sym = 0#8 → ∀ j, j < Config.cbitsW →
    t.cbits.get (cbitsCell sym j) = s.cbits.get (cbitsCell sym j)

/-! ## Prefix-code trees -/

/-- A binary prefix-code tree: a node has either zero or exactly two children (R13). -/
inductive CodeTree where
  | leaf (sym : Byte)
  | node (left right : CodeTree)
deriving DecidableEq, Repr

/-- The number of nodes. -/
def CodeTree.size : CodeTree → Nat
  | .leaf _ => 1
  | .node l r => 1 + l.size + r.size

/-- The depth of the deepest leaf (R14: the root has depth 0). -/
def CodeTree.depth : CodeTree → Nat
  | .leaf _ => 0
  | .node l r => 1 + max l.depth r.depth

/-- The symbols of the leaves, left to right. -/
def CodeTree.symbols : CodeTree → List Byte
  | .leaf sym => [sym]
  | .node l r => l.symbols ++ r.symbols

/-- Every leaf's symbol with its path (R14), under the path `path`. -/
def CodeTree.paths : CodeTree → List Bool → List (Byte × List Bool)
  | .leaf sym, path => [(sym, path)]
  | .node l r, path => l.paths (path ++ [false]) ++ r.paths (path ++ [true])

/-- The code table of a tree (§4.3's contract): each leaf's path, or "0" for a single-leaf tree (R116). -/
def CodeTree.codes : CodeTree → List (Byte × List Bool)
  | .leaf sym => [(sym, [false])]
  | .node l r => (CodeTree.node l r).paths []

/-- The code of a symbol in a tree's table; no bits for a symbol of no leaf. -/
def CodeTree.codeOf (T : CodeTree) (sym : Byte) : List Bool := (T.codes.lookup sym).getD []

/-- The TREE memory holds the tree `T` at handle `h`, with every child handle below NODE_COUNT (R94, R117). -/
def State.HoldsTree (s : State) : Nat → CodeTree → Prop
  | h, .leaf sym => ∃ w, s.tree.get h = some w ∧ nodeIsLeaf w = true ∧ nodeSym w = sym
  | h, .node l r => ∃ w, s.tree.get h = some w ∧ nodeIsLeaf w = false ∧
      nodeLeft w < s.nodeCount.toNat ∧ nodeRight w < s.nodeCount.toNat ∧
      s.HoldsTree (nodeLeft w) l ∧ s.HoldsTree (nodeRight w) r

/-- The operands of BUILD_CODES name a tree that every check of R111 to R117 passes. -/
structure State.BuildReady (s : State) (T : CodeTree) : Prop where
  count : s.nodeCount.toNat ≤ Config.nodeDepth
  root : s.root.toNat < s.nodeCount.toNat
  holds : s.HoldsTree s.root.toNat T
  size : T.size ≤ s.nodeCount.toNat
  symbols : T.symbols.Nodup
  depth : T.depth ≤ Config.maxCodeLen

/-- A traversal from handle `h` (R113) comes to the never-written word of handle `g`, past nothing but whole subtrees and
internal nodes with both children below NODE_COUNT: `depth` is the depth of the deepest node on the way, `count` the number
of nodes visited before `g`, and `syms` the symbols of the leaves among them, in order. -/
inductive State.MeetsUnwritten (s : State) (g : Nat) : Nat → Nat → Nat → List Byte → Prop where
  | here : s.tree.get g = none → s.MeetsUnwritten g g 0 0 []
  | left (h : Nat) (w : Word) (depth count : Nat) (syms : List Byte) : s.tree.get h = some w → nodeIsLeaf w = false →
      nodeLeft w < s.nodeCount.toNat → nodeRight w < s.nodeCount.toNat →
      s.MeetsUnwritten g (nodeLeft w) depth count syms → s.MeetsUnwritten g h (1 + depth) (1 + count) syms
  | right (h : Nat) (w : Word) (T : CodeTree) (depth count : Nat) (syms : List Byte) : s.tree.get h = some w →
      nodeIsLeaf w = false → nodeLeft w < s.nodeCount.toNat → nodeRight w < s.nodeCount.toNat →
      s.HoldsTree (nodeLeft w) T → s.MeetsUnwritten g (nodeRight w) depth count syms →
      s.MeetsUnwritten g h (1 + max T.depth depth) (1 + T.size + count) (T.symbols ++ syms)

/-- CODE is the table of `T` (R119): each leaf's code, zeros above it in CBITS, LEN 0 for every other symbol. -/
structure State.TableIs (t : State) (T : CodeTree) : Prop where
  codes : ∀ c ∈ T.codes, t.CodeIs c.1 c.2
  zeros : ∀ c ∈ T.codes, ∀ j, c.2.length ≤ j → j < Config.cbitsW → t.cbits.get (cbitsCell c.1 j) = some false
  others : ∀ sym, sym ∉ T.symbols → t.lenOf sym = 0#8

/-- In the TREE memory, the path `path` leads from handle `h` to a leaf of symbol `sym` (R14: left is 0, right is 1). -/
inductive State.LeafAt (s : State) : Nat → List Bool → Byte → Prop where
  | leaf (h : Nat) (w : Word) : s.tree.get h = some w → nodeIsLeaf w = true → s.LeafAt h [] (nodeSym w)
  | left (h : Nat) (w : Word) (path : List Bool) (sym : Byte) : s.tree.get h = some w → nodeIsLeaf w = false →
      s.LeafAt (nodeLeft w) path sym → s.LeafAt h (false :: path) sym
  | right (h : Nat) (w : Word) (path : List Bool) (sym : Byte) : s.tree.get h = some w → nodeIsLeaf w = false →
      s.LeafAt (nodeRight w) path sym → s.LeafAt h (true :: path) sym

/-- The handles a traversal from ROOT can reach (R121). It goes on below an internal node only where both child handles
are below NODE_COUNT (R117). -/
inductive State.Reachable (s : State) : Nat → Prop where
  | root : s.Reachable s.root.toNat
  | left (h : Nat) (w : Word) : s.Reachable h → s.tree.get h = some w → nodeIsLeaf w = false →
      nodeLeft w < s.nodeCount.toNat → nodeRight w < s.nodeCount.toNat → s.Reachable (nodeLeft w)
  | right (h : Nat) (w : Word) : s.Reachable h → s.tree.get h = some w → nodeIsLeaf w = false →
      nodeLeft w < s.nodeCount.toNat → nodeRight w < s.nodeCount.toNat → s.Reachable (nodeRight w)

/-- Two node words that R95 decodes alike: the ignored bits may differ. -/
def sameNode (v w : Word) : Prop :=
  nodeIsLeaf v = nodeIsLeaf w ∧ (nodeIsLeaf v = true → nodeSym v = nodeSym w) ∧
  (nodeIsLeaf v = false → nodeLeft v = nodeLeft w ∧ nodeRight v = nodeRight w)

/-! ## R113's VISIT as the spec writes it -/

/-- R113's recursive VISIT(h, d, path), with d the length of `path` and `room` = MAX_CODE_LEN − d, so that the depth
check `d + 1 > 255` fails exactly where `room` is 0. It uses no traversal stack, and what it raises records the handle h
itself (R182). -/
def visitRec (room : Nat) (h : Nat) (path : List Bool) (s : State) : Body :=
  if s.nodeCount.toNat < s.countVisit.eng.visits then .raise .treeMalformed (BitVec.ofNat 32 h) s.countVisit
  else
    .withRead (readCell .tree s.tree h) fun w =>
      if nodeIsLeaf w then
        if s.lenOf (nodeSym w) ≠ 0#8 then .raise .dupSymbol (BitVec.ofNat 32 h) s.countVisit
        else .ok (s.countVisit.writeCode (nodeSym w) (leafCode path))
      else if s.nodeCount.toNat ≤ nodeLeft w then .raise .treeMalformed (BitVec.ofNat 32 h) s.countVisit
      else if s.nodeCount.toNat ≤ nodeRight w then .raise .treeMalformed (BitVec.ofNat 32 h) s.countVisit
      else
        match room with
        | 0 => .raise .treeMalformed (BitVec.ofNat 32 h) s.countVisit
        | room + 1 =>
          (visitRec room (nodeLeft w) (path ++ [false]) s.countVisit).andThen
            (visitRec room (nodeRight w) (path ++ [true]))

/-- BUILD_CODES with R113's recursive VISIT in place of the hardware's traversal stack. -/
def buildRec (s : State) : Body :=
  match s.buildPreCheck with
  | some (e, info) => .raise e info (s.enterStage .build)
  | none => visitRec Config.maxCodeLen s.root.toNat [] (s.enterStage .build).clearLens

/-! ## Packed bytes as the rules write them -/

/-- R152 and R153's sum: Σ_t bits[t] · 2^(r − 1 − t) over the r bits of a group. -/
def groupValue (bits : List Bool) : Nat :=
  ((List.range bits.length).map fun t => (bits.getD t false).toNat * 2 ^ (bits.length - 1 - t)).sum

/-- The ⌈n/8⌉ bytes of a stream: a group of 8 bits each, and the final group of 1 to 7 (R152 to R154). -/
def packedBytes (bits : List Bool) : List Byte :=
  (List.range ((bits.length + 7) / 8)).map fun k => BitVec.ofNat 8 (groupValue ((bits.drop (8 * k)).take 8))

/-! ## The host's view -/

/-- The host reads the 32-bit word at an offset of the aperture: `MemRead(BASE + offset, 4)` (R11). -/
def State.hostReads (s : State) (offset : Nat) : Host.Outcome State Fault Refusal :=
  s.portEvent (.read (s.params.base + offset) 4)

/-- The host writes the 32-bit word at an offset of the aperture: `MemWrite(BASE + offset, 4, v)` (R11). -/
def State.hostWrites (s : State) (offset : Nat) (v : Word) : Host.Outcome State Fault Refusal :=
  s.portEvent (.write (s.params.base + offset) 4 v)

/-- An offset of a mapped word of the TREE, CODE, IN, BIT or OUT window (R61, R66). -/
abbrev mappedWord (p : Config.Params) (offset : Nat) : Prop :=
  offset % 4 = 0 ∧
  ((0x01000 ≤ offset ∧ offset < 0x01800) ∨
   (0x04000 ≤ offset ∧ offset < 0x08000 ∧ offset % 64 ≤ 0x20) ∨
   (0x08000 ≤ offset ∧ offset < 0x08000 + p.inDepth) ∨
   (0x10000 ≤ offset ∧ offset < 0x10000 + p.bitDepth / 8) ∨
   (0x18000 ≤ offset ∧ offset < 0x18000 + p.bitDepth / 8))

/-- A RAZ/WI offset: of the aperture, of no register of R21 to R32, and of no mapped window word (R33, R61, R66). -/
abbrev razOffset (p : Config.Params) (offset : Nat) : Prop :=
  offset % 4 = 0 ∧ 0x00034 ≤ offset ∧ offset < 0x20000 ∧ ¬ mappedWord p offset

/-! ## Safe steps -/

/-- A step that does not stop the model. -/
def State.SafeStep (s : State) : Prop := ∃ t, step s = .next t

end Sys2Proof.Machine
end

