-- ==== Sys2Proof/Certificates/Slice0/Obligations.lean ====
section
/-! DEFINITION. The statements for the provers. Each docstring names the rules it formalises. -/

open Sys2Proof Sys2Proof.Machine

/-! ## Encoding -/

/-- R92: the word written for a command is read back as that command. -/
def Obligations.DecodeOfEncodeIsTheCommand : Prop :=
  ∀ i : Instr, decodeWord (encode i) = .ok i

/-- R91: a word is a command exactly when MBZ = 0 and OP is one of the six, equivalently when it is at most 5; each such
word is the encoding of the command it stands for. -/
def Obligations.WordIsACommandExactlyWhenLegal : Prop :=
  ∀ w : Word,
    ((∃ i, decodeWord w = .ok i) ↔ (w.extractLsb' 8 24 = 0#24 ∧ (w.extractLsb' 0 8).toNat ≤ 5)) ∧
    ((∃ i, decodeWord w = .ok i) ↔ w.toNat ≤ 5) ∧
    ∀ i, decodeWord w = .ok i → encode i = w

/-- R92's opcode map on the six words written out, through the table decoder too. -/
def Obligations.OpcodeMapWordsDecode : Prop :=
  decodeWord 0x00000000#32 = .ok .nop ∧ decodeWord 0x00000001#32 = .ok .buildCodes ∧
  decodeWord 0x00000002#32 = .ok .encode ∧ decodeWord 0x00000003#32 = .ok .pack ∧
  decodeWord 0x00000004#32 = .ok .run ∧ decodeWord 0x00000005#32 = .ok .clearCodes ∧
  decodeTableWord 32 4 = some .run ∧ decodeTableWord 32 6 = none ∧ decodeTableWord 32 0x101 = none

/-- R94's construction of node words is what R95 decodes, for every symbol and every pair of handles. -/
def Obligations.NodeWordsDecodeAsConstructed : Prop :=
  (∀ sym : Byte, nodeIsLeaf (leafWord sym) = true ∧ nodeSym (leafWord sym) = sym) ∧
  ∀ l r : BitVec 9, nodeIsLeaf (nodeWord l r) = false ∧ nodeLeft (nodeWord l r) = l.toNat ∧
    nodeRight (nodeWord l r) = r.toNat

/-! ## The step -/

/-- R9, R40, R189, R230: while BUSY, the engine runs the command whose opcode LASTOP holds: next, where nothing is at the
port; where an event waits, a free choice says whether the completion or the event comes first. -/
def Obligations.StepRunsTheHeldCommand : Prop :=
  ∀ (s : State) (i : Instr), s.status.busy = true → decodeWord (0#24 ++ s.status.lastop) = .ok i →
    (s.port = [] → step s = exec i s) ∧
    (∀ e rest, s.port = e :: rest →
      step s =
        if Config.freeEngineFirst s.draws then exec i { s with draws := s.draws + 1 }
        else State.portEvent { s with port := rest, draws := s.draws + 1 } e)

/-- R72, R211: while IDLE, the port's next event takes effect; with none, HBP only waits. -/
def Obligations.IdleStepTakesThePortsNextEvent : Prop :=
  ∀ s : State, s.status.busy = false →
    (s.port = [] → step s = .next s) ∧
    (∀ e rest, s.port = e :: rest → step s = State.portEvent { s with port := rest } e)

/-- The model's own loading of a command (log 10): the very next step runs it, from its acceptance on. -/
def Obligations.FetchedWordRunsNext : Prop :=
  ∀ (s : State) (w : Nat) (i : Instr), decodeTableWord 32 w = some i →
    step (s.withFetchWord 32 w) = exec i { s.accept (encode i) with port := [] }

/-! ## Acceptance and completion -/

/-- R183: a legal command word written to CMD while BUSY = 0 is accepted in that write; OVR is not changed. -/
def Obligations.LegalCommandWordIsAccepted : Prop :=
  ∀ (s : State) (v : Word), s.status.busy = false → v.toNat ≤ 5 →
    s.hostWrites 0x008 v = .next { s with
      status := { busy := true, done := false, ovr := s.status.ovr, err := .none, estage := .none
                  lastop := v.extractLsb' 0 8 }
      errInfo := 0#32
      busData := none }

/-- R187: any other word written to CMD while BUSY = 0 completes in that write with ILLEGAL_CMD; BUSY stays 0 and the
rest of the state is unchanged; irq rises if IRQ_EN = 1. -/
def Obligations.IllegalCommandWordCompletesAtOnce : Prop :=
  ∀ (s : State) (v : Word), s.status.busy = false → 5 < v.toNat →
    ∃ t, s.hostWrites 0x008 v = .next t ∧ t.irq = s.irqEn ∧
      t = { s with
        status := { busy := false, done := true, ovr := s.status.ovr, err := .illegalCmd, estage := .none
                    lastop := v.extractLsb' 0 8 }
        errInfo := v
        busData := none }

/-- R34, R35, R37, R71, R184, R185: whatever command runs and however it ends, it ends with BUSY = 0 and DONE = 1, the
internal registers hold no value, and no command writes TREE, IN, NODE_COUNT, ROOT, IN_LEN, IRQ_EN, OVR or LASTOP. -/
def Obligations.NoCommandWritesItsInputs : Prop :=
  ∀ (i : Instr) (s t : State), exec i s = .next t →
    SameInputs s t ∧ t.status.busy = false ∧ t.status.done = true ∧ t.eng = .idle

/-- R34: "No command reads them": a command's result does not depend on the flags it starts with. -/
def Obligations.NoCommandReadsTheFlags : Prop :=
  ∀ (i : Instr) (s t : State) (st : Status), exec i s = .next t →
    exec i { s with status := st } =
      .next { t with status := { t.status with ovr := st.ovr, lastop := st.lastop } }

/-! ## NOP and CLEAR_CODES -/

/-- R170: NOP completes from every state and changes STATUS and ERR_INFO only; from its acceptance on, ERR, ESTAGE and
ERR_INFO are 0, DONE is 1 and LASTOP is 0x00. -/
def Obligations.NopCompletesWithTheStatusUpdateOnly : Prop :=
  encode .nop = 0x00000000#32 ∧
  (∀ s : State, exec .nop s = .next { s with
      status := { s.status with busy := false, done := true, err := .none, estage := .none }
      eng := .idle }) ∧
  (∀ s : State, exec .nop (s.accept (encode .nop)) = .next { s with
      status := { busy := false, done := true, ovr := s.status.ovr, err := .none, estage := .none, lastop := 0x00#8 }
      errInfo := 0#32
      eng := .idle }) ∧
  (∀ p : Config.Params, ∀ t, exec .nop ((State.resetOf p).accept (encode .nop)) = .next t →
      t.status.word = 0x00000002#32)

/-- R125: CLEAR_CODES completes from every state, makes every LEN 0, and changes nothing else but the status; after it,
ENCODE of any non-empty input raises UNKNOWN_SYMBOL(0). -/
def Obligations.ClearCodesCompletesWithEveryLenZero : Prop :=
  encode .clearCodes = 0x00000005#32 ∧
  (∀ s : State, ∃ t, exec .clearCodes s = .next t ∧
      t = { s with
        lens := t.lens
        status := { s.status with busy := false, done := true, err := .none, estage := .none }
        eng := .idle } ∧
      ∀ sym, t.lenOf sym = 0#8) ∧
  (∀ s t : State, ∀ x : Byte, exec .clearCodes s = .next t → s.inp.get 0 = some x → 0 < s.inLen.toNat →
      s.inLen.toNat ≤ s.params.inDepth →
      ∃ u, exec .encode (t.accept (encode .encode)) = .next u ∧ FailedWith .unknownSymbol .encode 0#32 u)

/-! ## BUILD_CODES -/

/-- R111: the pre-checks in order, each leaving all but STATUS and ERR_INFO unchanged. -/
def Obligations.BuildPreChecksLeaveTheTableUnchanged : Prop :=
  ∀ s : State,
    (512 < s.nodeCount.toNat → exec .buildCodes s = .next { s with
      status := { s.status with busy := false, done := true, err := .badLength, estage := .build }
      errInfo := s.nodeCount
      eng := .idle }) ∧
    (s.nodeCount.toNat = 0 → exec .buildCodes s = .next { s with
      status := { s.status with busy := false, done := true, err := .emptyInput, estage := .build }
      errInfo := 0#32
      eng := .idle }) ∧
    (0 < s.nodeCount.toNat → s.nodeCount.toNat ≤ 512 → s.nodeCount.toNat ≤ s.root.toNat →
      exec .buildCodes s = .next { s with
        status := { s.status with busy := false, done := true, err := .treeMalformed, estage := .build }
        errInfo := s.root
        eng := .idle })

/-- R119: on a tree that passes the checks, BUILD_CODES succeeds; exactly the symbols of its leaves have a code, their
path or "0", zeros above it in CBITS; the CBITS of every other entry are unchanged, and so is all else. -/
def Obligations.BuildSucceedsOnEveryTree : Prop :=
  ∀ (s : State) (T : CodeTree), s.BuildReady T → s.errInfo = 0#32 →
    ∃ t, exec .buildCodes s = .next t ∧ Succeeded t ∧ t.errInfo = 0#32 ∧ t.TableIs T ∧
      (∀ sym, t.lenOf sym ≠ 0#8 ↔ sym ∈ T.symbols) ∧ UncodedCellsKept s t ∧
      SameInputs s t ∧ t.bitLen = s.bitLen ∧ t.outLen = s.outLen ∧ t.bit = s.bit ∧ t.out = s.out

/-- R119: wherever BUILD_CODES ends without a raise, TREE holds a tree that passes the checks, exactly the symbols of its
leaves have a code, their path or "0" with zeros above; every other entry has LEN 0 and its CBITS unchanged; the command
has completed successfully, ERR_INFO as acceptance left it, OVR and LASTOP unchanged. -/
def Obligations.BuildSuccessMeansTheTableOfATree : Prop :=
  ∀ s t : State, exec .buildCodes s = .next t → t.status.err = .none →
    ∃ T, s.BuildReady T ∧ t.TableIs T ∧ (∀ sym, t.lenOf sym ≠ 0#8 ↔ sym ∈ T.symbols) ∧ UncodedCellsKept s t ∧
      Succeeded t ∧ t.errInfo = s.errInfo ∧ t.status.ovr = s.status.ovr ∧ t.status.lastop = s.status.lastop

/-- R113, R182: the traversal with the hardware's stack and path register does what the spec's recursive VISIT does, reads,
writes, errors with the handle at fault in ERR_INFO and all, from every state. -/
def Obligations.BuildIsTheRecursiveVisit : Prop :=
  ∀ s : State, exec .buildCodes s = (buildRec s).complete

/-- R114, R230: BUILD_CODES completes, with success or an error, from every state whose tree words below NODE_COUNT are
written, whatever they hold. -/
def Obligations.BuildCompletesOnAnyWrittenNodes : Prop :=
  ∀ s : State, (∀ h, h < s.nodeCount.toNat → h < 512 → ∃ w, s.tree.get h = some w) →
    ∃ t, exec .buildCodes s = .next t

/-- R122: after a successful BUILD_CODES every code is non-empty and at most 255 bits, each symbol has at most one code,
and no code is a prefix of another. -/
def Obligations.BuiltCodesArePrefixFree : Prop :=
  ∀ s t : State, exec .buildCodes s = .next t → t.status.err = .none →
    (∀ sym, t.lenOf sym ≠ 0#8 → ∃ code, t.CodeIs sym code ∧ 1 ≤ code.length ∧ code.length ≤ 255) ∧
    (∀ sym c d, t.CodeIs sym c → t.CodeIs sym d → c = d) ∧
    (∀ a b c d, a ≠ b → t.lenOf a ≠ 0#8 → t.lenOf b ≠ 0#8 → t.CodeIs a c → t.CodeIs b d → ¬ c <+: d)

/-- R13: a built table permits unambiguous decoding: two symbol sequences of coded symbols with one encoded stream are
the same sequence. -/
def Obligations.BuiltCodesDecodeUnambiguously : Prop :=
  ∀ (s t : State) (code : Byte → List Bool) (xs ys : List Byte),
    exec .buildCodes s = .next t → t.status.err = .none →
    (∀ x, x ∈ xs ++ ys → t.lenOf x ≠ 0#8 ∧ t.CodeIs x (code x)) →
    xs.flatMap code = ys.flatMap code → xs = ys

/-- R112, R115, R120: once the pre-checks pass, whether the traversal succeeds or raises, every entry with LEN ≠ 0 is a
leaf of this tree with its path as its code; no entry from before survives. -/
def Obligations.BuildLeavesOnlyCodesOfThisTree : Prop :=
  ∀ s t : State, exec .buildCodes s = .next t →
    0 < s.nodeCount.toNat → s.nodeCount.toNat ≤ 512 → s.root.toNat < s.nodeCount.toNat →
    ∀ sym, t.lenOf sym ≠ 0#8 →
      ∃ path, s.LeafAt s.root.toNat path sym ∧
        t.CodeIs sym (if path = [] then [false] else path)

/-- R95, R117, R121: the words BUILD_CODES does not reach, among them those named only by an internal node with a child
handle at or above NODE_COUNT, and the ignored bits of the words it reaches, change nothing. -/
def Obligations.BuildReadsOnlyReachableNodeFields : Prop :=
  ∀ (s t : State) (tree' : Memory Word), exec .buildCodes s = .next t →
    (∀ h w, s.Reachable h → h < s.nodeCount.toNat → s.tree.get h = some w →
      ∃ w', tree'.get h = some w' ∧ sameNode w w') →
    exec .buildCodes { s with tree := tree' } = .next { t with tree := tree' }

/-- R71, R110: what BUILD_CODES leaves unchanged, however it ends: BIT_LEN, OUT_LEN, BIT, OUT, its inputs, and the CBITS
of every symbol it gives no code. -/
def Obligations.BuildFrame : Prop :=
  ∀ s t : State, exec .buildCodes s = .next t →
    SameInputs s t ∧ t.bitLen = s.bitLen ∧ t.outLen = s.outLen ∧ t.bit = s.bit ∧ t.out = s.out ∧ UncodedCellsKept s t

/-! ## ENCODE -/

/-- R131: the pre-check leaves all but STATUS and ERR_INFO unchanged. -/
def Obligations.EncodeRejectsALongInput : Prop :=
  ∀ s : State, s.params.inDepth < s.inLen.toNat → exec .encode s = .next { s with
    status := { s.status with busy := false, done := true, err := .badLength, estage := .encode }
    errInfo := s.inLen
    eng := .idle }

/-- R133: on coded symbols whose codes fit, ENCODE succeeds and BIT[0 .. BIT_LEN−1] is the concatenation of their codes
in input order; the cells above it, and all else, are unchanged. -/
def Obligations.EncodeConcatenatesTheCodes : Prop :=
  ∀ (s : State) (syms : List Byte) (code : Byte → List Bool),
    s.InputIs syms → s.inLen.toNat ≤ s.params.inDepth →
    (∀ x, x ∈ syms → s.CodeIs x (code x) ∧ code x ≠ []) →
    (syms.flatMap code).length ≤ s.params.bitDepth → s.params.wf = true → s.errInfo = 0#32 →
    ∃ t, exec .encode s = .next t ∧ Succeeded t ∧ t.errInfo = 0#32 ∧
      t.StreamIs (syms.flatMap code) ∧ t.bitLen.toNat = (syms.map fun x => (s.lenOf x).toNat).sum ∧
      t.bitLen.toNat = (syms.flatMap code).length ∧
      (∀ j, t.bitLen.toNat ≤ j → t.bit.get j = s.bit.get j) ∧
      SameInputs s t ∧ t.outLen = s.outLen ∧ t.lens = s.lens ∧ t.cbits = s.cbits ∧ t.out = s.out

/-- R134: at the first symbol without a code, or whose code does not fit, ENCODE ends with the index of that symbol, and
BIT and BIT_LEN hold exactly the codes of the symbols before it; IN still holds the symbol. -/
def Obligations.EncodeErrorLeavesTheStreamPrefix : Prop :=
  ∀ (s : State) (pre : List Byte) (x : Byte) (code : Byte → List Bool),
    pre.length < s.inLen.toNat → s.inLen.toNat ≤ s.params.inDepth → s.params.wf = true →
    (∀ i, i < pre.length → s.inp.get i = pre[i]?) → s.inp.get pre.length = some x →
    (∀ y, y ∈ pre → s.CodeIs y (code y) ∧ code y ≠ []) → (pre.flatMap code).length ≤ s.params.bitDepth →
    (s.lenOf x = 0#8 → ∃ t, exec .encode s = .next t ∧
      FailedWith .unknownSymbol .encode (BitVec.ofNat 32 pre.length) t ∧
      t.bitLen.toNat = (pre.flatMap code).length ∧ t.StreamIs (pre.flatMap code) ∧
      (∀ j, t.bitLen.toNat ≤ j → t.bit.get j = s.bit.get j) ∧ SameInputs s t) ∧
    (s.lenOf x ≠ 0#8 → s.params.bitDepth < (pre.flatMap code).length + (s.lenOf x).toNat →
      ∃ t, exec .encode s = .next t ∧
        FailedWith .bitOverflow .encode (BitVec.ofNat 32 pre.length) t ∧
        t.bitLen.toNat = (pre.flatMap code).length ∧ t.StreamIs (pre.flatMap code) ∧
        (∀ j, t.bitLen.toNat ≤ j → t.bit.get j = s.bit.get j) ∧ SameInputs s t)

/-- R71, R130: what ENCODE leaves unchanged, however it ends. -/
def Obligations.EncodeFrame : Prop :=
  ∀ s t : State, s.params.wf = true → exec .encode s = .next t →
    SameInputs s t ∧ t.outLen = s.outLen ∧ t.lens = s.lens ∧ t.cbits = s.cbits ∧ t.out = s.out ∧
    (∀ j, t.bitLen.toNat ≤ j → t.bit.get j = s.bit.get j) ∧
    (t.status.err = .badLength → t.bit = s.bit ∧ t.bitLen = s.bitLen)

/-- R130, R230: ENCODE completes, with success or an error, wherever the symbols it may meet and the code bits of every
coded symbol are written. -/
def Obligations.EncodeCompletesOnAnyWrittenInput : Prop :=
  ∀ s : State, (∀ i, i < s.inLen.toNat → i < s.params.inDepth → ∃ x, s.inp.get i = some x) →
    (∀ x : Byte, ∀ j, j < (s.lenOf x).toNat → ∃ b, s.cbits.get (cbitsCell x j) = some b) →
    ∃ t, exec .encode s = .next t

/-! ## PACK -/

/-- R151: the pre-check leaves all but STATUS and ERR_INFO unchanged; once it passes, ⌈n/8⌉ bytes fit OUT. -/
def Obligations.PackRejectsALongStream : Prop :=
  (∀ s : State, s.params.bitDepth < s.bitLen.toNat → exec .pack s = .next { s with
    status := { s.status with busy := false, done := true, err := .badLength, estage := .pack }
    errInfo := s.bitLen
    eng := .idle }) ∧
  ∀ s : State, s.params.wf = true → s.bitLen.toNat ≤ s.params.bitDepth →
    (s.bitLen.toNat + 7) / 8 ≤ s.params.outDepth

/-- R152, R153, R154: PACK succeeds on every written stream; OUT[k] is the sum of the rules over bits 8k to 8k + 7, or over
the final group of r = 1 to 7 bits, a value below 2^r; OUT_LEN is ⌈n/8⌉; the bytes above, and all else, are unchanged. PACK
raises no error but BAD_LENGTH. -/
def Obligations.PackWritesTheGroupsBytes : Prop :=
  (∀ s t : State, exec .pack s = .next t → t.status.err = .none ∨ t.status.err = .badLength) ∧
  ∀ (s : State) (bits : List Bool),
    s.bitLen.toNat = bits.length → bits.length ≤ s.params.bitDepth → s.StreamIs bits → s.errInfo = 0#32 →
    ∃ t, exec .pack s = .next t ∧ Succeeded t ∧ t.errInfo = 0#32 ∧
      t.OutputIs (packedBytes bits) ∧ t.outLen.toNat = (bits.length + 7) / 8 ∧
      (bits.length % 8 ≠ 0 → ∀ b, t.out.get (bits.length / 8) = some b → b.toNat < 2 ^ (bits.length % 8)) ∧
      (∀ k, t.outLen.toNat ≤ k → t.out.get k = s.out.get k) ∧
      SameInputs s t ∧ t.bitLen = s.bitLen ∧ t.lens = s.lens ∧ t.cbits = s.cbits ∧ t.bit = s.bit

/-- R71, R150: what PACK leaves unchanged, however it ends. -/
def Obligations.PackFrame : Prop :=
  ∀ s t : State, exec .pack s = .next t →
    SameInputs s t ∧ t.bitLen = s.bitLen ∧ t.lens = s.lens ∧ t.cbits = s.cbits ∧ t.bit = s.bit ∧
    (∀ k, (s.bitLen.toNat + 7) / 8 ≤ k → t.out.get k = s.out.get k) ∧
    (t.status.err = .badLength → t.out = s.out ∧ t.outLen = s.outLen)

/-- R156: PACK is injective on pairs (stream, n): successful runs on streams of one length with the same bytes packed the
same bits. -/
def Obligations.PackIsInjectiveOnStreamsOfOneLength : Prop :=
  ∀ (s s' t t' : State) (bits bits' : List Bool),
    bits.length = bits'.length → s.bitLen.toNat = bits.length → s'.bitLen.toNat = bits'.length →
    s.StreamIs bits → s'.StreamIs bits' →
    exec .pack s = .next t → exec .pack s' = .next t' → t.status.err = .none → t'.status.err = .none →
    (∀ k, k < t.outLen.toNat → t.out.get k = t'.out.get k) → bits = bits'

/-! ## RUN -/

/-- R171: RUN's result is that of BUILD_CODES, ENCODE and PACK issued one after another, each after the previous one
completed without error, but for LASTOP; an error of a stage ends it with that stage's result. -/
def Obligations.RunIsTheStagesInSequence : Prop :=
  encode .run = 0x00000004#32 ∧
  ∀ s s1 : State, exec .buildCodes (s.accept (encode .buildCodes)) = .next s1 →
    (s1.status.err ≠ .none → exec .run (s.accept (encode .run)) =
      .next { s1 with status := { s1.status with lastop := 0x04#8 } }) ∧
    (∀ s2, s1.status.err = .none → exec .encode (s1.accept (encode .encode)) = .next s2 →
      (s2.status.err ≠ .none → exec .run (s.accept (encode .run)) =
        .next { s2 with status := { s2.status with lastop := 0x04#8 } }) ∧
      (∀ s3, s2.status.err = .none → exec .pack (s2.accept (encode .pack)) = .next s3 →
        exec .run (s.accept (encode .run)) =
          .next { s3 with status := { s3.status with lastop := 0x04#8 } }))

/-- R171 with R119, R133 and R154: on a tree and an input over its symbols whose stream fits, RUN succeeds; CODE is the
tree's table, BIT the encoded stream and OUT its packed bytes. -/
def Obligations.RunEncodesAndPacksTheInput : Prop :=
  ∀ (s : State) (T : CodeTree) (syms : List Byte),
    s.params.wf = true → s.BuildReady T → s.InputIs syms → s.inLen.toNat ≤ s.params.inDepth →
    (∀ x, x ∈ syms → x ∈ T.symbols) → (syms.flatMap T.codeOf).length ≤ s.params.bitDepth → s.errInfo = 0#32 →
    ∃ t, exec .run s = .next t ∧ Succeeded t ∧ t.errInfo = 0#32 ∧ t.TableIs T ∧
      t.StreamIs (syms.flatMap T.codeOf) ∧ t.bitLen.toNat = (syms.flatMap T.codeOf).length ∧
      t.OutputIs (packedBytes (syms.flatMap T.codeOf)) ∧
      t.outLen.toNat = ((syms.flatMap T.codeOf).length + 7) / 8 ∧ SameInputs s t

/-- R172: which errors RUN ends with, by stage, and what BAD_LENGTH records; the third stage raises none. -/
def Obligations.RunErrorsNameTheirStage : Prop :=
  ∀ s t : State, s.params.wf = true → exec .run s = .next t →
    t.status.estage ≠ .pack ∧
    (t.status.estage = .none ↔ t.status.err = .none) ∧
    (t.status.estage = .build → t.status.err ∈ [.emptyInput, .treeMalformed, .dupSymbol, .badLength] ∧
      (t.status.err = .badLength → t.errInfo = s.nodeCount)) ∧
    (t.status.estage = .encode → t.status.err ∈ [.unknownSymbol, .bitOverflow, .badLength] ∧
      (t.status.err = .badLength → t.errInfo = s.inLen))

/-- R71, R171: what RUN leaves unchanged: the outputs of the stages that did not run, BIT above BIT_LEN, OUT above the
packed bytes, its inputs, and the CBITS of every symbol it gives no code. -/
def Obligations.RunFrame : Prop :=
  ∀ s t : State, s.params.wf = true → exec .run s = .next t →
    SameInputs s t ∧ UncodedCellsKept s t ∧
    (t.status.estage = .build → t.bit = s.bit ∧ t.bitLen = s.bitLen ∧ t.out = s.out ∧ t.outLen = s.outLen) ∧
    (t.status.estage = .encode → t.out = s.out ∧ t.outLen = s.outLen) ∧
    (∀ j, t.bitLen.toNat ≤ j → t.status.estage ≠ .build → t.bit.get j = s.bit.get j) ∧
    (∀ k, t.outLen.toNat ≤ k → t.status.estage = .none → t.out.get k = s.out.get k)

/-! ## The host's accesses -/

/-- R62: an access of another size, or at an offset that is no multiple of 4, is an access fault with that offset. -/
def Obligations.MisalignedOrMissizedAccessFaults : Prop :=
  ∀ (s : State) (offset size : Nat) (v : Word), offset < 0x20000 → (size ≠ 4 ∨ offset % 4 ≠ 0) →
    s.portEvent (.read (s.params.base + offset) size) = .fault (.accessError offset) ∧
    s.portEvent (.write (s.params.base + offset) size v) = .fault (.accessError offset)

/-- R60: an access outside the aperture does not reach HBP: it changes nothing and brings no data. -/
def Obligations.AccessOutsideTheApertureChangesNothing : Prop :=
  ∀ (s : State) (addr size : Nat) (v : Word), (addr < s.params.base ∨ s.params.base + 0x20000 ≤ addr) →
    s.portEvent (.read addr size) = .next { s with busData := none } ∧
    s.portEvent (.write addr size v) = .next { s with busData := none }

/-- R33, R63: RAZ/WI offsets read 0 and ignore writes, and the read-only registers ignore writes, whether BUSY is 0 or 1;
no such write sets OVR. -/
def Obligations.ReservedAndReadOnlyOffsetsIgnoreWrites : Prop :=
  ∀ (s : State) (offset : Nat) (v : Word), s.params.wf = true →
    (razOffset s.params offset →
      s.hostReads offset = .next { s with busData := some 0#32 } ∧
      s.hostWrites offset v = .next { s with busData := none }) ∧
    (offset ∈ [0x000, 0x010, 0x024, 0x028, 0x02C, 0x030] →
      s.hostWrites offset v = .next { s with busData := none })

/-- R64: no read changes the machine; while BUSY = 0, reading again gives the same data. -/
def Obligations.ReadsHaveNoSideEffects : Prop :=
  ∀ (s t : State) (offset : Nat), s.hostReads offset = .next t →
    t = { s with busData := t.busData, draws := t.draws } ∧
    (s.status.busy = false → t.draws = s.draws ∧ t.hostReads offset = .next t)

/-- R21 to R32, R222: what each register reads as, busy or not; BIT_LEN and OUT_LEN while BUSY = 0. -/
def Obligations.RegistersReadTheirValues : Prop :=
  ∀ s : State,
    s.hostReads 0x000 = .next { s with busData := some 0x48425031#32 } ∧
    s.hostReads 0x004 = .next { s with busData := some (if s.irqEn then 2#32 else 0#32) } ∧
    s.hostReads 0x008 = .next { s with busData := some 0#32 } ∧
    s.hostReads 0x00C = .next { s with busData := some s.status.word } ∧
    s.hostReads 0x010 = .next { s with busData := some s.errInfo } ∧
    s.hostReads 0x014 = .next { s with busData := some s.nodeCount } ∧
    s.hostReads 0x018 = .next { s with busData := some s.root } ∧
    s.hostReads 0x01C = .next { s with busData := some s.inLen } ∧
    s.hostReads 0x028 = .next { s with busData := some (BitVec.ofNat 32 s.params.inDepth) } ∧
    s.hostReads 0x02C = .next { s with busData := some (BitVec.ofNat 32 s.params.bitDepth) } ∧
    s.hostReads 0x030 = .next { s with busData := some (BitVec.ofNat 32 (s.params.bitDepth / 8)) } ∧
    (s.status.busy = false →
      s.hostReads 0x020 = .next { s with busData := some s.bitLen } ∧
      s.hostReads 0x024 = .next { s with busData := some s.outLen })

/-- R27 to R30: a host write, while BUSY = 0, stores all 32 bits and changes nothing else. -/
def Obligations.LengthAndRootRegistersStoreAllBits : Prop :=
  ∀ (s : State) (v : Word), s.status.busy = false →
    s.hostWrites 0x014 v = .next { s with nodeCount := v, busData := none } ∧
    s.hostWrites 0x018 v = .next { s with root := v, busData := none } ∧
    s.hostWrites 0x01C v = .next { s with inLen := v, busData := none } ∧
    s.hostWrites 0x020 v = .next { s with bitLen := v, busData := none }

/-- R24, R181: the fields of the STATUS word, with the numbers of the nine error codes and the four stages, and a STATUS
write, busy or not: bit 1 clears DONE, bit 2 clears OVR, no other field changes. -/
def Obligations.StatusWordAndWriteOneToClear : Prop :=
  (ErrCode.none.code = 0#4 ∧ ErrCode.emptyInput.code = 1#4 ∧ ErrCode.unknownSymbol.code = 2#4 ∧
    ErrCode.malformedCode.code = 3#4 ∧ ErrCode.treeMalformed.code = 4#4 ∧ ErrCode.dupSymbol.code = 5#4 ∧
    ErrCode.bitOverflow.code = 6#4 ∧ ErrCode.badLength.code = 7#4 ∧ ErrCode.illegalCmd.code = 8#4) ∧
  (Stage.none.code = 0#3 ∧ Stage.build.code = 1#3 ∧ Stage.encode.code = 2#3 ∧ Stage.pack.code = 3#3) ∧
  (∀ st : Status,
    st.word.getLsbD 0 = st.busy ∧ st.word.getLsbD 1 = st.done ∧ st.word.getLsbD 2 = st.ovr ∧
    st.word.getLsbD 3 = false ∧ st.word.extractLsb' 4 4 = st.err.code ∧
    st.word.extractLsb' 8 3 = st.estage.code ∧ st.word.extractLsb' 11 5 = 0#5 ∧
    st.word.extractLsb' 16 8 = st.lastop ∧ st.word.extractLsb' 24 8 = 0#8) ∧
  (∀ (s : State) (v : Word), s.hostWrites 0x00C v = .next { s with
    status := { s.status with
      done := if v.getLsbD 1 then false else s.status.done
      ovr := if v.getLsbD 2 then false else s.status.ovr }
    busData := none })

/-- R22, R223: a CTRL write whose bit 0 is 0 sets IRQ_EN to bit 1 and changes nothing else, busy or not. -/
def Obligations.CtrlWriteSetsIrqEnable : Prop :=
  ∀ (s : State) (v : Word), v.getLsbD 0 = false →
    s.hostWrites 0x004 v = .next { s with irqEn := v.getLsbD 1, busData := none }

/-- R65: TREE[h] is the word at 0x01000 + 4h; a read returns the stored word; a write stores all 32 bits; the other handles
are unchanged. -/
def Obligations.TreeWindowStoresNodeWords : Prop :=
  ∀ (s : State) (h : Nat) (v : Word), s.status.busy = false → h < 512 →
    (∀ u, s.tree.get h = some u → s.hostReads (0x01000 + 4 * h) = .next { s with busData := some u }) ∧
    ∃ t, s.hostWrites (0x01000 + 4 * h) v = .next t ∧
      t = { s with tree := t.tree, busData := none } ∧
      t.tree.get h = some v ∧ (∀ k, k ≠ h → t.tree.get k = s.tree.get k) ∧
      t.hostReads (0x01000 + 4 * h) = .next { t with busData := some v }

/-- R66: the CODE window: word 0 of entry s reads LEN zero-extended and stores bits 7:0; words 1 to 8 hold CBITS, most
significant bit first, for reads and writes; words 9 to 15 read 0 and ignore writes; the other entries and words are
unchanged. -/
def Obligations.CodeWindowStoresLenAndCodeBits : Prop :=
  ∀ (s : State) (sym : Byte) (v : Word), s.status.busy = false →
    s.hostReads (0x04000 + 64 * sym.toNat) = .next { s with busData := some ((s.lenOf sym).setWidth 32) } ∧
    (∀ w u, 1 ≤ w → w ≤ 8 →
      (∀ k, k < 32 → s.cbits.get (cbitsCell sym (32 * (w - 1) + k)) = some (BitVec.getLsbD u (31 - k))) →
      s.hostReads (0x04000 + 64 * sym.toNat + 4 * w) = .next { s with busData := some u }) ∧
    (∀ w, 9 ≤ w → w ≤ 15 →
      s.hostReads (0x04000 + 64 * sym.toNat + 4 * w) = .next { s with busData := some 0#32 } ∧
      s.hostWrites (0x04000 + 64 * sym.toNat + 4 * w) v = .next { s with busData := none }) ∧
    (∃ t, s.hostWrites (0x04000 + 64 * sym.toNat) v = .next t ∧
      t = { s with lens := t.lens, busData := none } ∧
      t.lenOf sym = v.extractLsb' 0 8 ∧ (∀ x, x ≠ sym → t.lenOf x = s.lenOf x) ∧
      t.hostReads (0x04000 + 64 * sym.toNat) =
        .next { t with busData := some ((v.extractLsb' 0 8).setWidth 32) }) ∧
    (∀ w, 1 ≤ w → w ≤ 8 → ∃ t, s.hostWrites (0x04000 + 64 * sym.toNat + 4 * w) v = .next t ∧
      t = { s with cbits := t.cbits, busData := none } ∧
      (∀ k, k < 32 → t.cbits.get (cbitsCell sym (32 * (w - 1) + k)) = some (v.getLsbD (31 - k))) ∧
      (∀ c, (c < cbitsCell sym (32 * (w - 1)) ∨ cbitsCell sym (32 * w) ≤ c) → t.cbits.get c = s.cbits.get c) ∧
      t.hostReads (0x04000 + 64 * sym.toNat + 4 * w) = .next { t with busData := some v })

/-- R67, R69: the IN and OUT windows are little-endian: byte 4q + k is bits 8k + 7 : 8k; a write stores the four bytes,
a read assembles them; the other bytes are unchanged. -/
def Obligations.ByteWindowsAreLittleEndian : Prop :=
  ∀ (s : State) (q : Nat) (v : Word), s.status.busy = false → s.params.wf = true →
    (∀ u : Word, q < s.params.inDepth / 4 →
      (∀ k, k < 4 → s.inp.get (4 * q + k) = some (u.extractLsb' (8 * k) 8)) →
      s.hostReads (0x08000 + 4 * q) = .next { s with busData := some u }) ∧
    (∀ u : Word, q < s.params.outDepth / 4 →
      (∀ k, k < 4 → s.out.get (4 * q + k) = some (u.extractLsb' (8 * k) 8)) →
      s.hostReads (0x18000 + 4 * q) = .next { s with busData := some u }) ∧
    (q < s.params.inDepth / 4 → ∃ t, s.hostWrites (0x08000 + 4 * q) v = .next t ∧
      t = { s with inp := t.inp, busData := none } ∧
      (∀ k, k < 4 → t.inp.get (4 * q + k) = some (v.extractLsb' (8 * k) 8)) ∧
      (∀ c, (c < 4 * q ∨ 4 * q + 4 ≤ c) → t.inp.get c = s.inp.get c) ∧
      t.hostReads (0x08000 + 4 * q) = .next { t with busData := some v }) ∧
    (q < s.params.outDepth / 4 → ∃ t, s.hostWrites (0x18000 + 4 * q) v = .next t ∧
      t = { s with out := t.out, busData := none } ∧
      (∀ k, k < 4 → t.out.get (4 * q + k) = some (v.extractLsb' (8 * k) 8)) ∧
      (∀ c, (c < 4 * q ∨ 4 * q + 4 ≤ c) → t.out.get c = s.out.get c) ∧
      t.hostReads (0x18000 + 4 * q) = .next { t with busData := some v })

/-- R68: the BIT window is most-significant-bit first: cell 32q + k is word bit 31 − k; a write stores the 32 cells, a
read assembles them; the other cells are unchanged. -/
def Obligations.BitWindowIsMostSignificantBitFirst : Prop :=
  ∀ (s : State) (q : Nat) (v : Word), s.status.busy = false → s.params.wf = true → q < s.params.bitDepth / 32 →
    (∀ u : Word, (∀ k, k < 32 → s.bit.get (32 * q + k) = some (u.getLsbD (31 - k))) →
      s.hostReads (0x10000 + 4 * q) = .next { s with busData := some u }) ∧
    ∃ t, s.hostWrites (0x10000 + 4 * q) v = .next t ∧
      t = { s with bit := t.bit, busData := none } ∧
      (∀ k, k < 32 → t.bit.get (32 * q + k) = some (v.getLsbD (31 - k))) ∧
      (∀ c, (c < 32 * q ∨ 32 * q + 32 ≤ c) → t.bit.get c = s.bit.get c) ∧
      t.hostReads (0x10000 + 4 * q) = .next { t with busData := some v }

/-- R220: while BUSY = 1, a write to CMD, NODE_COUNT, ROOT, IN_LEN, BIT_LEN or a mapped window word is dropped: it sets
OVR and changes nothing else. -/
def Obligations.WritesWhileBusyAreDropped : Prop :=
  ∀ (s : State) (offset : Nat) (v : Word), s.status.busy = true → s.params.wf = true →
    (offset ∈ [0x008, 0x014, 0x018, 0x01C, 0x020] ∨ mappedWord s.params offset) →
    s.hostWrites offset v = .next { s with status := { s.status with ovr := true }, busData := none }

/-- R221, R222: while BUSY = 1, a read of BIT_LEN, OUT_LEN or a mapped window word returns a freshly drawn value (log 8)
and changes no state; that a mapped word with a never-written cell is no exception, where U2 says a fault and U1 any value,
is the model's choice (log 18). In a state that meets the invariant ERR_INFO reads 0, and STATUS reads BUSY = 1, DONE = 0,
ERR = 0 and ESTAGE = 0, with LASTOP the running opcode and OVR as it stands. -/
def Obligations.ReadsWhileBusy : Prop :=
  ∀ s : State, s.status.busy = true → s.Inv →
    (∀ offset, (offset ∈ [0x020, 0x024] ∨ mappedWord s.params offset) →
      s.hostReads offset = .next { s with busData := some (Config.freeWord s.draws), draws := s.draws + 1 }) ∧
    s.hostReads 0x010 = .next { s with busData := some 0#32 } ∧
    s.hostReads 0x00C = .next { s with
      busData := some (s.status.lastop.setWidth 32 <<< 16 ||| (if s.status.ovr then 0b101#32 else 0b001#32)) }

/-- R43, R191, R192: irq is IRQ_EN AND DONE; it rises with every completion while IRQ_EN = 1, follows IRQ_EN while
DONE = 1, and falls with the W1C of DONE and with the acceptance of a legal command. -/
def Obligations.InterruptIsLevelOfDone : Prop :=
  (∀ s : State, s.irq = (s.irqEn && s.status.done)) ∧
  (∀ (i : Instr) (s t : State), exec i s = .next t → t.irq = s.irqEn) ∧
  (∀ (s t : State) (v : Word), s.status.done = true → v.getLsbD 0 = false → s.hostWrites 0x004 v = .next t →
    t.irq = v.getLsbD 1) ∧
  (∀ (s t : State) (v : Word), v.getLsbD 1 = true → s.hostWrites 0x00C v = .next t →
    t.irq = false ∧ t.status.err = s.status.err ∧ t.status.estage = s.status.estage ∧
    t.status.lastop = s.status.lastop ∧ t.errInfo = s.errInfo) ∧
  (∀ (s t : State) (v : Word), s.status.busy = false → v.toNat ≤ 5 → s.hostWrites 0x008 v = .next t → t.irq = false)

/-- D35, U2 (log 4): a read of a never-written cell stops the model with a fault that names the memory and the first such
cell: a host read, while BUSY = 0, of a TREE word, or of a CODE-bit, IN, BIT or OUT word with any of its cells unwritten;
BUILD_CODES at any node its traversal comes to; ENCODE at any symbol and at any code bit; PACK at any stream bit; RUN where
BUILD_CODES stops, and where ENCODE stops after it. -/
def Obligations.UnwrittenReadsFault : Prop :=
  (∀ (s : State) (h : Nat), s.status.busy = false → h < 512 → s.tree.get h = none →
    s.hostReads (0x01000 + 4 * h) = .fault (.unwrittenRead .tree h)) ∧
  (∀ (s : State) (sym : Byte) (w : Nat), s.status.busy = false → 1 ≤ w → w ≤ 8 →
    s.cbits.Hole (cbitsCell sym (32 * (w - 1))) 32 →
    ∃ c, s.cbits.FirstHole (cbitsCell sym (32 * (w - 1))) 32 c ∧
      s.hostReads (0x04000 + 64 * sym.toNat + 4 * w) = .fault (.unwrittenRead .cbits c)) ∧
  (∀ (s : State) (q : Nat), s.status.busy = false → s.params.wf = true → q < s.params.inDepth / 4 →
    s.inp.Hole (4 * q) 4 →
    ∃ c, s.inp.FirstHole (4 * q) 4 c ∧ s.hostReads (0x08000 + 4 * q) = .fault (.unwrittenRead .inp c)) ∧
  (∀ (s : State) (q : Nat), s.status.busy = false → s.params.wf = true → q < s.params.bitDepth / 32 →
    s.bit.Hole (32 * q) 32 →
    ∃ c, s.bit.FirstHole (32 * q) 32 c ∧ s.hostReads (0x10000 + 4 * q) = .fault (.unwrittenRead .bit c)) ∧
  (∀ (s : State) (q : Nat), s.status.busy = false → s.params.wf = true → q < s.params.outDepth / 4 →
    s.out.Hole (4 * q) 4 →
    ∃ c, s.out.FirstHole (4 * q) 4 c ∧ s.hostReads (0x18000 + 4 * q) = .fault (.unwrittenRead .out c)) ∧
  (∀ (s : State) (g depth count : Nat) (syms : List Byte), s.nodeCount.toNat ≤ 512 →
    s.root.toNat < s.nodeCount.toNat → s.MeetsUnwritten g s.root.toNat depth count syms →
    depth ≤ 255 → count < s.nodeCount.toNat → syms.Nodup →
    exec .buildCodes s = .fault (.unwrittenRead .tree g)) ∧
  (∀ (s : State) (pre : List Byte) (code : Byte → List Bool),
    pre.length < s.inLen.toNat → s.inLen.toNat ≤ s.params.inDepth →
    (∀ i, i < pre.length → s.inp.get i = pre[i]?) → (∀ y, y ∈ pre → s.CodeIs y (code y) ∧ code y ≠ []) →
    (pre.flatMap code).length ≤ s.params.bitDepth →
    (s.inp.get pre.length = none → exec .encode s = .fault (.unwrittenRead .inp pre.length)) ∧
    (∀ x, s.inp.get pre.length = some x → s.lenOf x ≠ 0#8 →
      (pre.flatMap code).length + (s.lenOf x).toNat ≤ s.params.bitDepth →
      s.cbits.Hole (cbitsCell x 0) (s.lenOf x).toNat →
      ∃ c, s.cbits.FirstHole (cbitsCell x 0) (s.lenOf x).toNat c ∧
        exec .encode s = .fault (.unwrittenRead .cbits c))) ∧
  (∀ s : State, s.bitLen.toNat ≤ s.params.bitDepth → s.bit.Hole 0 s.bitLen.toNat →
    ∃ c, s.bit.FirstHole 0 s.bitLen.toNat c ∧ exec .pack s = .fault (.unwrittenRead .bit c)) ∧
  (∀ (s : State) (r : Fault), exec .buildCodes s = .fault r → exec .run s = .fault r) ∧
  (∀ (s t : State) (r : Fault), exec .buildCodes s = .next t → t.status.err = .none → exec .encode t = .fault r →
    exec .run s = .fault r)

/-! ## Reset -/

/-- R210, U16: the state after power-on reset, of every instance: registers, memories, engine and irq. The power-on event
leaves it from every state, busy or not; that it is an event at the port, and keeps the parameters and the model's own port
and draw counter, is the model's reading (log 11). -/
def Obligations.PowerOnResetState : Prop :=
  (∀ p : Config.Params, ∀ s, s = State.resetOf p →
    s.params = p ∧ s.irqEn = false ∧ s.status.word = 0#32 ∧ s.status.busy = false ∧ s.errInfo = 0#32 ∧
    s.nodeCount = 0#32 ∧ s.root = 0#32 ∧ s.inLen = 0#32 ∧ s.bitLen = 0#32 ∧ s.outLen = 0#32 ∧
    (∀ sym, s.lenOf sym = 0#8) ∧ (∀ h, s.tree.get h = none) ∧ (∀ c, s.cbits.get c = none) ∧
    (∀ c, s.inp.get c = none) ∧ (∀ c, s.bit.get c = none) ∧ (∀ c, s.out.get c = none) ∧ s.irq = false) ∧
  (∀ s : State, s.portEvent .powerOn = .next s.powerOn ∧
    s.powerOn = { State.resetOf s.params with port := s.port, draws := s.draws })

/-- R212, R22: a CTRL write with bit 0 = 1, whether BUSY is 0 or 1, sets every register to its reset value and every LEN
to 0, leaves the engine IDLE, discards the rest of the written value, and keeps TREE and IN; where no command was running it
keeps CBITS, BIT and OUT too. -/
def Obligations.SoftResetResetsRegistersAndLens : Prop :=
  ∀ (s : State) (v : Word), v.getLsbD 0 = true →
    ∃ t, s.hostWrites 0x004 v = .next t ∧
      t.irqEn = false ∧ t.status = .reset ∧ t.status.word = 0#32 ∧ t.errInfo = 0#32 ∧ t.nodeCount = 0#32 ∧
      t.root = 0#32 ∧ t.inLen = 0#32 ∧ t.bitLen = 0#32 ∧ t.outLen = 0#32 ∧ (∀ sym, t.lenOf sym = 0#8) ∧
      t.eng = .idle ∧ t.irq = false ∧ t.tree = s.tree ∧ t.inp = s.inp ∧ t.params = s.params ∧ t.port = s.port ∧
      (s.status.busy = false → t.cbits = s.cbits ∧ t.bit = s.bit ∧ t.out = s.out)

/-- R213 with R71: a soft reset while a command runs leaves exactly the memories that command could write never-written:
CBITS after BUILD_CODES, BIT after ENCODE, OUT after PACK, all three after RUN. That their cells become never-written is U3,
read as every cell (log 16); that the others are kept, all three after NOP and CLEAR_CODES, is the model's reading of R71
(log 15). -/
def Obligations.AbortForgetsWhatTheCommandCouldWrite : Prop :=
  ∀ (s t : State) (v : Word) (i : Instr), s.status.busy = true → s.running = .ok i → v.getLsbD 0 = true →
    s.hostWrites 0x004 v = .next t →
    t.tree = s.tree ∧ t.inp = s.inp ∧ t.status.done = false ∧ t.status.err = .none ∧ t.irq = false ∧
    (i = .buildCodes ∨ i = .run → ∀ c, t.cbits.get c = none) ∧
    (i = .encode ∨ i = .run → ∀ c, t.bit.get c = none) ∧
    (i = .pack ∨ i = .run → ∀ c, t.out.get c = none) ∧
    (i ≠ .buildCodes → i ≠ .run → t.cbits = s.cbits) ∧
    (i ≠ .encode → i ≠ .run → t.bit = s.bit) ∧
    (i ≠ .pack → i ≠ .run → t.out = s.out)

/-! ## Whole-machine rules -/

/-- The invariant holds at power-on of every legal instance. -/
def Obligations.ResetSatisfiesTheInvariant : Prop :=
  ∀ p : Config.Params, p.wf = true → (State.resetOf p).Inv

/-- Every step keeps the invariant: the memories canonical and within their sizes, the parameters legal, the internal
registers without a value between commands, STATUS and ERR_INFO as R222, R25, R181 and R182 relate them, ERR 3 never
produced, OUT_LEN within OUT. And no step changes the parameters (R6, R20). -/
def Obligations.EveryStepKeepsTheInvariant : Prop :=
  ∀ s t : State, s.Inv → step s = .next t → t.Inv ∧ t.params = s.params

/-- R24, R34: no event at the port takes BUSY from 1 to 0 but a CTRL write with bit 0 = 1 and power-on; the engine's run of
its command is the only other way (R184, R185). -/
def Obligations.BusyEndsOnlyByCompletionOrReset : Prop :=
  (∀ (s t : State) (e : PortEvent), s.portEvent e = .next t → s.status.busy = true → t.status.busy = false →
    t.status = .reset ∧
    (e = .powerOn ∨ ∃ v, e = .write (s.params.base + 0x004) 4 v ∧ v.getLsbD 0 = true)) ∧
  (∀ (s t : State) (i : Instr), exec i s = .next t → t.status.busy = false)

/-- R34, R224: OVR rises only by a 32-bit write that arrives while BUSY = 1, and falls only by a STATUS write with bit
2 = 1, a soft reset or power-on; no command changes it. So OVR = 0 at the end of a program that clears it nowhere means
that no write was lost. -/
def Obligations.OvrRecordsDroppedWrites : Prop :=
  (∀ (s t : State) (e : PortEvent), s.portEvent e = .next t →
    (s.status.ovr = false → t.status.ovr = true → s.status.busy = true ∧ ∃ addr v, e = .write addr 4 v) ∧
    (s.status.ovr = true → t.status.ovr = false →
      e = .powerOn ∨
      (∃ v, e = .write (s.params.base + 0x00C) 4 v ∧ v.getLsbD 2 = true) ∨
      (∃ v, e = .write (s.params.base + 0x004) 4 v ∧ v.getLsbD 0 = true))) ∧
  (∀ (s t : State) (i : Instr), exec i s = .next t → t.status.ovr = s.status.ovr)
end

