-- ==== Sys2Proof/Laws/Memory.lean ====
section
/-! SUPPORT. The laws of the memory operations: read after write, the other cells, and the canonical form kept. -/
namespace Sys2Proof.Machine

variable {α : Type}

@[simp] theorem Memory.get_nil (k : Nat) : Memory.get ([] : Memory α) k = none := rfl

theorem Memory.get_cons (c : Nat × α) (m : Memory α) (k : Nat) :
    Memory.get (c :: m) k = if k = c.1 then some c.2 else m.get k := rfl

theorem Memory.get_append (a b : Memory α) (k : Nat) :
    Memory.get (a ++ b) k = (Memory.get a k).or (Memory.get b k) := by
  induction a with
  | nil => rfl
  | cons c a ih =>
    rw [List.cons_append, Memory.get_cons, Memory.get_cons]
    split
    · rfl
    · exact ih

/-- Keeping the cells whose index passes a test. -/
theorem Memory.get_filter (p : Nat → Bool) (m : Memory α) (k : Nat) :
    Memory.get (m.filter fun c => p c.1) k = if p k then m.get k else none := by
  induction m with
  | nil => simp
  | cons c m ih =>
    by_cases hc : p c.1 = true
    · rw [List.filter_cons_of_pos (by simpa using hc), Memory.get_cons, Memory.get_cons, ih]
      by_cases hk : k = c.1
      · simp [hk, hc]
      · simp [hk]
    · rw [List.filter_cons_of_neg (by simpa using hc), ih, Memory.get_cons]
      by_cases hk : k = c.1
      · simp [hk, hc]
      · simp [hk]

theorem Memory.get_cells (vals : List α) (base k : Nat) :
    Memory.get (Memory.cells base vals) k = if base ≤ k then vals[k - base]? else none := by
  induction vals generalizing base with
  | nil => simp [Memory.cells]
  | cons v vs ih =>
    rw [Memory.cells, Memory.get_cons, ih]
    by_cases h : k = base
    · subst h
      simp
    · by_cases h' : base ≤ k
      · have e : k - base = (k - (base + 1)) + 1 := by omega
        have hlt : base + 1 ≤ k := by omega
        simp [h, h', hlt, e]
      · have hlt : ¬ base + 1 ≤ k := by omega
        simp [h, h', hlt]

/-- What a run of cells reads as after it is written: the new values inside it, the old ones outside. -/
theorem Memory.get_setRun (m : Memory α) (base : Nat) (vals : List α) (k : Nat) :
    (m.setRun base vals).get k =
      if base ≤ k ∧ k < base + vals.length then vals[k - base]? else m.get k := by
  unfold Memory.setRun
  rw [Memory.get_append, Memory.get_append, Memory.get_cells,
    Memory.get_filter (fun i => decide (i < base)), Memory.get_filter (fun i => decide (base + vals.length ≤ i))]
  by_cases h1 : k < base
  · have h2 : ¬ base ≤ k := by omega
    have h3 : ¬ base + vals.length ≤ k := by omega
    simp [h1, h2, h3]
  · by_cases h3 : base + vals.length ≤ k
    · have hnone : vals[k - base]? = none := List.getElem?_eq_none (by omega)
      have h2 : base ≤ k := by omega
      have h4 : ¬ k < base + vals.length := by omega
      simp [h1, h2, h3, h4, hnone]
    · have h2 : base ≤ k := by omega
      have h4 : k < base + vals.length := by omega
      simp [h1, h2, h3, h4]

/-- Reading inside a run just written. -/
theorem Memory.get_setRun_inside (m : Memory α) (base : Nat) (vals : List α) (j : Nat) (h : j < vals.length) :
    (m.setRun base vals).get (base + j) = vals[j]? := by
  have h' : base + j < base + vals.length := by omega
  simp [Memory.get_setRun, h]

/-- Reading outside a run just written. -/
theorem Memory.get_setRun_outside (m : Memory α) (base : Nat) (vals : List α) (k : Nat)
    (h : k < base ∨ base + vals.length ≤ k) : (m.setRun base vals).get k = m.get k := by
  rw [Memory.get_setRun, if_neg (by omega)]

@[simp] theorem Memory.get_set (m : Memory α) (k : Nat) (v : α) (k' : Nat) :
    (m.set k v).get k' = if k' = k then some v else m.get k' := by
  rw [Memory.set, Memory.get_setRun]
  by_cases h : k' = k
  · subst h
    simp
  · rw [if_neg (by simp only [List.length_singleton]; omega), if_neg h]

@[simp] theorem Memory.get_erase (m : Memory α) (k k' : Nat) :
    (m.erase k).get k' = if k' = k then none else m.get k' := by
  rw [Memory.erase, Memory.get_filter (fun i => decide (i ≠ k))]
  by_cases h : k' = k <;> simp [h]

/-! ## The canonical form -/

@[simp] theorem Memory.wf_nil : Memory.wf ([] : Memory α) := List.Pairwise.nil

@[simp] theorem Memory.below_nil (n : Nat) : Memory.below ([] : Memory α) n := fun _ h => absurd h List.not_mem_nil

theorem Memory.wf_filter (m : Memory α) (p : Nat × α → Bool) (h : m.wf) : Memory.wf (m.filter p) :=
  List.Pairwise.sublist ((List.filter_sublist (l := m)).map Prod.fst) h

theorem Memory.mem_cells {vals : List α} {base : Nat} {c : Nat × α} (h : c ∈ Memory.cells base vals) :
    base ≤ c.1 ∧ c.1 < base + vals.length ∧ c.2 ∈ vals := by
  induction vals generalizing base with
  | nil => exact absurd h List.not_mem_nil
  | cons v vs ih =>
    rcases List.mem_cons.1 h with rfl | h
    · simp
    · obtain ⟨h1, h2, h3⟩ := ih h
      exact ⟨by omega, by simp only [List.length_cons]; omega, List.mem_cons_of_mem _ h3⟩

theorem Memory.wf_cells (vals : List α) (base : Nat) : Memory.wf (Memory.cells base vals) := by
  induction vals generalizing base with
  | nil => exact List.Pairwise.nil
  | cons v vs ih =>
    refine List.pairwise_cons.2 ⟨fun k hk => ?_, ih (base + 1)⟩
    obtain ⟨c, hc, rfl⟩ := List.mem_map.1 hk
    have := (Memory.mem_cells hc).1
    omega

/-- Writing a run keeps the canonical form. -/
theorem Memory.wf_setRun (m : Memory α) (base : Nat) (vals : List α) (h : m.wf) : (m.setRun base vals).wf := by
  have hsplit : ∀ a b : Memory α, Memory.wf a → Memory.wf b →
      (∀ x ∈ a, ∀ y ∈ b, x.1 < y.1) → Memory.wf (a ++ b) := by
    intro a b ha hb hab
    show ((a ++ b).map Prod.fst).Pairwise (· < ·)
    rw [List.map_append]
    refine List.pairwise_append.2 ⟨ha, hb, fun x hx y hy => ?_⟩
    obtain ⟨p, hp, rfl⟩ := List.mem_map.1 hx
    obtain ⟨q, hq, rfl⟩ := List.mem_map.1 hy
    exact hab p hp q hq
  refine hsplit _ _ (Memory.wf_filter _ _ h) (hsplit _ _ (Memory.wf_cells _ _) (Memory.wf_filter _ _ h) ?_) ?_
  · intro x hx y hy
    have hx' := (Memory.mem_cells hx).2.1
    have hy' : base + vals.length ≤ y.1 := by simpa using (List.mem_filter.1 hy).2
    omega
  · intro x hx y hy
    have hx' : x.1 < base := by simpa using (List.mem_filter.1 hx).2
    rcases List.mem_append.1 hy with hy | hy
    · have := (Memory.mem_cells hy).1
      omega
    · have hy' : base + vals.length ≤ y.1 := by simpa using (List.mem_filter.1 hy).2
      omega

/-- Writing a run inside the first `n` cells keeps every index below `n`. -/
theorem Memory.below_setRun (m : Memory α) (base : Nat) (vals : List α) (n : Nat)
    (h : m.below n) (hr : base + vals.length ≤ n) : (m.setRun base vals).below n := by
  intro c hc
  rcases List.mem_append.1 hc with hc | hc
  · exact h c (List.mem_filter.1 hc).1
  · rcases List.mem_append.1 hc with hc | hc
    · have := (Memory.mem_cells hc).2.1
      omega
    · exact h c (List.mem_filter.1 hc).1

theorem Memory.wf_set (m : Memory α) (k : Nat) (v : α) (h : m.wf) : (m.set k v).wf :=
  Memory.wf_setRun m k [v] h

theorem Memory.below_set (m : Memory α) (k : Nat) (v : α) (n : Nat) (h : m.below n) (hk : k < n) :
    (m.set k v).below n :=
  Memory.below_setRun m k [v] n h (by simpa using hk)

theorem Memory.wf_erase (m : Memory α) (k : Nat) (h : m.wf) : (m.erase k).wf := Memory.wf_filter _ _ h

theorem Memory.below_erase (m : Memory α) (k n : Nat) (h : m.below n) : (m.erase k).below n :=
  fun c hc => h c (List.mem_filter.1 hc).1

/-- A listed value of a memory after a run is written is a new one or an old one. -/
theorem Memory.mem_setRun {m : Memory α} {base : Nat} {vals : List α} {c : Nat × α}
    (h : c ∈ m.setRun base vals) : c.2 ∈ vals ∨ c ∈ m := by
  rcases List.mem_append.1 h with h | h
  · exact .inr (List.mem_filter.1 h).1
  · rcases List.mem_append.1 h with h | h
    · exact .inl (Memory.mem_cells h).2.2
    · exact .inr (List.mem_filter.1 h).1

/-- The memories at reset have the canonical form. -/
theorem reset_memories_wf (p : Config.Params) :
    (State.resetOf p).tree.wf ∧ (State.resetOf p).lens.wf ∧ (State.resetOf p).cbits.wf ∧ (State.resetOf p).inp.wf ∧
      (State.resetOf p).bit.wf ∧ (State.resetOf p).out.wf :=
  ⟨.nil, .nil, .nil, .nil, .nil, .nil⟩

/-- Canonical memories that read alike are equal. -/
theorem Memory.ext_get {a b : Memory α} (ha : a.wf) (hb : b.wf) (h : ∀ k, a.get k = b.get k) : a = b := by
  have hlow : ∀ (x : Nat × α) (m : Memory α), Memory.wf (x :: m) → ∀ k, k ≤ x.1 → m.get k = none := by
    intro x m hm k hk
    induction m with
    | nil => rfl
    | cons y m ih =>
      have hxy : x.1 < y.1 := (List.pairwise_cons.1 hm).1 y.1 (by simp)
      have hm' : Memory.wf (x :: m) := by
        refine List.pairwise_cons.2 ⟨fun z hz => (List.pairwise_cons.1 hm).1 z ?_, ?_⟩
        · exact List.mem_cons_of_mem _ hz
        · exact (List.pairwise_cons.1 (List.pairwise_cons.1 hm).2).2
      rw [Memory.get_cons, if_neg (by omega), ih hm']
  induction a generalizing b with
  | nil =>
    cases b with
    | nil => rfl
    | cons y b =>
      have := h y.1
      simp [Memory.get_cons] at this
  | cons x a ih =>
    cases b with
    | nil =>
      have := h x.1
      simp [Memory.get_cons] at this
    | cons y b =>
      have hx := h x.1
      have hy := h y.1
      rw [Memory.get_cons, Memory.get_cons, if_pos rfl] at hx
      rw [Memory.get_cons, Memory.get_cons, if_pos (rfl : y.1 = y.1)] at hy
      have hkey : x.1 = y.1 := by
        by_contra hne
        rw [if_neg hne] at hx
        rw [if_neg (Ne.symm hne)] at hy
        rcases Nat.lt_or_gt_of_ne hne with hlt | hgt
        · rw [hlow y b hb x.1 hlt.le] at hx
          cases hx
        · rw [hlow x a ha y.1 hgt.le] at hy
          cases hy
      have hval : x.2 = y.2 := by
        rw [if_pos hkey] at hx
        exact Option.some.inj hx
      have hxy : x = y := Prod.ext hkey hval
      subst hxy
      congr 1
      refine ih (List.pairwise_cons.1 ha).2 (List.pairwise_cons.1 hb).2 fun k => ?_
      have hk := h k
      rw [Memory.get_cons, Memory.get_cons] at hk
      by_cases hkx : k = x.1
      · rw [hlow x a ha k hkx.le, hlow x b hb k hkx.le]
      · simpa [hkx] using hk

/-! ## Reading cells -/

theorem readCell_of_get {n : MemName} {m : Memory α} {k : Nat} {v : α} (h : m.get k = some v) :
    readCell n m k = .ok v := by
  simp [readCell, h]

/-- A cell is read exactly when it holds a value. -/
theorem readCell_eq_ok {n : MemName} {m : Memory α} {k : Nat} {v : α} :
    readCell n m k = .ok v ↔ m.get k = some v := by
  unfold readCell
  split <;> simp_all

/-- A run of cells is read exactly when each of them holds its value. -/
theorem readCells_eq_ok {n : MemName} {m : Memory α} {base len : Nat} {vs : List α} :
    readCells n m base len = .ok vs ↔ vs.length = len ∧ ∀ j, j < len → m.get (base + j) = vs[j]? := by
  induction len generalizing base vs with
  | zero =>
    simp only [readCells, Except.ok.injEq, Nat.not_lt_zero, false_implies, implies_true, and_true]
    exact ⟨fun h => h ▸ rfl, fun h => (List.length_eq_zero_iff.1 h).symm⟩
  | succ len ih =>
    rw [readCells]
    constructor
    · intro h
      split at h
      · cases h
      · rename_i v hv
        split at h
        · cases h
        · rename_i vs' hvs
          cases h
          obtain ⟨hl, hg⟩ := ih.1 hvs
          refine ⟨by simp [hl], fun j hj => ?_⟩
          cases j with
          | zero => simpa using readCell_eq_ok.1 hv
          | succ j =>
            have := hg j (by omega)
            rw [show base + (j + 1) = base + 1 + j by omega, this]
            simp
    · rintro ⟨hl, hg⟩
      cases vs with
      | nil => cases hl
      | cons v vs =>
        have h0 : m.get base = some v := by simpa using hg 0 (by omega)
        have hr : readCells n m (base + 1) len = .ok vs := by
          refine ih.2 ⟨by simpa using hl, fun j hj => ?_⟩
          have := hg (j + 1) (by omega)
          rw [show base + 1 + j = base + (j + 1) by omega, this]
          simp
        rw [readCell_of_get h0, hr]

theorem readCell_of_none {n : MemName} {m : Memory α} {k : Nat} (h : m.get k = none) :
    readCell n m k = .error (.unwrittenRead n k) := by
  simp [readCell, h]

/-- A run of cells with a never-written one is not read: the fault names the first. -/
theorem readCells_hole {n : MemName} {m : Memory α} {base len : Nat} (h : m.Hole base len) :
    ∃ c, m.FirstHole base len c ∧ readCells n m base len = .error (.unwrittenRead n c) := by
  induction len generalizing base with
  | zero =>
    obtain ⟨k, hk, -⟩ := h
    exact absurd hk (Nat.not_lt_zero k)
  | succ len ih =>
    cases hb : m.get base with
    | none =>
      refine ⟨base, ⟨le_refl _, by omega, hb, fun j h1 h2 => by omega⟩, ?_⟩
      rw [readCells, readCell_of_none hb]
    | some v =>
      obtain ⟨k, hk, hnone⟩ := h
      have hk0 : k ≠ 0 := by
        rintro rfl
        rw [Nat.add_zero, hb] at hnone
        cases hnone
      obtain ⟨c, ⟨h1, h2, h3, h4⟩, he⟩ := ih (base := base + 1)
        ⟨k - 1, by omega, by rw [show base + 1 + (k - 1) = base + k by omega]; exact hnone⟩
      refine ⟨c, ⟨by omega, by omega, h3, fun j hj hj' => ?_⟩, by rw [readCells, readCell_of_get hb, he]⟩
      by_cases hjb : j = base
      · subst hjb
        rw [hb]
        exact Option.some_ne_none v
      · exact h4 j (by omega) hj'

end Sys2Proof.Machine
end

