-- ==== Sys2Proof/Laws/State.lean ====
section
/-! SUPPORT. One lemma per field per update of the state, each true by unfolding the update once. -/
namespace Sys2Proof.Machine

variable (s : State)

/-! `State.accept` (R183) -/

@[simp] theorem accept_params (v : Word) : (s.accept v).params = s.params := rfl
@[simp] theorem accept_irqEn (v : Word) : (s.accept v).irqEn = s.irqEn := rfl
@[simp] theorem accept_errInfo (v : Word) : (s.accept v).errInfo = 0#32 := rfl
@[simp] theorem accept_nodeCount (v : Word) : (s.accept v).nodeCount = s.nodeCount := rfl
@[simp] theorem accept_root (v : Word) : (s.accept v).root = s.root := rfl
@[simp] theorem accept_inLen (v : Word) : (s.accept v).inLen = s.inLen := rfl
@[simp] theorem accept_bitLen (v : Word) : (s.accept v).bitLen = s.bitLen := rfl
@[simp] theorem accept_outLen (v : Word) : (s.accept v).outLen = s.outLen := rfl
@[simp] theorem accept_tree (v : Word) : (s.accept v).tree = s.tree := rfl
@[simp] theorem accept_lens (v : Word) : (s.accept v).lens = s.lens := rfl
@[simp] theorem accept_cbits (v : Word) : (s.accept v).cbits = s.cbits := rfl
@[simp] theorem accept_inp (v : Word) : (s.accept v).inp = s.inp := rfl
@[simp] theorem accept_bit (v : Word) : (s.accept v).bit = s.bit := rfl
@[simp] theorem accept_out (v : Word) : (s.accept v).out = s.out := rfl
@[simp] theorem accept_eng (v : Word) : (s.accept v).eng = s.eng := rfl
@[simp] theorem accept_port (v : Word) : (s.accept v).port = s.port := rfl
@[simp] theorem accept_busData (v : Word) : (s.accept v).busData = s.busData := rfl
@[simp] theorem accept_draws (v : Word) : (s.accept v).draws = s.draws := rfl
@[simp] theorem accept_busy (v : Word) : (s.accept v).status.busy = true := rfl
@[simp] theorem accept_done (v : Word) : (s.accept v).status.done = false := rfl
@[simp] theorem accept_ovr (v : Word) : (s.accept v).status.ovr = s.status.ovr := rfl
@[simp] theorem accept_err (v : Word) : (s.accept v).status.err = .none := rfl
@[simp] theorem accept_estage (v : Word) : (s.accept v).status.estage = .none := rfl
@[simp] theorem accept_lastop (v : Word) : (s.accept v).status.lastop = cmdOp v := rfl

/-! `State.illegalCommand` (R187) -/

@[simp] theorem illegalCommand_params (v : Word) : (s.illegalCommand v).params = s.params := rfl
@[simp] theorem illegalCommand_irqEn (v : Word) : (s.illegalCommand v).irqEn = s.irqEn := rfl
@[simp] theorem illegalCommand_errInfo (v : Word) : (s.illegalCommand v).errInfo = v := rfl
@[simp] theorem illegalCommand_nodeCount (v : Word) : (s.illegalCommand v).nodeCount = s.nodeCount := rfl
@[simp] theorem illegalCommand_root (v : Word) : (s.illegalCommand v).root = s.root := rfl
@[simp] theorem illegalCommand_inLen (v : Word) : (s.illegalCommand v).inLen = s.inLen := rfl
@[simp] theorem illegalCommand_bitLen (v : Word) : (s.illegalCommand v).bitLen = s.bitLen := rfl
@[simp] theorem illegalCommand_outLen (v : Word) : (s.illegalCommand v).outLen = s.outLen := rfl
@[simp] theorem illegalCommand_tree (v : Word) : (s.illegalCommand v).tree = s.tree := rfl
@[simp] theorem illegalCommand_lens (v : Word) : (s.illegalCommand v).lens = s.lens := rfl
@[simp] theorem illegalCommand_cbits (v : Word) : (s.illegalCommand v).cbits = s.cbits := rfl
@[simp] theorem illegalCommand_inp (v : Word) : (s.illegalCommand v).inp = s.inp := rfl
@[simp] theorem illegalCommand_bit (v : Word) : (s.illegalCommand v).bit = s.bit := rfl
@[simp] theorem illegalCommand_out (v : Word) : (s.illegalCommand v).out = s.out := rfl
@[simp] theorem illegalCommand_eng (v : Word) : (s.illegalCommand v).eng = s.eng := rfl
@[simp] theorem illegalCommand_port (v : Word) : (s.illegalCommand v).port = s.port := rfl
@[simp] theorem illegalCommand_busData (v : Word) : (s.illegalCommand v).busData = s.busData := rfl
@[simp] theorem illegalCommand_draws (v : Word) : (s.illegalCommand v).draws = s.draws := rfl
@[simp] theorem illegalCommand_busy (v : Word) : (s.illegalCommand v).status.busy = s.status.busy := rfl
@[simp] theorem illegalCommand_done (v : Word) : (s.illegalCommand v).status.done = true := rfl
@[simp] theorem illegalCommand_ovr (v : Word) : (s.illegalCommand v).status.ovr = s.status.ovr := rfl
@[simp] theorem illegalCommand_err (v : Word) : (s.illegalCommand v).status.err = .illegalCmd := rfl
@[simp] theorem illegalCommand_estage (v : Word) : (s.illegalCommand v).status.estage = .none := rfl
@[simp] theorem illegalCommand_lastop (v : Word) : (s.illegalCommand v).status.lastop = cmdOp v := rfl

/-! `State.completeOk` (R185) -/

@[simp] theorem completeOk_params : (s.completeOk).params = s.params := rfl
@[simp] theorem completeOk_irqEn : (s.completeOk).irqEn = s.irqEn := rfl
@[simp] theorem completeOk_errInfo : (s.completeOk).errInfo = s.errInfo := rfl
@[simp] theorem completeOk_nodeCount : (s.completeOk).nodeCount = s.nodeCount := rfl
@[simp] theorem completeOk_root : (s.completeOk).root = s.root := rfl
@[simp] theorem completeOk_inLen : (s.completeOk).inLen = s.inLen := rfl
@[simp] theorem completeOk_bitLen : (s.completeOk).bitLen = s.bitLen := rfl
@[simp] theorem completeOk_outLen : (s.completeOk).outLen = s.outLen := rfl
@[simp] theorem completeOk_tree : (s.completeOk).tree = s.tree := rfl
@[simp] theorem completeOk_lens : (s.completeOk).lens = s.lens := rfl
@[simp] theorem completeOk_cbits : (s.completeOk).cbits = s.cbits := rfl
@[simp] theorem completeOk_inp : (s.completeOk).inp = s.inp := rfl
@[simp] theorem completeOk_bit : (s.completeOk).bit = s.bit := rfl
@[simp] theorem completeOk_out : (s.completeOk).out = s.out := rfl
@[simp] theorem completeOk_eng : (s.completeOk).eng = .idle := rfl
@[simp] theorem completeOk_port : (s.completeOk).port = s.port := rfl
@[simp] theorem completeOk_busData : (s.completeOk).busData = s.busData := rfl
@[simp] theorem completeOk_draws : (s.completeOk).draws = s.draws := rfl
@[simp] theorem completeOk_busy : (s.completeOk).status.busy = false := rfl
@[simp] theorem completeOk_done : (s.completeOk).status.done = true := rfl
@[simp] theorem completeOk_ovr : (s.completeOk).status.ovr = s.status.ovr := rfl
@[simp] theorem completeOk_err : (s.completeOk).status.err = .none := rfl
@[simp] theorem completeOk_estage : (s.completeOk).status.estage = .none := rfl
@[simp] theorem completeOk_lastop : (s.completeOk).status.lastop = s.status.lastop := rfl

/-! `State.completeError` (R184) -/

@[simp] theorem completeError_params (e : ErrCode) (info : Word) : (s.completeError e info).params = s.params := rfl
@[simp] theorem completeError_irqEn (e : ErrCode) (info : Word) : (s.completeError e info).irqEn = s.irqEn := rfl
@[simp] theorem completeError_errInfo (e : ErrCode) (info : Word) : (s.completeError e info).errInfo = info := rfl
@[simp] theorem completeError_nodeCount (e : ErrCode) (info : Word) : (s.completeError e info).nodeCount = s.nodeCount := rfl
@[simp] theorem completeError_root (e : ErrCode) (info : Word) : (s.completeError e info).root = s.root := rfl
@[simp] theorem completeError_inLen (e : ErrCode) (info : Word) : (s.completeError e info).inLen = s.inLen := rfl
@[simp] theorem completeError_bitLen (e : ErrCode) (info : Word) : (s.completeError e info).bitLen = s.bitLen := rfl
@[simp] theorem completeError_outLen (e : ErrCode) (info : Word) : (s.completeError e info).outLen = s.outLen := rfl
@[simp] theorem completeError_tree (e : ErrCode) (info : Word) : (s.completeError e info).tree = s.tree := rfl
@[simp] theorem completeError_lens (e : ErrCode) (info : Word) : (s.completeError e info).lens = s.lens := rfl
@[simp] theorem completeError_cbits (e : ErrCode) (info : Word) : (s.completeError e info).cbits = s.cbits := rfl
@[simp] theorem completeError_inp (e : ErrCode) (info : Word) : (s.completeError e info).inp = s.inp := rfl
@[simp] theorem completeError_bit (e : ErrCode) (info : Word) : (s.completeError e info).bit = s.bit := rfl
@[simp] theorem completeError_out (e : ErrCode) (info : Word) : (s.completeError e info).out = s.out := rfl
@[simp] theorem completeError_eng (e : ErrCode) (info : Word) : (s.completeError e info).eng = .idle := rfl
@[simp] theorem completeError_port (e : ErrCode) (info : Word) : (s.completeError e info).port = s.port := rfl
@[simp] theorem completeError_busData (e : ErrCode) (info : Word) : (s.completeError e info).busData = s.busData := rfl
@[simp] theorem completeError_draws (e : ErrCode) (info : Word) : (s.completeError e info).draws = s.draws := rfl
@[simp] theorem completeError_busy (e : ErrCode) (info : Word) : (s.completeError e info).status.busy = false := rfl
@[simp] theorem completeError_done (e : ErrCode) (info : Word) : (s.completeError e info).status.done = true := rfl
@[simp] theorem completeError_ovr (e : ErrCode) (info : Word) : (s.completeError e info).status.ovr = s.status.ovr := rfl
@[simp] theorem completeError_err (e : ErrCode) (info : Word) : (s.completeError e info).status.err = e := rfl
@[simp] theorem completeError_estage (e : ErrCode) (info : Word) : (s.completeError e info).status.estage = s.eng.stage := rfl
@[simp] theorem completeError_lastop (e : ErrCode) (info : Word) : (s.completeError e info).status.lastop = s.status.lastop := rfl

/-! `State.enterStage` (R171) -/

@[simp] theorem enterStage_params (st : Stage) : (s.enterStage st).params = s.params := rfl
@[simp] theorem enterStage_irqEn (st : Stage) : (s.enterStage st).irqEn = s.irqEn := rfl
@[simp] theorem enterStage_status (st : Stage) : (s.enterStage st).status = s.status := rfl
@[simp] theorem enterStage_errInfo (st : Stage) : (s.enterStage st).errInfo = s.errInfo := rfl
@[simp] theorem enterStage_nodeCount (st : Stage) : (s.enterStage st).nodeCount = s.nodeCount := rfl
@[simp] theorem enterStage_root (st : Stage) : (s.enterStage st).root = s.root := rfl
@[simp] theorem enterStage_inLen (st : Stage) : (s.enterStage st).inLen = s.inLen := rfl
@[simp] theorem enterStage_bitLen (st : Stage) : (s.enterStage st).bitLen = s.bitLen := rfl
@[simp] theorem enterStage_outLen (st : Stage) : (s.enterStage st).outLen = s.outLen := rfl
@[simp] theorem enterStage_tree (st : Stage) : (s.enterStage st).tree = s.tree := rfl
@[simp] theorem enterStage_lens (st : Stage) : (s.enterStage st).lens = s.lens := rfl
@[simp] theorem enterStage_cbits (st : Stage) : (s.enterStage st).cbits = s.cbits := rfl
@[simp] theorem enterStage_inp (st : Stage) : (s.enterStage st).inp = s.inp := rfl
@[simp] theorem enterStage_bit (st : Stage) : (s.enterStage st).bit = s.bit := rfl
@[simp] theorem enterStage_out (st : Stage) : (s.enterStage st).out = s.out := rfl
@[simp] theorem enterStage_eng (st : Stage) : (s.enterStage st).eng = { EngineRegs.idle with stage := st } := rfl
@[simp] theorem enterStage_port (st : Stage) : (s.enterStage st).port = s.port := rfl
@[simp] theorem enterStage_busData (st : Stage) : (s.enterStage st).busData = s.busData := rfl
@[simp] theorem enterStage_draws (st : Stage) : (s.enterStage st).draws = s.draws := rfl

/-! `State.clearLens` (R112) -/

@[simp] theorem clearLens_params : (s.clearLens).params = s.params := rfl
@[simp] theorem clearLens_irqEn : (s.clearLens).irqEn = s.irqEn := rfl
@[simp] theorem clearLens_status : (s.clearLens).status = s.status := rfl
@[simp] theorem clearLens_errInfo : (s.clearLens).errInfo = s.errInfo := rfl
@[simp] theorem clearLens_nodeCount : (s.clearLens).nodeCount = s.nodeCount := rfl
@[simp] theorem clearLens_root : (s.clearLens).root = s.root := rfl
@[simp] theorem clearLens_inLen : (s.clearLens).inLen = s.inLen := rfl
@[simp] theorem clearLens_bitLen : (s.clearLens).bitLen = s.bitLen := rfl
@[simp] theorem clearLens_outLen : (s.clearLens).outLen = s.outLen := rfl
@[simp] theorem clearLens_tree : (s.clearLens).tree = s.tree := rfl
@[simp] theorem clearLens_lens : (s.clearLens).lens = [] := rfl
@[simp] theorem clearLens_cbits : (s.clearLens).cbits = s.cbits := rfl
@[simp] theorem clearLens_inp : (s.clearLens).inp = s.inp := rfl
@[simp] theorem clearLens_bit : (s.clearLens).bit = s.bit := rfl
@[simp] theorem clearLens_out : (s.clearLens).out = s.out := rfl
@[simp] theorem clearLens_eng : (s.clearLens).eng = s.eng := rfl
@[simp] theorem clearLens_port : (s.clearLens).port = s.port := rfl
@[simp] theorem clearLens_busData : (s.clearLens).busData = s.busData := rfl
@[simp] theorem clearLens_draws : (s.clearLens).draws = s.draws := rfl

/-! `State.setLen` (R66) -/

@[simp] theorem setLen_params (sym v : Byte) : (s.setLen sym v).params = s.params := rfl
@[simp] theorem setLen_irqEn (sym v : Byte) : (s.setLen sym v).irqEn = s.irqEn := rfl
@[simp] theorem setLen_status (sym v : Byte) : (s.setLen sym v).status = s.status := rfl
@[simp] theorem setLen_errInfo (sym v : Byte) : (s.setLen sym v).errInfo = s.errInfo := rfl
@[simp] theorem setLen_nodeCount (sym v : Byte) : (s.setLen sym v).nodeCount = s.nodeCount := rfl
@[simp] theorem setLen_root (sym v : Byte) : (s.setLen sym v).root = s.root := rfl
@[simp] theorem setLen_inLen (sym v : Byte) : (s.setLen sym v).inLen = s.inLen := rfl
@[simp] theorem setLen_bitLen (sym v : Byte) : (s.setLen sym v).bitLen = s.bitLen := rfl
@[simp] theorem setLen_outLen (sym v : Byte) : (s.setLen sym v).outLen = s.outLen := rfl
@[simp] theorem setLen_tree (sym v : Byte) : (s.setLen sym v).tree = s.tree := rfl
@[simp] theorem setLen_lens (sym v : Byte) : (s.setLen sym v).lens = if v = 0#8 then s.lens.erase sym.toNat else s.lens.set sym.toNat v := rfl
@[simp] theorem setLen_cbits (sym v : Byte) : (s.setLen sym v).cbits = s.cbits := rfl
@[simp] theorem setLen_inp (sym v : Byte) : (s.setLen sym v).inp = s.inp := rfl
@[simp] theorem setLen_bit (sym v : Byte) : (s.setLen sym v).bit = s.bit := rfl
@[simp] theorem setLen_out (sym v : Byte) : (s.setLen sym v).out = s.out := rfl
@[simp] theorem setLen_eng (sym v : Byte) : (s.setLen sym v).eng = s.eng := rfl
@[simp] theorem setLen_port (sym v : Byte) : (s.setLen sym v).port = s.port := rfl
@[simp] theorem setLen_busData (sym v : Byte) : (s.setLen sym v).busData = s.busData := rfl
@[simp] theorem setLen_draws (sym v : Byte) : (s.setLen sym v).draws = s.draws := rfl

/-! `State.countVisit` (R114) -/

@[simp] theorem countVisit_params : (s.countVisit).params = s.params := rfl
@[simp] theorem countVisit_irqEn : (s.countVisit).irqEn = s.irqEn := rfl
@[simp] theorem countVisit_status : (s.countVisit).status = s.status := rfl
@[simp] theorem countVisit_errInfo : (s.countVisit).errInfo = s.errInfo := rfl
@[simp] theorem countVisit_nodeCount : (s.countVisit).nodeCount = s.nodeCount := rfl
@[simp] theorem countVisit_root : (s.countVisit).root = s.root := rfl
@[simp] theorem countVisit_inLen : (s.countVisit).inLen = s.inLen := rfl
@[simp] theorem countVisit_bitLen : (s.countVisit).bitLen = s.bitLen := rfl
@[simp] theorem countVisit_outLen : (s.countVisit).outLen = s.outLen := rfl
@[simp] theorem countVisit_tree : (s.countVisit).tree = s.tree := rfl
@[simp] theorem countVisit_lens : (s.countVisit).lens = s.lens := rfl
@[simp] theorem countVisit_cbits : (s.countVisit).cbits = s.cbits := rfl
@[simp] theorem countVisit_inp : (s.countVisit).inp = s.inp := rfl
@[simp] theorem countVisit_bit : (s.countVisit).bit = s.bit := rfl
@[simp] theorem countVisit_out : (s.countVisit).out = s.out := rfl
@[simp] theorem countVisit_eng : (s.countVisit).eng = { s.eng with visits := s.eng.visits + 1 } := rfl
@[simp] theorem countVisit_port : (s.countVisit).port = s.port := rfl
@[simp] theorem countVisit_busData : (s.countVisit).busData = s.busData := rfl
@[simp] theorem countVisit_draws : (s.countVisit).draws = s.draws := rfl

/-! `State.writeCode` (R115) -/

@[simp] theorem writeCode_params (sym : Byte) (code : List Bool) : (s.writeCode sym code).params = s.params := rfl
@[simp] theorem writeCode_irqEn (sym : Byte) (code : List Bool) : (s.writeCode sym code).irqEn = s.irqEn := rfl
@[simp] theorem writeCode_status (sym : Byte) (code : List Bool) : (s.writeCode sym code).status = s.status := rfl
@[simp] theorem writeCode_errInfo (sym : Byte) (code : List Bool) : (s.writeCode sym code).errInfo = s.errInfo := rfl
@[simp] theorem writeCode_nodeCount (sym : Byte) (code : List Bool) : (s.writeCode sym code).nodeCount = s.nodeCount := rfl
@[simp] theorem writeCode_root (sym : Byte) (code : List Bool) : (s.writeCode sym code).root = s.root := rfl
@[simp] theorem writeCode_inLen (sym : Byte) (code : List Bool) : (s.writeCode sym code).inLen = s.inLen := rfl
@[simp] theorem writeCode_bitLen (sym : Byte) (code : List Bool) : (s.writeCode sym code).bitLen = s.bitLen := rfl
@[simp] theorem writeCode_outLen (sym : Byte) (code : List Bool) : (s.writeCode sym code).outLen = s.outLen := rfl
@[simp] theorem writeCode_tree (sym : Byte) (code : List Bool) : (s.writeCode sym code).tree = s.tree := rfl
@[simp] theorem writeCode_lens (sym : Byte) (code : List Bool) : (s.writeCode sym code).lens = (s.setLen sym (BitVec.ofNat 8 code.length)).lens := rfl
@[simp] theorem writeCode_cbits (sym : Byte) (code : List Bool) : (s.writeCode sym code).cbits = s.cbits.setRun (cbitsCell sym 0) (paddedCode code) := rfl
@[simp] theorem writeCode_inp (sym : Byte) (code : List Bool) : (s.writeCode sym code).inp = s.inp := rfl
@[simp] theorem writeCode_bit (sym : Byte) (code : List Bool) : (s.writeCode sym code).bit = s.bit := rfl
@[simp] theorem writeCode_out (sym : Byte) (code : List Bool) : (s.writeCode sym code).out = s.out := rfl
@[simp] theorem writeCode_eng (sym : Byte) (code : List Bool) : (s.writeCode sym code).eng = s.eng := rfl
@[simp] theorem writeCode_port (sym : Byte) (code : List Bool) : (s.writeCode sym code).port = s.port := rfl
@[simp] theorem writeCode_busData (sym : Byte) (code : List Bool) : (s.writeCode sym code).busData = s.busData := rfl
@[simp] theorem writeCode_draws (sym : Byte) (code : List Bool) : (s.writeCode sym code).draws = s.draws := rfl

/-! `State.storeBitLen` (R132) -/

@[simp] theorem storeBitLen_params : (s.storeBitLen).params = s.params := rfl
@[simp] theorem storeBitLen_irqEn : (s.storeBitLen).irqEn = s.irqEn := rfl
@[simp] theorem storeBitLen_status : (s.storeBitLen).status = s.status := rfl
@[simp] theorem storeBitLen_errInfo : (s.storeBitLen).errInfo = s.errInfo := rfl
@[simp] theorem storeBitLen_nodeCount : (s.storeBitLen).nodeCount = s.nodeCount := rfl
@[simp] theorem storeBitLen_root : (s.storeBitLen).root = s.root := rfl
@[simp] theorem storeBitLen_inLen : (s.storeBitLen).inLen = s.inLen := rfl
@[simp] theorem storeBitLen_bitLen : (s.storeBitLen).bitLen = BitVec.ofNat 32 s.eng.bitCur := rfl
@[simp] theorem storeBitLen_outLen : (s.storeBitLen).outLen = s.outLen := rfl
@[simp] theorem storeBitLen_tree : (s.storeBitLen).tree = s.tree := rfl
@[simp] theorem storeBitLen_lens : (s.storeBitLen).lens = s.lens := rfl
@[simp] theorem storeBitLen_cbits : (s.storeBitLen).cbits = s.cbits := rfl
@[simp] theorem storeBitLen_inp : (s.storeBitLen).inp = s.inp := rfl
@[simp] theorem storeBitLen_bit : (s.storeBitLen).bit = s.bit := rfl
@[simp] theorem storeBitLen_out : (s.storeBitLen).out = s.out := rfl
@[simp] theorem storeBitLen_eng : (s.storeBitLen).eng = s.eng := rfl
@[simp] theorem storeBitLen_port : (s.storeBitLen).port = s.port := rfl
@[simp] theorem storeBitLen_busData : (s.storeBitLen).busData = s.busData := rfl
@[simp] theorem storeBitLen_draws : (s.storeBitLen).draws = s.draws := rfl

/-! `State.appendCode` (R132) -/

@[simp] theorem appendCode_params (code : List Bool) : (s.appendCode code).params = s.params := rfl
@[simp] theorem appendCode_irqEn (code : List Bool) : (s.appendCode code).irqEn = s.irqEn := rfl
@[simp] theorem appendCode_status (code : List Bool) : (s.appendCode code).status = s.status := rfl
@[simp] theorem appendCode_errInfo (code : List Bool) : (s.appendCode code).errInfo = s.errInfo := rfl
@[simp] theorem appendCode_nodeCount (code : List Bool) : (s.appendCode code).nodeCount = s.nodeCount := rfl
@[simp] theorem appendCode_root (code : List Bool) : (s.appendCode code).root = s.root := rfl
@[simp] theorem appendCode_inLen (code : List Bool) : (s.appendCode code).inLen = s.inLen := rfl
@[simp] theorem appendCode_bitLen (code : List Bool) : (s.appendCode code).bitLen = s.bitLen := rfl
@[simp] theorem appendCode_outLen (code : List Bool) : (s.appendCode code).outLen = s.outLen := rfl
@[simp] theorem appendCode_tree (code : List Bool) : (s.appendCode code).tree = s.tree := rfl
@[simp] theorem appendCode_lens (code : List Bool) : (s.appendCode code).lens = s.lens := rfl
@[simp] theorem appendCode_cbits (code : List Bool) : (s.appendCode code).cbits = s.cbits := rfl
@[simp] theorem appendCode_inp (code : List Bool) : (s.appendCode code).inp = s.inp := rfl
@[simp] theorem appendCode_bit (code : List Bool) : (s.appendCode code).bit = s.bit.setRun s.eng.bitCur code := rfl
@[simp] theorem appendCode_out (code : List Bool) : (s.appendCode code).out = s.out := rfl
@[simp] theorem appendCode_eng (code : List Bool) : (s.appendCode code).eng = { s.eng with bitCur := s.eng.bitCur + code.length, symIdx := s.eng.symIdx + 1 } := rfl
@[simp] theorem appendCode_port (code : List Bool) : (s.appendCode code).port = s.port := rfl
@[simp] theorem appendCode_busData (code : List Bool) : (s.appendCode code).busData = s.busData := rfl
@[simp] theorem appendCode_draws (code : List Bool) : (s.appendCode code).draws = s.draws := rfl

/-! `State.storeByte` (R152) -/

@[simp] theorem storeByte_params (bits : List Bool) : (s.storeByte bits).params = s.params := rfl
@[simp] theorem storeByte_irqEn (bits : List Bool) : (s.storeByte bits).irqEn = s.irqEn := rfl
@[simp] theorem storeByte_status (bits : List Bool) : (s.storeByte bits).status = s.status := rfl
@[simp] theorem storeByte_errInfo (bits : List Bool) : (s.storeByte bits).errInfo = s.errInfo := rfl
@[simp] theorem storeByte_nodeCount (bits : List Bool) : (s.storeByte bits).nodeCount = s.nodeCount := rfl
@[simp] theorem storeByte_root (bits : List Bool) : (s.storeByte bits).root = s.root := rfl
@[simp] theorem storeByte_inLen (bits : List Bool) : (s.storeByte bits).inLen = s.inLen := rfl
@[simp] theorem storeByte_bitLen (bits : List Bool) : (s.storeByte bits).bitLen = s.bitLen := rfl
@[simp] theorem storeByte_outLen (bits : List Bool) : (s.storeByte bits).outLen = s.outLen := rfl
@[simp] theorem storeByte_tree (bits : List Bool) : (s.storeByte bits).tree = s.tree := rfl
@[simp] theorem storeByte_lens (bits : List Bool) : (s.storeByte bits).lens = s.lens := rfl
@[simp] theorem storeByte_cbits (bits : List Bool) : (s.storeByte bits).cbits = s.cbits := rfl
@[simp] theorem storeByte_inp (bits : List Bool) : (s.storeByte bits).inp = s.inp := rfl
@[simp] theorem storeByte_bit (bits : List Bool) : (s.storeByte bits).bit = s.bit := rfl
@[simp] theorem storeByte_out (bits : List Bool) : (s.storeByte bits).out = s.out.set s.eng.byteIdx (packedByte bits) := rfl
@[simp] theorem storeByte_eng (bits : List Bool) : (s.storeByte bits).eng = { s.eng with byteIdx := s.eng.byteIdx + 1 } := rfl
@[simp] theorem storeByte_port (bits : List Bool) : (s.storeByte bits).port = s.port := rfl
@[simp] theorem storeByte_busData (bits : List Bool) : (s.storeByte bits).busData = s.busData := rfl
@[simp] theorem storeByte_draws (bits : List Bool) : (s.storeByte bits).draws = s.draws := rfl

/-! `State.storeOutLen` (R154) -/

@[simp] theorem storeOutLen_params (n : Nat) : (s.storeOutLen n).params = s.params := rfl
@[simp] theorem storeOutLen_irqEn (n : Nat) : (s.storeOutLen n).irqEn = s.irqEn := rfl
@[simp] theorem storeOutLen_status (n : Nat) : (s.storeOutLen n).status = s.status := rfl
@[simp] theorem storeOutLen_errInfo (n : Nat) : (s.storeOutLen n).errInfo = s.errInfo := rfl
@[simp] theorem storeOutLen_nodeCount (n : Nat) : (s.storeOutLen n).nodeCount = s.nodeCount := rfl
@[simp] theorem storeOutLen_root (n : Nat) : (s.storeOutLen n).root = s.root := rfl
@[simp] theorem storeOutLen_inLen (n : Nat) : (s.storeOutLen n).inLen = s.inLen := rfl
@[simp] theorem storeOutLen_bitLen (n : Nat) : (s.storeOutLen n).bitLen = s.bitLen := rfl
@[simp] theorem storeOutLen_outLen (n : Nat) : (s.storeOutLen n).outLen = BitVec.ofNat 32 (n / 8 + if n % 8 ≠ 0 then 1 else 0) := rfl
@[simp] theorem storeOutLen_tree (n : Nat) : (s.storeOutLen n).tree = s.tree := rfl
@[simp] theorem storeOutLen_lens (n : Nat) : (s.storeOutLen n).lens = s.lens := rfl
@[simp] theorem storeOutLen_cbits (n : Nat) : (s.storeOutLen n).cbits = s.cbits := rfl
@[simp] theorem storeOutLen_inp (n : Nat) : (s.storeOutLen n).inp = s.inp := rfl
@[simp] theorem storeOutLen_bit (n : Nat) : (s.storeOutLen n).bit = s.bit := rfl
@[simp] theorem storeOutLen_out (n : Nat) : (s.storeOutLen n).out = s.out := rfl
@[simp] theorem storeOutLen_eng (n : Nat) : (s.storeOutLen n).eng = s.eng := rfl
@[simp] theorem storeOutLen_port (n : Nat) : (s.storeOutLen n).port = s.port := rfl
@[simp] theorem storeOutLen_busData (n : Nat) : (s.storeOutLen n).busData = s.busData := rfl
@[simp] theorem storeOutLen_draws (n : Nat) : (s.storeOutLen n).draws = s.draws := rfl

/-! `State.dropWrite` (R220) -/

@[simp] theorem dropWrite_params : (s.dropWrite).params = s.params := rfl
@[simp] theorem dropWrite_irqEn : (s.dropWrite).irqEn = s.irqEn := rfl
@[simp] theorem dropWrite_errInfo : (s.dropWrite).errInfo = s.errInfo := rfl
@[simp] theorem dropWrite_nodeCount : (s.dropWrite).nodeCount = s.nodeCount := rfl
@[simp] theorem dropWrite_root : (s.dropWrite).root = s.root := rfl
@[simp] theorem dropWrite_inLen : (s.dropWrite).inLen = s.inLen := rfl
@[simp] theorem dropWrite_bitLen : (s.dropWrite).bitLen = s.bitLen := rfl
@[simp] theorem dropWrite_outLen : (s.dropWrite).outLen = s.outLen := rfl
@[simp] theorem dropWrite_tree : (s.dropWrite).tree = s.tree := rfl
@[simp] theorem dropWrite_lens : (s.dropWrite).lens = s.lens := rfl
@[simp] theorem dropWrite_cbits : (s.dropWrite).cbits = s.cbits := rfl
@[simp] theorem dropWrite_inp : (s.dropWrite).inp = s.inp := rfl
@[simp] theorem dropWrite_bit : (s.dropWrite).bit = s.bit := rfl
@[simp] theorem dropWrite_out : (s.dropWrite).out = s.out := rfl
@[simp] theorem dropWrite_eng : (s.dropWrite).eng = s.eng := rfl
@[simp] theorem dropWrite_port : (s.dropWrite).port = s.port := rfl
@[simp] theorem dropWrite_busData : (s.dropWrite).busData = s.busData := rfl
@[simp] theorem dropWrite_draws : (s.dropWrite).draws = s.draws := rfl
@[simp] theorem dropWrite_busy : (s.dropWrite).status.busy = s.status.busy := rfl
@[simp] theorem dropWrite_done : (s.dropWrite).status.done = s.status.done := rfl
@[simp] theorem dropWrite_ovr : (s.dropWrite).status.ovr = true := rfl
@[simp] theorem dropWrite_err : (s.dropWrite).status.err = s.status.err := rfl
@[simp] theorem dropWrite_estage : (s.dropWrite).status.estage = s.status.estage := rfl
@[simp] theorem dropWrite_lastop : (s.dropWrite).status.lastop = s.status.lastop := rfl

/-! `State.anyRead` (R221) -/

@[simp] theorem anyRead_params : (s.anyRead).params = s.params := rfl
@[simp] theorem anyRead_irqEn : (s.anyRead).irqEn = s.irqEn := rfl
@[simp] theorem anyRead_status : (s.anyRead).status = s.status := rfl
@[simp] theorem anyRead_errInfo : (s.anyRead).errInfo = s.errInfo := rfl
@[simp] theorem anyRead_nodeCount : (s.anyRead).nodeCount = s.nodeCount := rfl
@[simp] theorem anyRead_root : (s.anyRead).root = s.root := rfl
@[simp] theorem anyRead_inLen : (s.anyRead).inLen = s.inLen := rfl
@[simp] theorem anyRead_bitLen : (s.anyRead).bitLen = s.bitLen := rfl
@[simp] theorem anyRead_outLen : (s.anyRead).outLen = s.outLen := rfl
@[simp] theorem anyRead_tree : (s.anyRead).tree = s.tree := rfl
@[simp] theorem anyRead_lens : (s.anyRead).lens = s.lens := rfl
@[simp] theorem anyRead_cbits : (s.anyRead).cbits = s.cbits := rfl
@[simp] theorem anyRead_inp : (s.anyRead).inp = s.inp := rfl
@[simp] theorem anyRead_bit : (s.anyRead).bit = s.bit := rfl
@[simp] theorem anyRead_out : (s.anyRead).out = s.out := rfl
@[simp] theorem anyRead_eng : (s.anyRead).eng = s.eng := rfl
@[simp] theorem anyRead_port : (s.anyRead).port = s.port := rfl
@[simp] theorem anyRead_busData : (s.anyRead).busData = some (Config.freeWord s.draws) := rfl
@[simp] theorem anyRead_draws : (s.anyRead).draws = s.draws + 1 := rfl

end Sys2Proof.Machine
end

