-- ==== Sys2Proof/Laws/Bodies.lean ====
section
/-! SUPPORT. What the body of each command can change, said once: every end of it (its last line or a raise) is the state it began in but for the memories and registers R71 gives it and the engine's internal registers. -/
namespace Sys2Proof.Machine

/-- Every state a body ends in, at its last line or at a raise, satisfies `P`. -/
def Body.All (P : State → Prop) : Body → Prop
  | .ok t => P t
  | .raise _ _ t => P t
  | .fault _ => True

@[simp] theorem Body.all_ok (P : State → Prop) (t : State) : (Body.ok t).All P ↔ P t := Iff.rfl
@[simp] theorem Body.all_raise (P : State → Prop) (e : ErrCode) (v : Word) (t : State) :
    (Body.raise e v t).All P ↔ P t := Iff.rfl
@[simp] theorem Body.all_fault (P : State → Prop) (r : Fault) : (Body.fault r).All P ↔ True := Iff.rfl

theorem Body.All.mono {P Q : State → Prop} {b : Body} (h : b.All P) (hpq : ∀ t, P t → Q t) : b.All Q := by
  cases b with
  | ok t => exact hpq t h
  | raise e v t => exact hpq t h
  | fault r => trivial

/-- Two bodies in a row: what holds at the first one's raise and at the end of the second. -/
theorem Body.All.andThen {P Q : State → Prop} {b : Body} {f : State → Body} (h : b.All P)
    (hraise : ∀ t, P t → Q t) (hok : ∀ t, P t → (f t).All Q) : (b.andThen f).All Q := by
  cases b with
  | ok t => exact hok t h
  | raise e v t => exact hraise t h
  | fault r => trivial

theorem Body.all_withRead {β : Type} {P : State → Prop} (x : Except Fault β) (f : β → Body)
    (h : ∀ v, x = .ok v → (f v).All P) : (Body.withRead x f).All P := by
  cases x with
  | ok v => exact h v rfl
  | error r => trivial

@[simp] theorem Body.withRead_ok {β : Type} (v : β) (f : β → Body) : Body.withRead (.ok v) f = f v := rfl
@[simp] theorem Body.withRead_error {β : Type} (r : Fault) (f : β → Body) :
    Body.withRead (.error r) f = .fault r := rfl
@[simp] theorem Body.andThen_ok (s : State) (f : State → Body) : (Body.ok s).andThen f = f s := rfl
@[simp] theorem Body.andThen_raise (e : ErrCode) (v : Word) (s : State) (f : State → Body) :
    (Body.raise e v s).andThen f = .raise e v s := rfl
@[simp] theorem Body.andThen_fault (r : Fault) (f : State → Body) : (Body.fault r).andThen f = .fault r := rfl

theorem Body.andThen_assoc (b : Body) (f g : State → Body) :
    (b.andThen f).andThen g = b.andThen fun s => (f s).andThen g := by
  cases b <;> rfl

@[simp] theorem Body.complete_ok (s : State) : (Body.ok s).complete = .next s.completeOk := rfl
@[simp] theorem Body.complete_raise (e : ErrCode) (v : Word) (s : State) :
    (Body.raise e v s).complete = .next (s.completeError e v) := rfl
@[simp] theorem Body.complete_fault (r : Fault) : (Body.fault r).complete = .fault r := rfl

/-- A body that leads to a next state ended at its last line or at a raise. -/
theorem Body.complete_eq_next {b : Body} {t : State} (h : b.complete = .next t) :
    (∃ s, b = .ok s ∧ t = s.completeOk) ∨ (∃ e v s, b = .raise e v s ∧ t = s.completeError e v) := by
  cases b with
  | ok s => exact .inl ⟨s, rfl, (Host.Outcome.next.inj h).symm⟩
  | raise e v s => exact .inr ⟨e, v, s, rfl, (Host.Outcome.next.inj h).symm⟩
  | fault r => cases h

/-! ## BUILD_CODES -/

/-- BUILD_CODES writes LEN and CBITS (R71). -/
def BuildWrites (s t : State) : Prop :=
  t.eng.stage = s.eng.stage ∧ ∃ l c e, t = { s with lens := l, cbits := c, eng := e }

theorem BuildWrites.refl (s : State) : BuildWrites s s := ⟨rfl, s.lens, s.cbits, s.eng, rfl⟩

theorem BuildWrites.trans {s t u : State} (h : BuildWrites s t) (k : BuildWrites t u) : BuildWrites s u := by
  obtain ⟨hst, l, c, e, rfl⟩ := h
  obtain ⟨kst, l', c', e', rfl⟩ := k
  exact ⟨kst.trans hst, l', c', e', rfl⟩

/-- Where a visit leads. -/
def Visit.All (P : State → Prop) : Visit → Prop
  | .goto _ t => P t
  | .stop b => b.All P

theorem popPending_all (s : State) : s.popPending.All (BuildWrites s) := by
  unfold State.popPending
  split
  · exact BuildWrites.refl s
  · exact ⟨rfl, s.lens, s.cbits, _, rfl⟩

theorem visitNode_all (s : State) (h : Nat) : (s.visitNode h).All (BuildWrites s) := by
  unfold State.visitNode
  split
  · trivial
  · split
    · unfold State.visitLeaf
      split
      · exact BuildWrites.refl s
      · rename_i w _ _ _
        have hw : BuildWrites s (s.writeCode (nodeSym w) (leafCode s.eng.path)) := ⟨rfl, _, _, _, rfl⟩
        have hp := popPending_all (s.writeCode (nodeSym w) (leafCode s.eng.path))
        cases hv : (s.writeCode (nodeSym w) (leafCode s.eng.path)).popPending with
        | goto h' t => exact hw.trans (by simpa [Visit.All, hv] using hp)
        | stop b =>
          have hb : b.All (BuildWrites (s.writeCode (nodeSym w) (leafCode s.eng.path))) := by
            simpa [Visit.All, hv] using hp
          exact hb.mono fun t ht => hw.trans ht
    · unfold State.visitInternal
      split
      · exact BuildWrites.refl s
      · split
        · exact BuildWrites.refl s
        · split
          · exact BuildWrites.refl s
          · exact ⟨rfl, s.lens, s.cbits, _, rfl⟩

theorem visitLoop_all (left h : Nat) (s : State) : (visitLoop left h s).All (BuildWrites s) := by
  induction left generalizing h s with
  | zero => exact ⟨rfl, s.lens, s.cbits, _, rfl⟩
  | succ left ih =>
    have hc : BuildWrites s s.countVisit := ⟨rfl, s.lens, s.cbits, _, rfl⟩
    have hv := visitNode_all s.countVisit h
    rw [visitLoop]
    split
    · rename_i h' t heq
      rw [heq] at hv
      exact (ih h' t).mono fun u hu => (hc.trans hv).trans hu
    · rename_i b heq
      rw [heq] at hv
      exact Body.All.mono hv fun u hu => hc.trans hu

/-- What BUILD_CODES' body changes: LEN, CBITS and the internal registers, with the stage 1. -/
theorem buildBody_all (s : State) :
    (buildBody s).All fun t => t.eng.stage = .build ∧ ∃ l c e, t = { s with lens := l, cbits := c, eng := e } := by
  unfold buildBody
  split
  · exact ⟨rfl, s.lens, s.cbits, _, rfl⟩
  · refine (visitLoop_all _ _ _).mono fun t ht => ?_
    obtain ⟨hst, l, c, e, rfl⟩ := ht
    exact ⟨hst, l, c, e, rfl⟩

/-! ## ENCODE -/

/-- ENCODE writes BIT and BIT_LEN (R71). -/
def EncodeWrites (s t : State) : Prop :=
  t.eng.stage = s.eng.stage ∧ ∃ b n e, t = { s with bit := b, bitLen := n, eng := e }

theorem EncodeWrites.trans {s t u : State} (h : EncodeWrites s t) (k : EncodeWrites t u) : EncodeWrites s u := by
  obtain ⟨hst, b, n, e, rfl⟩ := h
  obtain ⟨kst, b', n', e', rfl⟩ := k
  exact ⟨kst.trans hst, b', n', e', rfl⟩

theorem encodeSymbol_all (s : State) : (encodeSymbol s).All (EncodeWrites s) := by
  refine Body.all_withRead _ _ fun sym _ => ?_
  split
  · exact ⟨rfl, s.bit, _, s.eng, rfl⟩
  · split
    · exact ⟨rfl, s.bit, _, s.eng, rfl⟩
    · exact Body.all_withRead _ _ fun code _ => ⟨rfl, _, s.bitLen, _, rfl⟩

theorem encodeLoop_all (left : Nat) (s : State) : (encodeLoop left s).All (EncodeWrites s) := by
  induction left generalizing s with
  | zero => exact ⟨rfl, s.bit, _, s.eng, rfl⟩
  | succ left ih =>
    exact (encodeSymbol_all s).andThen (fun _ ht => ht) fun t ht => (ih t).mono fun u hu => ht.trans hu

/-- What ENCODE's body changes: BIT, BIT_LEN and the internal registers, with the stage 2. -/
theorem encodeBody_all (s : State) :
    (encodeBody s).All fun t => t.eng.stage = .encode ∧ ∃ b n e, t = { s with bit := b, bitLen := n, eng := e } := by
  unfold encodeBody
  split
  · exact ⟨rfl, s.bit, s.bitLen, _, rfl⟩
  · refine (encodeLoop_all _ _).mono fun t ht => ?_
    obtain ⟨hst, b, n, e, rfl⟩ := ht
    exact ⟨hst, b, n, e, rfl⟩

/-! ## PACK -/

/-- PACK writes OUT and OUT_LEN (R71). -/
def PackWrites (s t : State) : Prop :=
  t.eng.stage = s.eng.stage ∧ ∃ o n e, t = { s with out := o, outLen := n, eng := e }

theorem PackWrites.trans {s t u : State} (h : PackWrites s t) (k : PackWrites t u) : PackWrites s u := by
  obtain ⟨hst, b, n, e, rfl⟩ := h
  obtain ⟨kst, b', n', e', rfl⟩ := k
  exact ⟨kst.trans hst, b', n', e', rfl⟩

theorem packGroup_all (n : Nat) (s : State) : (packGroup n s).All (PackWrites s) :=
  Body.all_withRead _ _ fun _ _ => ⟨rfl, _, s.outLen, _, rfl⟩

theorem packLoop_all (left : Nat) (s : State) : (packLoop left s).All (PackWrites s) := by
  induction left generalizing s with
  | zero => exact ⟨rfl, s.out, s.outLen, s.eng, rfl⟩
  | succ left ih =>
    exact (packGroup_all 8 s).andThen (fun _ ht => ht) fun t ht => (ih t).mono fun u hu => ht.trans hu

theorem packFinal_all (r : Nat) (s : State) : (packFinal r s).All (PackWrites s) := by
  unfold packFinal
  split
  · exact ⟨rfl, s.out, s.outLen, s.eng, rfl⟩
  · exact packGroup_all r s

/-- What PACK's body changes: OUT, OUT_LEN and the internal registers, with the stage 3. -/
theorem packBody_all (s : State) :
    (packBody s).All fun t => t.eng.stage = .pack ∧ ∃ o n e, t = { s with out := o, outLen := n, eng := e } := by
  unfold packBody
  split
  · exact ⟨rfl, s.out, s.outLen, _, rfl⟩
  · have h : (((packLoop (s.bitLen.toNat / 8) (s.enterStage .pack)).andThen (packFinal (s.bitLen.toNat % 8))).andThen
        fun t => .ok (t.storeOutLen s.bitLen.toNat)).All (PackWrites (s.enterStage .pack)) := by
      refine Body.All.andThen (P := PackWrites (s.enterStage .pack)) ?_ (fun _ ht => ht) fun t ht =>
        ht.trans ⟨rfl, t.out, _, t.eng, rfl⟩
      exact (packLoop_all _ _).andThen (fun _ ht => ht) fun t ht =>
        (packFinal_all _ t).mono fun u hu => ht.trans hu
    refine h.mono fun t ht => ?_
    obtain ⟨hst, o, n, e, rfl⟩ := ht
    exact ⟨hst, o, n, e, rfl⟩

end Sys2Proof.Machine
end

