-- ==== Sys2Proof/Laws/Operands.lean ====
section
/-! SUPPORT. The laws of the operand formats: what a window word stores is what it reads back (R66 to R69), the node word's fields (R94, R95), and LEN after a write (R66). -/
namespace Sys2Proof.Machine

theorem bitsValue_append_one (bits : List Bool) (b : Bool) :
    bitsValue (bits ++ [b]) = 2 * bitsValue bits + b.toNat := by
  simp [bitsValue]

/-- The first `n` of a word's 32 bits, most significant first, are its top `n` bits. -/
theorem bitsValue_topBits (v : Word) (n : Nat) (h : n ≤ 32) :
    bitsValue ((List.range n).map fun t => v.getLsbD (31 - t)) = v.toNat / 2 ^ (32 - n) := by
  induction n with
  | zero =>
    have := v.isLt
    simp only [List.range_zero, List.map_nil, bitsValue, List.foldl_nil]
    omega
  | succ n ih =>
    have hbit : (v.getLsbD (31 - n)).toNat = v.toNat / 2 ^ (31 - n) % 2 := by
      rw [BitVec.getLsbD, Nat.testBit_eq_decide_div_mod_eq]
      rcases Nat.mod_two_eq_zero_or_one (v.toNat / 2 ^ (31 - n)) with h | h <;> simp [h]
    have hpow : 2 ^ (32 - n) = 2 ^ (31 - n) * 2 := by
      rw [← Nat.pow_succ]
      congr 1
      omega
    rw [List.range_succ, List.map_append, List.map_singleton, bitsValue_append_one, ih (by omega), hbit, hpow,
      ← Nat.div_div_eq_div_mul, show 32 - (n + 1) = 31 - n by omega]
    omega

/-- A BIT or CBITS word reads back as written (R66, R68). -/
@[simp] theorem bitsWord_wordBits (v : Word) : bitsWord (wordBits v) = v := by
  apply BitVec.eq_of_toNat_eq
  have h := bitsValue_topBits v 32 (by omega)
  have hlt := v.isLt
  simp only [bitsWord, wordBits, BitVec.toNat_ofNat]
  rw [h]
  omega

/-- An IN or OUT word reads back as written (R67, R69). -/
@[simp] theorem bytesWord_wordBytes (v : Word) : bytesWord (wordBytes v) = v := by
  apply BitVec.eq_of_getLsbD_eq
  intro i hi
  simp only [wordBytes, bytesWord, BitVec.getLsbD_or, BitVec.getLsbD_shiftLeft, BitVec.getLsbD_setWidth,
    BitVec.getLsbD_extractLsb', BitVec.getLsbD_zero]
  rcases (by omega : i < 8 ∨ (8 ≤ i ∧ i < 16) ∨ (16 ≤ i ∧ i < 24) ∨ (24 ≤ i ∧ i < 32)) with h | h | h | h
  · have h1 : i < 32 := hi
    simp [h, h1]
  · have h1 : i - 8 < 8 := by omega
    have h2 : ¬ i < 8 := by omega
    have h3 : i - 8 < 32 := by omega
    have h4 : 8 + (i - 8) = i := by omega
    simp [h1, h2, hi, h3, h4]
  · have h1 : i - 8 - 8 < 8 := by omega
    have h2 : ¬ i < 8 := by omega
    have h3 : i - 8 < 32 := by omega
    have h4 : ¬ i - 8 < 8 := by omega
    have h5 : 16 + (i - 8 - 8) = i := by omega
    have h6 : i - 8 - 8 < 32 := by omega
    simp [h1, h2, hi, h3, h4, h5, h6]
  · have h1 : i - 8 - 8 - 8 < 8 := by omega
    have h2 : ¬ i < 8 := by omega
    have h3 : i - 8 < 32 := by omega
    have h4 : ¬ i - 8 < 8 := by omega
    have h5 : ¬ i - 8 - 8 < 8 := by omega
    have h6 : 24 + (i - 8 - 8 - 8) = i := by omega
    have h7 : i - 8 - 8 < 32 := by omega
    have h8 : i - 8 - 8 - 8 < 32 := by omega
    simp [h1, h2, hi, h3, h4, h5, h6, h7, h8]

@[simp] theorem wordBits_length (v : Word) : (wordBits v).length = 32 := by simp [wordBits]

theorem wordBits_getElem? (v : Word) (k : Nat) (h : k < 32) : (wordBits v)[k]? = some (v.getLsbD (31 - k)) := by
  simp [wordBits, h]

@[simp] theorem wordBytes_length (v : Word) : (wordBytes v).length = 4 := rfl

theorem wordBytes_getElem? (v : Word) (k : Nat) (h : k < 4) :
    (wordBytes v)[k]? = some (v.extractLsb' (8 * k) 8) := by
  rcases (by omega : k = 0 ∨ k = 1 ∨ k = 2 ∨ k = 3) with rfl | rfl | rfl | rfl <;> rfl

/-- A run just written reads back whole. -/
theorem readCells_setRun {α : Type} (n : MemName) (m : Memory α) (base : Nat) (vals : List α) :
    readCells n (m.setRun base vals) base vals.length = .ok vals :=
  readCells_eq_ok.2 ⟨rfl, fun j hj => Memory.get_setRun_inside m base vals j hj⟩

/-- LEN after a write of LEN (R66), every symbol's. -/
theorem lenOf_setLen (s : State) (sym v x : Byte) :
    (s.setLen sym v).lenOf x = if x = sym then v else s.lenOf x := by
  have hkey : x.toNat = sym.toNat ↔ x = sym := ⟨BitVec.eq_of_toNat_eq, fun h => h ▸ rfl⟩
  unfold State.lenOf State.setLen
  by_cases hv : v = 0#8
  · by_cases hx : x = sym <;> simp [hv, hkey, hx]
  · by_cases hx : x = sym <;> simp [hv, hkey, hx]

@[simp] theorem lenOf_clearLens (s : State) (x : Byte) : s.clearLens.lenOf x = 0#8 := rfl

/-! ## Node words (R94, R95) -/

theorem nodeIsLeaf_leafWord (sym : Byte) : nodeIsLeaf (leafWord sym) = true := by
  simp [nodeIsLeaf, leafWord]

theorem nodeLeft_lt (w : Word) : nodeLeft w < 512 := (w.extractLsb' 0 9).isLt

theorem nodeRight_lt (w : Word) : nodeRight w < 512 := (w.extractLsb' 16 9).isLt

end Sys2Proof.Machine
end

