-- ==== Sys2Proof/Laws/Bus.lean ====
section
/-! SUPPORT. The address map on the offsets of each region (R61, R66), and what an access inside the aperture is. -/
namespace Sys2Proof.Machine

theorem offsetOf_base (p : Config.Params) (o : Nat) (h : o < 0x20000) : offsetOf p (p.base + o) = some o := by
  have h1 : p.base ≤ p.base + o := by omega
  have h2 : p.base + o < p.base + Config.apertureBytes := by
    simp only [Config.apertureBytes]
    omega
  simp [offsetOf, h1, h2]

/-- A bus address outside the aperture has no offset (R60). -/
theorem offsetOf_outside (p : Config.Params) (a : Nat) (h : a < p.base ∨ p.base + 0x20000 ≤ a) :
    offsetOf p a = none := by
  unfold offsetOf
  rw [if_neg]
  simp only [Config.apertureBytes]
  omega

theorem hostReads_eq (s : State) (o : Nat) (h : o < 0x20000) (h4 : o % 4 = 0) :
    s.hostReads o = s.hostRead o := by
  simp [State.hostReads, State.portEvent, State.atOffset, offsetOf_base _ _ h, accessLegal, h4]

theorem hostWrites_eq (s : State) (o : Nat) (v : Word) (h : o < 0x20000) (h4 : o % 4 = 0) :
    s.hostWrites o v = s.hostWrite o v := by
  simp [State.hostWrites, State.portEvent, State.atOffset, offsetOf_base _ _ h, accessLegal, h4]

/-- The parts of R6's legal ranges the address map rests on. -/
theorem params_wf (p : Config.Params) (h : p.wf = true) :
    p.inDepth % 4 = 0 ∧ 4 ≤ p.inDepth ∧ p.inDepth ≤ 32768 ∧
    p.bitDepth % 32 = 0 ∧ 32 ≤ p.bitDepth ∧ p.bitDepth ≤ 262144 := by
  simp only [Config.Params.wf, Bool.and_eq_true, beq_iff_eq, decide_eq_true_eq] at h
  omega

theorem locate_reg (p : Config.Params) (o : Nat) (r : Reg) (h : o < 0x1000) (hr : regAt o = some r) :
    locate p o = .reg r := by
  simp [locate, h, hr]

theorem locate_tree (p : Config.Params) (h : Nat) (hh : h < 512) : locate p (0x01000 + 4 * h) = .tree h := by
  have h1 : ¬ 0x01000 + 4 * h < 0x01000 := by omega
  have h2 : 0x01000 + 4 * h < 0x01800 := by omega
  have h3 : (0x01000 + 4 * h - 0x01000) / 4 = h := by omega
  simp only [locate, h1, h2, h3, if_true, if_false]

theorem locate_code (p : Config.Params) (o : Nat) (h : o < 0x4000) : locate p (0x04000 + o) = codeLoc o := by
  have h1 : ¬ 0x04000 + o < 0x01000 := by omega
  have h2 : ¬ 0x04000 + o < 0x01800 := by omega
  have h3 : ¬ 0x04000 + o < 0x04000 := by omega
  have h4 : 0x04000 + o < 0x08000 := by omega
  have h5 : 0x04000 + o - 0x04000 = o := by omega
  simp only [locate, h1, h2, h3, h4, h5, if_true, if_false]

theorem codeLoc_len (sym : Byte) : codeLoc (64 * sym.toNat) = .codeLen sym := by
  have h1 : 64 * sym.toNat % 64 / 4 = 0 := by omega
  have h2 : 64 * sym.toNat / 64 = sym.toNat := by omega
  simp only [codeLoc, h1, h2, if_true, BitVec.ofNat_toNat, BitVec.setWidth_eq]

theorem codeLoc_bits (sym : Byte) (w : Nat) (h1 : 1 ≤ w) (h8 : w ≤ 8) :
    codeLoc (64 * sym.toNat + 4 * w) = .codeBits sym (w - 1) := by
  have e1 : (64 * sym.toNat + 4 * w) % 64 / 4 = w := by omega
  have e2 : (64 * sym.toNat + 4 * w) / 64 = sym.toNat := by omega
  have e3 : w ≠ 0 := by omega
  simp only [codeLoc, e1, e2, e3, h8, if_true, if_false, BitVec.ofNat_toNat, BitVec.setWidth_eq]

theorem locate_inp (p : Config.Params) (q : Nat) (hp : p.wf = true) (hq : q < p.inDepth / 4) :
    locate p (0x08000 + 4 * q) = .inp q := by
  have := params_wf p hp
  have h1 : ¬ 0x08000 + 4 * q < 0x01000 := by omega
  have h2 : ¬ 0x08000 + 4 * q < 0x01800 := by omega
  have h3 : ¬ 0x08000 + 4 * q < 0x04000 := by omega
  have h4 : ¬ 0x08000 + 4 * q < 0x08000 := by omega
  have h5 : 0x08000 + 4 * q < 0x10000 := by omega
  have h6 : 0x08000 + 4 * q - 0x08000 < p.inDepth := by omega
  have h7 : (0x08000 + 4 * q - 0x08000) / 4 = q := by omega
  simp only [locate, h1, h2, h3, h4, h5, h6, h7, if_true, if_false]

theorem locate_bit (p : Config.Params) (q : Nat) (hp : p.wf = true) (hq : q < p.bitDepth / 32) :
    locate p (0x10000 + 4 * q) = .bit q := by
  have := params_wf p hp
  have h1 : ¬ 0x10000 + 4 * q < 0x01000 := by omega
  have h2 : ¬ 0x10000 + 4 * q < 0x01800 := by omega
  have h3 : ¬ 0x10000 + 4 * q < 0x04000 := by omega
  have h4 : ¬ 0x10000 + 4 * q < 0x08000 := by omega
  have h5 : ¬ 0x10000 + 4 * q < 0x10000 := by omega
  have h6 : 0x10000 + 4 * q < 0x18000 := by omega
  have h7 : 0x10000 + 4 * q - 0x10000 < p.bitDepth / 8 := by omega
  have h8 : (0x10000 + 4 * q - 0x10000) / 4 = q := by omega
  simp only [locate, h1, h2, h3, h4, h5, h6, h7, h8, if_true, if_false]

theorem locate_out (p : Config.Params) (q : Nat) (hp : p.wf = true) (hq : q < p.outDepth / 4) :
    locate p (0x18000 + 4 * q) = .out q := by
  have := params_wf p hp
  have hd : p.outDepth = p.bitDepth / 8 := rfl
  have h1 : ¬ 0x18000 + 4 * q < 0x01000 := by omega
  have h2 : ¬ 0x18000 + 4 * q < 0x01800 := by omega
  have h3 : ¬ 0x18000 + 4 * q < 0x04000 := by omega
  have h4 : ¬ 0x18000 + 4 * q < 0x08000 := by omega
  have h5 : ¬ 0x18000 + 4 * q < 0x10000 := by omega
  have h6 : ¬ 0x18000 + 4 * q < 0x18000 := by omega
  have h7 : 0x18000 + 4 * q - 0x18000 < p.outDepth := by omega
  have h8 : (0x18000 + 4 * q - 0x18000) / 4 = q := by omega
  simp only [locate, h1, h2, h3, h4, h5, h6, h7, h8, if_true, if_false]

/-! ## The whole map -/

theorem regAt_lt (o : Nat) (r : Reg) (h : regAt o = some r) : o < 0x34 := by
  by_contra hlt
  have : regAt o = none := by
    unfold regAt
    split <;> first | omega | rfl
  rw [this] at h
  cases h

theorem regAt_none (o : Nat) (h4 : o % 4 = 0) (h : regAt o = none) : 0x34 ≤ o := by
  by_contra hlt
  obtain ⟨k, rfl⟩ : ∃ k, o = 4 * k := ⟨o / 4, by omega⟩
  have hk : k < 13 := by omega
  interval_cases k <;> cases h

/-- What an aligned offset of the aperture can be (R61, R66). -/
theorem locate_cases (p : Config.Params) (hp : p.wf = true) (o : Nat) (h4 : o % 4 = 0) (ho : o < 0x20000) :
    (∃ r, locate p o = .reg r ∧ o < 0x34 ∧ regAt o = some r) ∨
    (∃ h, locate p o = .tree h ∧ h < 512 ∧ mappedWord p o) ∨
    (∃ x, locate p o = .codeLen x ∧ mappedWord p o) ∨
    (∃ x w, locate p o = .codeBits x w ∧ w < 8 ∧ mappedWord p o) ∨
    (∃ q, locate p o = .inp q ∧ q < p.inDepth / 4 ∧ mappedWord p o) ∨
    (∃ q, locate p o = .bit q ∧ q < p.bitDepth / 32 ∧ mappedWord p o) ∨
    (∃ q, locate p o = .out q ∧ q < p.outDepth / 4 ∧ mappedWord p o) ∨
    (locate p o = .razWi ∧ razOffset p o) := by
  have hw := params_wf p hp
  have hd : p.outDepth = p.bitDepth / 8 := rfl
  by_cases c1 : o < 0x1000
  · cases hr : regAt o with
    | some r => exact .inl ⟨r, by simp [locate, c1, hr], regAt_lt o r hr, rfl⟩
    | none =>
      have := regAt_none o h4 hr
      iterate 7 right
      exact ⟨by simp [locate, c1, hr], by unfold razOffset mappedWord; omega⟩
  by_cases c2 : o < 0x1800
  · right; left
    exact ⟨(o - 0x1000) / 4, by simp only [locate, c1, c2, if_true, if_false], by omega, by unfold mappedWord; omega⟩
  by_cases c3 : o < 0x4000
  · iterate 7 right
    exact ⟨by simp only [locate, c1, c2, c3, if_true, if_false], by unfold razOffset mappedWord; omega⟩
  by_cases c4 : o < 0x8000
  · have e : locate p o = codeLoc (o - 0x4000) := by simp only [locate, c1, c2, c3, c4, if_true, if_false]
    rw [e]
    by_cases d1 : (o - 0x4000) % 64 / 4 = 0
    · right; right; left
      exact ⟨_, by rw [codeLoc, if_pos d1], by unfold mappedWord; omega⟩
    by_cases d2 : (o - 0x4000) % 64 / 4 ≤ 8
    · right; right; right; left
      exact ⟨_, _, by rw [codeLoc, if_neg d1, if_pos d2], by omega, by unfold mappedWord; omega⟩
    · iterate 7 right
      exact ⟨by rw [codeLoc, if_neg d1, if_neg d2], by unfold razOffset mappedWord; omega⟩
  by_cases c5 : o < 0x10000
  · by_cases d1 : o - 0x8000 < p.inDepth
    · iterate 4 right
      left
      exact ⟨(o - 0x8000) / 4, by simp only [locate, c1, c2, c3, c4, c5, d1, if_true, if_false], by omega,
        by unfold mappedWord; omega⟩
    · iterate 7 right
      exact ⟨by simp only [locate, c1, c2, c3, c4, c5, d1, if_true, if_false], by unfold razOffset mappedWord; omega⟩
  by_cases c6 : o < 0x18000
  · by_cases d1 : o - 0x10000 < p.bitDepth / 8
    · iterate 5 right
      left
      exact ⟨(o - 0x10000) / 4, by simp only [locate, c1, c2, c3, c4, c5, c6, d1, if_true, if_false], by omega,
        by unfold mappedWord; omega⟩
    · iterate 7 right
      exact ⟨by simp only [locate, c1, c2, c3, c4, c5, c6, d1, if_true, if_false],
        by unfold razOffset mappedWord; omega⟩
  · by_cases d1 : o - 0x18000 < p.outDepth
    · iterate 6 right
      left
      exact ⟨(o - 0x18000) / 4, by simp only [locate, c1, c2, c3, c4, c5, c6, d1, if_true, if_false], by omega,
        by unfold mappedWord; omega⟩
    · iterate 7 right
      exact ⟨by simp only [locate, c1, c2, c3, c4, c5, c6, d1, if_false],
        by unfold razOffset mappedWord; omega⟩

theorem mappedWord_lt (p : Config.Params) (hp : p.wf = true) (o : Nat) (h : mappedWord p o) :
    o % 4 = 0 ∧ o < 0x20000 ∧ 0x34 ≤ o := by
  have hw := params_wf p hp
  unfold mappedWord at h
  omega

/-- A mapped window word is busy-unspecified (R221) and busy-dropped (R220). -/
theorem locate_mapped (p : Config.Params) (hp : p.wf = true) (o : Nat) (h : mappedWord p o) :
    busyUnspecified (locate p o) = true ∧ busyDropped (locate p o) = true := by
  obtain ⟨h4, ho, h34⟩ := mappedWord_lt p hp o h
  rcases locate_cases p hp o h4 ho with
    ⟨r, e, hlt, -⟩ | ⟨_, e, -⟩ | ⟨_, e, -⟩ | ⟨_, _, e, -⟩ | ⟨_, e, -⟩ | ⟨_, e, -⟩ | ⟨_, e, -⟩ | ⟨e, hr⟩
  · omega
  all_goals first | (rw [e]; exact ⟨rfl, rfl⟩) | exact absurd h hr.2.2.2

theorem locate_raz (p : Config.Params) (hp : p.wf = true) (o : Nat) (h : razOffset p o) : locate p o = .razWi := by
  rcases locate_cases p hp o h.1 h.2.2.1 with
    ⟨r, -, hlt, -⟩ | ⟨_, -, -, hm⟩ | ⟨_, -, hm⟩ | ⟨_, _, -, -, hm⟩ | ⟨_, -, -, hm⟩ | ⟨_, -, -, hm⟩ | ⟨_, -, -, hm⟩ | ⟨e, -⟩
  · have := h.2.1
    omega
  all_goals first | exact e | exact absurd hm h.2.2.2

end Sys2Proof.Machine
end

