-- ==== Sys2Proof/Laws/CodeTable.lean ====
section
/-! SUPPORT. The laws of the code table: what writing one code leaves in its entry and in the others (R115), and what R113's VISIT can change however it ends. -/
namespace Sys2Proof.Machine

/-- `t`'s entry of symbol `x` is `s`'s: LEN and all 256 code bits. -/
def SameEntry (s t : State) (x : Byte) : Prop :=
  t.lenOf x = s.lenOf x ∧ ∀ j, j < Config.cbitsW → t.cbits.get (cbitsCell x j) = s.cbits.get (cbitsCell x j)

/-- `t`'s entry of symbol `x` is a code as R115 writes it: its bits, then zeros. -/
def EntryIs (t : State) (x : Byte) (code : List Bool) : Prop :=
  t.CodeIs x code ∧ ∀ j, code.length ≤ j → j < Config.cbitsW → t.cbits.get (cbitsCell x j) = some false

theorem SameEntry.refl (s : State) (x : Byte) : SameEntry s s x := ⟨rfl, fun _ _ => rfl⟩

theorem SameEntry.trans {s t u : State} {x : Byte} (h : SameEntry s t x) (k : SameEntry t u x) : SameEntry s u x :=
  ⟨k.1.trans h.1, fun j hj => (k.2 j hj).trans (h.2 j hj)⟩

theorem EntryIs.same {s t : State} {x : Byte} {code : List Bool} (h : EntryIs s x code) (k : SameEntry s t x) :
    EntryIs t x code := by
  obtain ⟨⟨hlen, hbits⟩, hzero⟩ := h
  have hl : code.length < Config.cbitsW := by rw [← hlen]; exact (s.lenOf x).isLt
  refine ⟨⟨by rw [k.1]; exact hlen, fun j hj => ?_⟩, fun j hj hj' => ?_⟩
  · rw [k.2 j (by omega)]
    exact hbits j hj
  · rw [k.2 j hj']
    exact hzero j hj hj'

theorem paddedCode_length (code : List Bool) (h : code.length ≤ 256) : (paddedCode code).length = 256 := by
  simp [paddedCode, Config.cbitsW]
  omega

theorem writeCode_lenOf (s : State) (x y : Byte) (code : List Bool) :
    (s.writeCode x code).lenOf y = if y = x then BitVec.ofNat 8 code.length else s.lenOf y := by
  unfold State.writeCode
  rw [lenOf_setLen]
  rfl

/-- The entry a code is written to. -/
theorem writeCode_entry (s : State) (x : Byte) (code : List Bool) (h : code.length ≤ 255) :
    EntryIs (s.writeCode x code) x code := by
  have hp := paddedCode_length code (by omega)
  have key : ∀ j, j < 256 → (s.writeCode x code).cbits.get (cbitsCell x j) = (paddedCode code)[j]? := by
    intro j hj
    rw [writeCode_cbits, show cbitsCell x j = cbitsCell x 0 + j by simp [cbitsCell],
      Memory.get_setRun_inside _ _ _ _ (by omega)]
  refine ⟨⟨?_, fun j hj => ?_⟩, fun j hj hj' => ?_⟩
  · rw [writeCode_lenOf, if_pos rfl, BitVec.toNat_ofNat]
    omega
  · rw [key j (by omega), paddedCode, List.getElem?_append_left hj]
  · rw [key j hj', paddedCode, List.getElem?_append_right hj, List.getElem?_replicate,
      if_pos (by show _ < 256 - _; change j < 256 at hj'; omega)]

/-- Every other entry. -/
theorem writeCode_other (s : State) (x y : Byte) (code : List Bool) (h : code.length ≤ 255) (hne : y ≠ x) :
    SameEntry s (s.writeCode x code) y := by
  have hp := paddedCode_length code (by omega)
  refine ⟨by rw [writeCode_lenOf, if_neg hne], fun j hj => ?_⟩
  rw [writeCode_cbits, Memory.get_setRun_outside]
  rw [hp]
  have : x.toNat ≠ y.toNat := fun h => hne (BitVec.eq_of_toNat_eq h.symm)
  simp only [cbitsCell, Config.cbitsW] at *
  omega

theorem leafCode_length (path : List Bool) (h : path.length ≤ 255) :
    (leafCode path).length ≤ 255 ∧ 1 ≤ (leafCode path).length := by
  unfold leafCode
  split
  · simp
  · omega

/-- One level of VISIT, the depth check as a check on `room`. -/
theorem visitRec_eq (room h : Nat) (path : List Bool) (s : State) :
    visitRec room h path s =
      if s.nodeCount.toNat < s.countVisit.eng.visits then .raise .treeMalformed (BitVec.ofNat 32 h) s.countVisit
      else
        .withRead (readCell .tree s.tree h) fun w =>
          if nodeIsLeaf w then
            if s.lenOf (nodeSym w) ≠ 0#8 then .raise .dupSymbol (BitVec.ofNat 32 h) s.countVisit
            else .ok (s.countVisit.writeCode (nodeSym w) (leafCode path))
          else if s.nodeCount.toNat ≤ nodeLeft w then .raise .treeMalformed (BitVec.ofNat 32 h) s.countVisit
          else if s.nodeCount.toNat ≤ nodeRight w then .raise .treeMalformed (BitVec.ofNat 32 h) s.countVisit
          else if room = 0 then .raise .treeMalformed (BitVec.ofNat 32 h) s.countVisit
          else
            (visitRec (room - 1) (nodeLeft w) (path ++ [false]) s.countVisit).andThen
              (visitRec (room - 1) (nodeRight w) (path ++ [true])) := by
  cases room with
  | zero => rw [visitRec]; rfl
  | succ room => rw [visitRec]; rfl

/-- What VISIT writes: LEN, CBITS and the visit counter (R71). -/
def VisitWrites (s t : State) : Prop :=
  ∃ l c v, t = { s with lens := l, cbits := c, eng := { s.eng with visits := v } }

theorem VisitWrites.trans {s t u : State} (h : VisitWrites s t) (k : VisitWrites t u) : VisitWrites s u := by
  obtain ⟨_, _, _, rfl⟩ := h
  obtain ⟨_, _, _, rfl⟩ := k
  exact ⟨_, _, _, rfl⟩

theorem countVisit_writes (s : State) : VisitWrites s s.countVisit := ⟨_, _, _, rfl⟩

theorem writeCode_writes (s : State) (x : Byte) (code : List Bool) : VisitWrites s (s.writeCode x code) :=
  ⟨_, _, _, rfl⟩

/-- Everything a visit of handle `h` under `path` can do by any end of it: the entries with a code before it and those
without one after it are unchanged, and a new code is a path to a leaf below `h`. -/
structure VisitResult (room h : Nat) (path : List Bool) (s t : State) : Prop where
  writes : VisitWrites s t
  coded : ∀ x, s.lenOf x ≠ 0#8 → SameEntry s t x
  uncoded : ∀ x, t.lenOf x = 0#8 → SameEntry s t x
  new : ∀ x, s.lenOf x = 0#8 → t.lenOf x ≠ 0#8 →
    ∃ q, s.LeafAt h q x ∧ q.length ≤ room ∧ EntryIs t x (leafCode (path ++ q))

/-- LeafAt depends on TREE only. -/
theorem State.LeafAt.congr {s t : State} (ht : t.tree = s.tree) {h : Nat} {q : List Bool} {x : Byte}
    (hl : s.LeafAt h q x) : t.LeafAt h q x := by
  induction hl with
  | leaf h w a b => exact .leaf h w (by rw [ht]; exact a) b
  | left h w p x a b _ ih => exact .left h w p x (by rw [ht]; exact a) b ih
  | right h w p x a b _ ih => exact .right h w p x (by rw [ht]; exact a) b ih

theorem countVisit_result (room h : Nat) (path : List Bool) (s : State) : VisitResult room h path s s.countVisit :=
  ⟨countVisit_writes s, fun _ _ => ⟨rfl, fun _ _ => rfl⟩, fun _ _ => ⟨rfl, fun _ _ => rfl⟩, fun _ a b => absurd a b⟩

/-- A leaf's action on a symbol without a code. -/
theorem visitLeaf_result (room h : Nat) (path : List Bool) (s : State) (w : Word) (hp : path.length ≤ 255)
    (hw : s.tree.get h = some w) (hl : nodeIsLeaf w = true) (hz : s.lenOf (nodeSym w) = 0#8) :
    VisitResult room h path s (s.countVisit.writeCode (nodeSym w) (leafCode path)) := by
  obtain ⟨hlen, hpos⟩ := leafCode_length path hp
  have hne0 : BitVec.ofNat 8 (leafCode path).length ≠ 0#8 := by
    intro h0
    have := congrArg BitVec.toNat h0
    simp only [BitVec.toNat_ofNat] at this
    omega
  have hother : ∀ x, x ≠ nodeSym w → SameEntry s (s.countVisit.writeCode (nodeSym w) (leafCode path)) x :=
    fun x hne => SameEntry.trans (t := s.countVisit) ⟨rfl, fun _ _ => rfl⟩ (writeCode_other _ _ _ _ hlen hne)
  refine ⟨(countVisit_writes s).trans (writeCode_writes _ _ _), fun x hx => ?_, fun x hx => ?_, fun x hx hx' => ?_⟩
  · exact hother x fun h => hx (h ▸ hz)
  · refine hother x fun h => ?_
    rw [writeCode_lenOf, if_pos h] at hx
    exact hne0 hx
  · have he : x = nodeSym w := by
      by_contra hne
      rw [writeCode_lenOf, if_neg hne] at hx'
      exact hx' hx
    subst he
    exact ⟨[], .leaf h w hw hl, by simp, by simpa using writeCode_entry _ _ _ hlen⟩

/-- Everything VISIT can do, at its end or at a raise. -/
theorem visitRec_all (room : Nat) : ∀ (h : Nat) (path : List Bool) (s : State), path.length + room = 255 →
    (visitRec room h path s).All (VisitResult room h path s) := by
  induction room using Nat.strongRecOn with
  | ind room ih =>
    intro h path s hr
    have hcount := countVisit_result room h path s
    rw [visitRec_eq]
    split
    · exact hcount
    refine Body.all_withRead _ _ fun w hw => ?_
    have hw := readCell_eq_ok.1 hw
    split
    · rename_i hl
      split
      · exact hcount
      · rename_i hz
        exact visitLeaf_result room h path s w (by omega) hw hl (by simpa using hz)
    · rename_i hl
      have hl : nodeIsLeaf w = false := by simpa using hl
      split
      · exact hcount
      split
      · exact hcount
      split
      · exact hcount
      have hL := ih (room - 1) (by omega) (nodeLeft w) (path ++ [false]) s.countVisit (by simp; omega)
      have lift : ∀ t, VisitResult (room - 1) (nodeLeft w) (path ++ [false]) s.countVisit t →
          VisitResult room h path s t := by
        intro t ht
        refine ⟨(countVisit_writes s).trans ht.writes, ht.coded, ht.uncoded, fun x a b => ?_⟩
        obtain ⟨q, h1, h2, h3⟩ := ht.new x a b
        exact ⟨false :: q, .left h w q x hw hl (h1.congr (s := s.countVisit) (t := s) rfl), by simp; omega,
          by simpa using h3⟩
      refine hL.andThen lift fun t ht => ?_
      refine (ih (room - 1) (by omega) (nodeRight w) (path ++ [true]) t (by simp; omega)).mono fun u hu => ?_
      have ht' := lift t ht
      have htree : s.tree = t.tree := by
        obtain ⟨_, _, _, rfl⟩ := ht'.writes
        rfl
      refine ⟨ht'.writes.trans hu.writes, fun x hx => ?_, fun x hx => ?_, fun x hx hx' => ?_⟩
      · have h1 := ht'.coded x hx
        exact h1.trans (hu.coded x (by rw [h1.1]; exact hx))
      · have h1 := hu.uncoded x hx
        exact (ht'.uncoded x (by rw [← h1.1]; exact hx)).trans h1
      · by_cases hm : t.lenOf x = 0#8
        · obtain ⟨q, h1, h2, h3⟩ := hu.new x hm hx'
          exact ⟨true :: q, .right h w q x hw hl (h1.congr htree), by simp; omega, by simpa using h3⟩
        · obtain ⟨q, h1, h2, h3⟩ := ht'.new x hx hm
          exact ⟨q, h1, h2, h3.same (hu.coded x hm)⟩

/-- HoldsTree depends on TREE and NODE_COUNT only. -/
theorem State.HoldsTree.congr {s t : State} (ht : t.tree = s.tree) (hn : t.nodeCount = s.nodeCount) {T : CodeTree}
    {h : Nat} (hh : s.HoldsTree h T) : t.HoldsTree h T := by
  induction T generalizing h with
  | leaf x => simpa only [State.HoldsTree, ht] using hh
  | node l r ihl ihr =>
    obtain ⟨w, h1, h2, h3, h4, h5, h6⟩ := hh
    exact ⟨w, by rw [ht]; exact h1, h2, by rw [hn]; exact h3, by rw [hn]; exact h4, ihl h5, ihr h6⟩

/-- TREE holds at most one tree at a handle. -/
theorem State.HoldsTree.unique {s : State} {T T' : CodeTree} {h : Nat} (a : s.HoldsTree h T) (b : s.HoldsTree h T') :
    T = T' := by
  induction T generalizing h T' with
  | leaf x =>
    obtain ⟨w, h1, h2, h3⟩ := a
    cases T' with
    | leaf y =>
      obtain ⟨w', k1, -, k3⟩ := b
      rw [h1] at k1
      cases k1
      rw [← h3, ← k3]
    | node l r =>
      obtain ⟨w', k1, k2, -⟩ := b
      rw [h1] at k1
      cases k1
      rw [h2] at k2
      cases k2
  | node l r ihl ihr =>
    obtain ⟨w, h1, h2, -, -, h5, h6⟩ := a
    cases T' with
    | leaf y =>
      obtain ⟨w', k1, k2, -⟩ := b
      rw [h1] at k1
      cases k1
      rw [h2] at k2
      cases k2
    | node l' r' =>
      obtain ⟨w', k1, -, -, -, k5, k6⟩ := b
      rw [h1] at k1
      cases k1
      rw [ihl h5 k5, ihr h6 k6]

end Sys2Proof.Machine
end

