-- ==== Sys2Proof/Laws/PerInstr.lean ====
section
/-! SUPPORT. Per-instruction statements: the word of every command is a legal command word that decodes to it (R91, R92). -/
namespace Sys2Proof.Laws.EncodedLegal

/-- The word of `i` passes R91's check, and its OP is the opcode of `i`. -/
def Statement (i : Sys2Proof.Instr) : Prop :=
  Sys2Proof.cmdWordLegal (Sys2Proof.encode i) = true ∧ Sys2Proof.cmdOp (Sys2Proof.encode i) = Sys2Proof.opcode i

theorem nop : Statement .nop := ⟨rfl, rfl⟩
theorem buildCodes : Statement .buildCodes := ⟨rfl, rfl⟩
theorem encode : Statement .encode := ⟨rfl, rfl⟩
theorem pack : Statement .pack := ⟨rfl, rfl⟩
theorem run : Statement .run := ⟨rfl, rfl⟩
theorem clearCodes : Statement .clearCodes := ⟨rfl, rfl⟩

end Sys2Proof.Laws.EncodedLegal
end

