-- ==== Sys2Proof/Laws/Streams.lean ====
section
/-! SUPPORT. The laws of the streams: one iteration and a prefix of ENCODE's loop (R132), PACK's full groups (R152), and the sum of R152 and R153 as the value of the group's bits. -/
namespace Sys2Proof.Machine

/-! ## ENCODE -/

/-- An iteration on a coded symbol whose code fits. -/
theorem encodeSymbol_ok (u : State) (y : Byte) (code : List Bool) (hi : u.inp.get u.eng.symIdx = some y)
    (hc : u.CodeIs y code) (hne : code ≠ []) (hb : u.eng.bitCur + code.length ≤ u.params.bitDepth) :
    encodeSymbol u = .ok (u.appendCode code) := by
  have hl : (u.lenOf y).toNat ≠ 0 := by rw [hc.1]; simpa using hne
  have hr : readCells .cbits u.cbits (cbitsCell y 0) (u.lenOf y).toNat = .ok code := by
    refine readCells_eq_ok.2 ⟨hc.1.symm, fun j hj => ?_⟩
    have := hc.2 j (by rw [← hc.1]; exact hj)
    simpa [cbitsCell] using this
  unfold encodeSymbol
  rw [readCell_of_get hi, Body.withRead_ok, if_neg hl, if_neg (by rw [hc.1]; omega), hr, Body.withRead_ok]

/-- An iteration on a symbol without a code. -/
theorem encodeSymbol_unknown (u : State) (x : Byte) (hi : u.inp.get u.eng.symIdx = some x) (h : u.lenOf x = 0#8) :
    encodeSymbol u = .raise .unknownSymbol (BitVec.ofNat 32 u.eng.symIdx) u.storeBitLen := by
  unfold encodeSymbol
  rw [readCell_of_get hi, Body.withRead_ok, if_pos (by rw [h]; rfl)]

/-- An iteration on a symbol whose code does not fit. -/
theorem encodeSymbol_overflow (u : State) (x : Byte) (hi : u.inp.get u.eng.symIdx = some x) (h : u.lenOf x ≠ 0#8)
    (hb : u.params.bitDepth < u.eng.bitCur + (u.lenOf x).toNat) :
    encodeSymbol u = .raise .bitOverflow (BitVec.ofNat 32 u.eng.symIdx) u.storeBitLen := by
  have h0 : ¬ (u.lenOf x).toNat = 0 := fun h' => h (BitVec.eq_of_toNat_eq h')
  unfold encodeSymbol
  rw [readCell_of_get hi, Body.withRead_ok, if_neg h0, if_pos hb]

/-- The loop over coded symbols whose codes fit: their codes in a row from the cursor on, no other cell changed. -/
theorem encodeLoop_prefix (code : Byte → List Bool) (pre : List Byte) (m : Nat) (u : State)
    (hi : ∀ k, k < pre.length → u.inp.get (u.eng.symIdx + k) = pre[k]?)
    (hc : ∀ y ∈ pre, u.CodeIs y (code y) ∧ code y ≠ [])
    (hb : u.eng.bitCur + (pre.flatMap code).length ≤ u.params.bitDepth) :
    ∃ B, encodeLoop (pre.length + m) u = encodeLoop m { u with
        bit := B
        eng := { u.eng with
          symIdx := u.eng.symIdx + pre.length
          bitCur := u.eng.bitCur + (pre.flatMap code).length } } ∧
      ∀ j, B.get j =
        if u.eng.bitCur ≤ j ∧ j < u.eng.bitCur + (pre.flatMap code).length then
          (pre.flatMap code)[j - u.eng.bitCur]?
        else u.bit.get j := by
  induction pre generalizing u with
  | nil => exact ⟨u.bit, by simp, fun j => by rw [if_neg (by simp)]⟩
  | cons y pre ih =>
    have hy := hc y (by simp)
    have h0 : u.inp.get u.eng.symIdx = some y := by simpa using hi 0 (by simp)
    simp only [List.flatMap_cons, List.length_append] at hb
    have hs := encodeSymbol_ok u y (code y) h0 hy.1 hy.2 (by omega)
    obtain ⟨B, hB, hg⟩ := ih (u.appendCode (code y)) (fun k hk => by
        have := hi (k + 1) (by simpa using hk)
        simp only [appendCode_inp, appendCode_eng]
        rw [show u.eng.symIdx + 1 + k = u.eng.symIdx + (k + 1) by omega, this]
        simp)
      (fun z hz => hc z (by simp [hz]))
      (by show u.eng.bitCur + (code y).length + (pre.flatMap code).length ≤ u.params.bitDepth; omega)
    refine ⟨B, ?_, fun j => ?_⟩
    · rw [show (y :: pre).length + m = (pre.length + m) + 1 by simp; omega, encodeLoop, hs, Body.andThen_ok, hB]
      congr 1
      simp [State.appendCode]
      omega
    · have hj : B.get j =
          if u.eng.bitCur + (code y).length ≤ j ∧ j < u.eng.bitCur + (code y).length + (pre.flatMap code).length then
            (pre.flatMap code)[j - (u.eng.bitCur + (code y).length)]?
          else (u.bit.setRun u.eng.bitCur (code y)).get j := hg j
      rw [hj, List.flatMap_cons, List.length_append, Memory.get_setRun]
      by_cases h1 : j < u.eng.bitCur
      · rw [if_neg (by omega), if_neg (by omega), if_neg (by omega)]
      · by_cases h2 : j < u.eng.bitCur + (code y).length
        · rw [if_neg (by omega), if_pos (by omega), if_pos (by omega), List.getElem?_append_left (by omega)]
        · by_cases h3 : j < u.eng.bitCur + ((code y).length + (pre.flatMap code).length)
          · rw [if_pos (by omega), if_pos (by omega), List.getElem?_append_right (by omega)]
            congr 1
            omega
          · rw [if_neg (by omega), if_neg (by omega), if_neg (by omega)]

/-! ## PACK -/

/-- The bits of group k of a stream. -/
def groupBits (bits : List Bool) (k : Nat) : List Bool := (bits.drop (8 * k)).take 8

/-- The loop over `m` full groups of a written stream: their bytes in a row, no other byte changed. -/
theorem packLoop_ok (bits : List Bool) (m : Nat) (u : State) (k0 : Nat) (hk : u.eng.byteIdx = k0)
    (hl : 8 * (k0 + m) ≤ bits.length) (hb : u.StreamIs bits) :
    ∃ O, packLoop m u = .ok { u with out := O, eng := { u.eng with byteIdx := k0 + m } } ∧
      ∀ k, O.get k = if k0 ≤ k ∧ k < k0 + m then some (packedByte (groupBits bits k)) else u.out.get k := by
  induction m generalizing u k0 with
  | zero => subst hk; exact ⟨u.out, rfl, fun k => by rw [if_neg (by omega)]⟩
  | succ m ih =>
    have hr : readCells .bit u.bit (8 * u.eng.byteIdx) 8 = .ok (groupBits bits k0) := by
      refine readCells_eq_ok.2 ⟨by simp [groupBits]; omega, fun j hj => ?_⟩
      rw [hk, hb _ (by omega)]
      simp only [groupBits, List.getElem?_take, List.getElem?_drop, if_pos hj]
    obtain ⟨O, h1, h2⟩ := ih (u.storeByte (groupBits bits k0)) (k0 + 1) (by simp [State.storeByte, hk]) (by omega) hb
    refine ⟨O, ?_, fun k => ?_⟩
    · rw [packLoop, packGroup, hr, Body.withRead_ok, Body.andThen_ok, h1]
      simp [State.storeByte]
      omega
    · rw [h2 k]
      simp only [State.storeByte, Memory.get_set, hk]
      by_cases c : k = k0
      · subst c
        rw [if_neg (by omega), if_pos rfl, if_pos (by omega)]
      · by_cases d : k0 + 1 ≤ k ∧ k < k0 + 1 + m
        · rw [if_pos d, if_pos (by omega)]
        · rw [if_neg d, if_neg c, if_neg (by omega)]

theorem groupValue_append (bits : List Bool) (b : Bool) :
    groupValue (bits ++ [b]) = 2 * groupValue bits + b.toNat := by
  unfold groupValue
  rw [List.length_append, List.length_singleton, List.range_succ, List.map_append, List.sum_append]
  have h1 : (List.map (fun t => ((bits ++ [b]).getD t false).toNat * 2 ^ (bits.length + 1 - 1 - t))
      (List.range bits.length)).sum =
      2 * (List.map (fun t => (bits.getD t false).toNat * 2 ^ (bits.length - 1 - t)) (List.range bits.length)).sum := by
    rw [← List.sum_map_mul_left]
    congr 1
    apply List.map_congr_left
    intro t ht
    have ht := List.mem_range.1 ht
    have e : (bits ++ [b]).getD t false = bits.getD t false := by
      simp [List.getD_eq_getElem?_getD, List.getElem?_append_left ht]
    rw [e, show bits.length + 1 - 1 - t = (bits.length - 1 - t) + 1 by omega, Nat.pow_succ]
    ring
  rw [h1]
  simp [List.getD_eq_getElem?_getD]

/-- The rules' sum is the group's bits read as a number, the first bit most significant. -/
theorem groupValue_eq (bits : List Bool) : groupValue bits = bitsValue bits := by
  induction bits using List.reverseRecOn with
  | nil => rfl
  | append_singleton bits b ih => rw [groupValue_append, bitsValue_append_one, ih]

theorem bitsValue_lt (bits : List Bool) : bitsValue bits < 2 ^ bits.length := by
  induction bits using List.reverseRecOn with
  | nil => decide
  | append_singleton bits b ih =>
    rw [bitsValue_append_one, List.length_append, List.length_singleton, Nat.pow_succ]
    cases b <;> simp <;> omega

end Sys2Proof.Machine
end

