-- ==== Sys2Proof/Tests/Slice0.lean ====
section
/-! SUPPORT. The model's own tests: the well-formedness checks, command words written out from R90 to R92, vectors of spec/95_test_vectors.md, and a witness for the hypotheses of every statement that has some. -/
namespace Sys2Proof.Tests

open Sys2Proof Sys2Proof.Machine

/-- A field of the next state. -/
def onNext {β : Type} (o : Host.Outcome State Fault Refusal) (f : State → β) : Option β :=
  match o with
  | .next s => some (f s)
  | .fault _ => none
  | .refused _ => none

/-- Why a step stopped. -/
def onFault (o : Host.Outcome State Fault Refusal) : Option Fault :=
  match o with
  | .next _ => none
  | .fault r => some r
  | .refused _ => none

/-- Legal parameters, small. -/
def small : Config.Params := { base := 0x20000, inDepth := 8, bitDepth := 32 }

/-- V-B2's tree with "aaabbc" as the input (V-S4), OUT preset to 0xEE. -/
def ready : State :=
  { State.resetOf small with
    tree := [(0, 0x00000061#32), (1, 0x00000062#32), (2, 0x00000063#32), (3, 0x80010002#32), (4, 0x80030000#32)]
    nodeCount := 5#32
    root := 4#32
    inp := [(0, 0x61#8), (1, 0x61#8), (2, 0x61#8), (3, 0x62#8), (4, 0x62#8), (5, 0x63#8)]
    inLen := 6#32
    out := [(0, 0xEE#8), (1, 0xEE#8), (2, 0xEE#8), (3, 0xEE#8)] }

/-- V-B2's code table, a = "0", b = "11", c = "10", its coded cells only. -/
def coded : State :=
  { ready with
    lens := [(0x61, 1#8), (0x62, 2#8), (0x63, 2#8)]
    cbits := [(0x6100, false), (0x6200, true), (0x6201, true), (0x6300, true), (0x6301, false)] }

/-- V-P1's stream of 10 bits, "1101001011". -/
def stream10 : List Bool := [true, true, false, true, false, false, true, false, true, true]

def packReady : State :=
  { ready with bit := Memory.cells 0 stream10, bitLen := 10#32 }

/-- A command running, nothing at the port. -/
def running (v : Word) : State := ready.accept v

/-! ## Well-formedness (ill-formed terms) -/

theorem test_word_mbz_refused : cmdWordLegal 0x00000101#32 = false := by decide
theorem test_word_op_refused : cmdWordLegal 0x00000006#32 = false := by decide
theorem test_word_top_legal : cmdWordLegal 0x00000005#32 = true := by decide
theorem test_access_size_refused : accessLegal 0x004 1 = false := by decide
theorem test_access_offset_refused : accessLegal 0x006 4 = false := by decide
theorem test_params_legal : small.wf = true ∧ Config.Params.default.wf = true := by decide
theorem test_params_refused :
    ({ small with base := 0x10000 } : Config.Params).wf = false ∧
    ({ small with inDepth := 6 } : Config.Params).wf = false ∧
    ({ small with inDepth := 0 } : Config.Params).wf = false ∧
    ({ small with inDepth := 32772 } : Config.Params).wf = false ∧
    ({ small with bitDepth := 48 } : Config.Params).wf = false ∧
    ({ small with bitDepth := 0 } : Config.Params).wf = false ∧
    ({ small with bitDepth := 262176 } : Config.Params).wf = false := by decide

/-! ## Decoding: R90's fields, MBZ 24 bits above OP 8 bits, with R92's opcodes bit by bit -/

theorem test_decode_nop : decodeWord 0b00000000000000000000000000000000#32 = .ok .nop := by rfl
theorem test_decode_build_codes : decodeWord 0b00000000000000000000000000000001#32 = .ok .buildCodes := by rfl
theorem test_decode_encode : decodeWord 0b00000000000000000000000000000010#32 = .ok .encode := by rfl
theorem test_decode_pack : decodeWord 0b00000000000000000000000000000011#32 = .ok .pack := by rfl
theorem test_decode_run : decodeWord 0b00000000000000000000000000000100#32 = .ok .run := by rfl
theorem test_decode_clear_codes : decodeWord 0b00000000000000000000000000000101#32 = .ok .clearCodes := by rfl
theorem test_decode_reserved_op : decodeWord 0x000000FF#32 = .error (.reservedOpcode 0xFF#8) := by rfl
theorem test_decode_mbz : decodeWord 0x00000101#32 = .error (.mbzNonzero 0x00000101#32) := by rfl
theorem test_decode_table_word :
    decodeTableWord 32 5 = some .clearCodes ∧ decodeTableWord 8 0x104 = some .run ∧
    decodeTableWord 64 0x100000000 = none := by decide

/-! ## The first command after reset (V-S1, V-S2, V-S3, V-S5, and the empty inputs of R132 and R152) -/

def firstStatus (w : Nat) : Option Word := onNext (step (State.reset.withFetchWord 32 w)) fun t => t.status.word

theorem test_first_nop : firstStatus 0 = some 0x00000002#32 := by decide
theorem test_first_build_codes : firstStatus 1 = some 0x00010112#32 := by decide
theorem test_first_encode : firstStatus 2 = some 0x00020002#32 := by decide
theorem test_first_pack : firstStatus 3 = some 0x00030002#32 := by decide
theorem test_first_run : firstStatus 4 = some 0x00040112#32 := by decide
theorem test_first_clear_codes : firstStatus 5 = some 0x00050002#32 := by decide
theorem test_first_illegal : firstStatus 6 = some 0x00060082#32 ∧ firstStatus 0x101 = some 0x00010082#32 := by decide

/-! ## Vectors of spec/95_test_vectors.md -/

/-- V-B2: 'b' is "11", 'c' is "10". -/
theorem test_build_v_b2 :
    (onNext (exec .buildCodes ready) fun t => (t.lenOf 0x61#8, t.lenOf 0x62#8, t.lenOf 0x63#8, t.lenOf 0x64#8)) =
      some (1#8, 2#8, 2#8, 0#8) := by decide

/-- V-B8: the second leaf of 'a' is handle 1. -/
theorem test_build_v_b8 :
    (onNext (exec .buildCodes { ready with
        tree := [(0, 0x61#32), (1, 0x61#32), (2, 0x80010000#32)], nodeCount := 3#32, root := 2#32 })
      fun t => (t.status.err, t.status.estage, t.errInfo, t.lenOf 0x61#8)) =
      some (.dupSymbol, .build, 1#32, 1#8) := by decide

/-- V-C1. -/
theorem test_clear_v_c1 :
    (onNext (exec .clearCodes coded) fun t => (t.lens, t.cbits.get (cbitsCell 0x62#8 1))) =
      some ([], some true) := by decide

/-- V-E1. -/
theorem test_encode_v_e1 :
    (onNext (exec .encode coded) fun t => (t.bitLen, t.bit)) =
      some (9#32, Memory.cells 0 [false, false, false, true, true, true, true, true, false]) := by decide

/-- V-E3, the input "abd". -/
theorem test_encode_v_e3 :
    (onNext (exec .encode { coded with inp := [(0, 0x61#8), (1, 0x62#8), (2, 0x64#8)], inLen := 3#32 })
      fun t => (t.status.err, t.errInfo, t.bitLen, t.bit)) =
      some (.unknownSymbol, 2#32, 3#32, Memory.cells 0 [false, true, true]) := by decide

/-- V-P1, the source's own example. -/
theorem test_pack_v_p1 :
    (onNext (exec .pack packReady) fun t => (t.outLen, t.out)) =
      some (2#32, [(0, 0xD2#8), (1, 0x03#8), (2, 0xEE#8), (3, 0xEE#8)]) := by decide

/-- V-P10, "101010101010101". -/
theorem test_pack_v_p10 :
    (onNext (exec .pack { packReady with
        bit := Memory.cells 0 ((List.range 15).map fun k => k % 2 == 0), bitLen := 15#32 })
      fun t => (t.outLen, t.out.get 0, t.out.get 1)) = some (2#32, some 0xAA#8, some 0x55#8) := by decide

/-- V-S4. -/
theorem test_run_v_s4 :
    (onNext (exec .run (running 4#32)) fun t => (t.bitLen, t.outLen, t.out)) =
      some (9#32, 2#32, [(0, 0x1F#8), (1, 0x00#8), (2, 0xEE#8), (3, 0xEE#8)]) := by decide +kernel

/-- V-S6, the single-leaf tree and "aab". -/
theorem test_run_v_s6 :
    (onNext (exec .run ({ ready with
        tree := [(0, 0x61#32)], nodeCount := 1#32, root := 0#32, inLen := 3#32
        inp := [(0, 0x61#8), (1, 0x61#8), (2, 0x62#8)] }.accept 4#32))
      fun t => (t.status.word, t.errInfo, t.bitLen, t.outLen)) =
      some (0x00040222#32, 2#32, 2#32, 0#32) := by decide

/-- V-R5, V-R6, V-R7. -/
theorem test_bus_v_r6 :
    (onNext (ready.hostWrites 0x05840 0xFFFFFF03#32) fun t => (t.lenOf 0x61#8, onNext (t.hostReads 0x05840) (·.busData))) =
      some (3#8, some (some 3#32)) := by decide
theorem test_bus_v_r5 :
    onFault (ready.portEvent (.read (0x20000 + 0x006) 4)) = some (.accessError 0x006) ∧
    onFault (ready.portEvent (.write (0x20000 + 0x004) 1 0#32)) = some (.accessError 0x004) := by decide

/-- V-S10. -/
theorem test_bus_v_s10 :
    (onNext ((running 3#32).hostWrites 0x014 7#32) fun t => (t.nodeCount, t.status.ovr)) = some (5#32, true) := by decide

/-- A half-written OUT word: its unwritten byte makes the read stop (log 4). -/
theorem test_bus_unwritten :
    onFault (State.hostReads { ready with out := [(0, 0xA5#8)] } 0x18000) = some (.unwrittenRead .out 1) := by decide

/-! ## Witnesses: each statement's hypotheses met together, at the edges of their ranges -/

theorem next_of {o : Host.Outcome State Fault Refusal} (h : (onNext o fun _ => ()).isSome = true) :
    ∃ t, o = .next t := by
  cases o with
  | next t => exact ⟨t, rfl⟩
  | fault r => cases h
  | refused r => cases h

theorem next_with {o : Host.Outcome State Fault Refusal} {p : State → Bool} (h : onNext o p = some true) :
    ∃ t, o = .next t ∧ p t = true := by
  cases o with
  | next t => exact ⟨t, rfl, by simpa [onNext] using h⟩
  | fault r => cases h
  | refused r => cases h

/-- V-B2's tree. -/
def abcTree : CodeTree := .node (.leaf 0x61#8) (.node (.leaf 0x63#8) (.leaf 0x62#8))

/-- V-B1's tree, a single leaf, in an instance of the smallest parameters. -/
def single : State :=
  { State.resetOf { base := 0, inDepth := 4, bitDepth := 32 } with tree := [(0, 0x61#32)], nodeCount := 1#32 }

/-- Symbol 0x00 with a code of 32 bits, the whole of BIT. -/
def long : State :=
  { State.resetOf small with
    lens := [(0, 32#8)]
    cbits := Memory.cells 0 (List.replicate 32 true)
    inp := [(0, 0x00#8), (1, 0x00#8), (2, 0x07#8)]
    inLen := 2#32 }

theorem test_witness_word_decodes : decodeWord 0x00000005#32 = .ok .clearCodes := rfl

theorem test_witness_step_runs_held :
    (running 5#32).status.busy = true ∧ decodeWord (0#24 ++ (running 5#32).status.lastop) = .ok .clearCodes ∧
    (running 5#32).port = [] ∧
    ∃ e rest, ({ running 5#32 with port := [.powerOn] } : State).port = e :: rest := ⟨rfl, rfl, rfl, _, _, rfl⟩

theorem test_witness_idle_step :
    ready.status.busy = false ∧ ready.port = [] ∧
    ∃ e rest, ({ ready with port := [.read 0x20000 4] } : State).port = e :: rest := ⟨rfl, rfl, _, _, rfl⟩

theorem test_witness_fetched_word : decodeTableWord 32 5 = some .clearCodes ∧ decodeTableWord 32 0 = some .nop := by
  decide

theorem test_witness_command_words :
    ready.status.busy = false ∧ (5#32).toNat ≤ 5 ∧ 5 < (6#32).toNat ∧ 5 < (0x100#32).toNat ∧
    5 < (0xFFFFFFFF#32).toNat := by decide

theorem test_witness_exec_next :
    (∃ t, exec .nop ready = .next t) ∧ (∃ t, exec .buildCodes ready = .next t) ∧ (∃ t, exec .encode coded = .next t) ∧
    (∃ t, exec .pack packReady = .next t) ∧ (∃ t, exec .run single = .next t) ∧
    (∃ t, exec .clearCodes coded = .next t) :=
  ⟨next_of (by decide), next_of (by decide), next_of (by decide), next_of (by decide), next_of (by decide),
    next_of (by decide)⟩

theorem test_witness_nop_after_reset :
    ∃ t, exec .nop ((State.resetOf small).accept (encode .nop)) = .next t := ⟨_, rfl⟩

theorem test_witness_clear_then_encode :
    (∃ t, exec .clearCodes coded = .next t) ∧ coded.inp.get 0 = some 0x61#8 ∧ 0 < coded.inLen.toNat ∧
    coded.inLen.toNat ≤ coded.params.inDepth := ⟨⟨_, rfl⟩, rfl, by decide, by decide⟩

theorem test_witness_build_pre_checks :
    512 < ({ ready with nodeCount := 513#32 } : State).nodeCount.toNat ∧
    ({ ready with nodeCount := 0#32 } : State).nodeCount.toNat = 0 ∧
    (let s : State := { ready with nodeCount := 512#32, root := 512#32 }
     0 < s.nodeCount.toNat ∧ s.nodeCount.toNat ≤ 512 ∧ s.nodeCount.toNat ≤ s.root.toNat) := by decide

theorem test_witness_build_ready : ready.BuildReady abcTree ∧ ready.errInfo = 0#32 :=
  ⟨⟨by decide, by decide, ⟨_, rfl, rfl, by decide, by decide, ⟨_, rfl, rfl, rfl⟩,
    ⟨_, rfl, rfl, by decide, by decide, ⟨_, rfl, rfl, rfl⟩, ⟨_, rfl, rfl, rfl⟩⟩⟩, by decide, by decide, by decide⟩, rfl⟩

theorem test_witness_build_ready_single : single.BuildReady (.leaf 0x61#8) ∧ single.errInfo = 0#32 :=
  ⟨⟨by decide, by decide, ⟨_, rfl, rfl, rfl⟩, by decide, by decide, by decide⟩, rfl⟩

theorem test_witness_build_success :
    ∃ t, exec .buildCodes ready = .next t ∧ (t.status.err == .none && t.lenOf 0x61#8 != 0#8) = true :=
  next_with (by decide)

theorem test_witness_build_written : ∀ h, h < single.nodeCount.toNat → h < 512 → ∃ w, single.tree.get h = some w := by
  intro h h1 _
  obtain rfl : h = 0 := by
    have : h < 1 := h1
    omega
  exact ⟨_, rfl⟩

/-- Two different coded symbols with their codes, and one symbol sequence on both sides. -/
theorem test_witness_prefix_free :
    let code : Byte → List Bool := fun x => if x = 0x61#8 then [false] else [true, true]
    ∃ t, exec .buildCodes ready = .next t ∧ t.status.err = .none ∧ (0x61#8 : Byte) ≠ 0x62#8 ∧
      (∀ x, x ∈ [0x61#8, 0x62#8] ++ [0x61#8, 0x62#8] → t.lenOf x ≠ 0#8 ∧ t.CodeIs x (code x)) ∧
      [0x61#8, 0x62#8].flatMap code = [0x61#8, 0x62#8].flatMap code := by
  intro code
  have h : onNext (exec .buildCodes ready) (fun t =>
      t.status.err == .none && (t.lenOf 0x61#8 == 1#8 && (t.lenOf 0x62#8 == 2#8 &&
        (t.cbits.get (cbitsCell 0x61#8 0) == some false && (t.cbits.get (cbitsCell 0x62#8 0) == some true &&
        t.cbits.get (cbitsCell 0x62#8 1) == some true))))) = some true := by decide +kernel
  obtain ⟨t, ht, hp⟩ := next_with h
  simp only [Bool.and_eq_true, beq_iff_eq] at hp
  obtain ⟨he, hla, hlb, ha, hb0, hb1⟩ := hp
  refine ⟨t, ht, he, by decide, fun x hx => ?_, rfl⟩
  have hx : x = 0x61#8 ∨ x = 0x62#8 := by
    simp only [List.cons_append, List.nil_append, List.mem_cons, List.not_mem_nil, or_false] at hx
    rcases hx with h | h | h | h
    exacts [.inl h, .inr h, .inl h, .inr h]
  rcases hx with rfl | rfl
  · refine ⟨by rw [hla]; decide, by rw [hla]; rfl, fun j hj => ?_⟩
    have hj : j < 1 := hj
    interval_cases j
    exact ha
  · refine ⟨by rw [hlb]; decide, by rw [hlb]; rfl, fun j hj => ?_⟩
    have hj : j < 2 := hj
    interval_cases j
    · exact hb0
    · exact hb1

theorem test_witness_build_leaf_codes :
    (∃ t, exec .buildCodes single = .next t ∧ (t.lenOf 0x61#8 != 0#8) = true) ∧
    0 < single.nodeCount.toNat ∧ single.nodeCount.toNat ≤ 512 ∧ single.root.toNat < single.nodeCount.toNat :=
  ⟨next_with (by decide), by decide, by decide, by decide⟩

/-- The leaf word of 'a' with ignored bits set, and an unreachable word beside it. -/
theorem test_witness_build_other_tree :
    (∃ t, exec .buildCodes single = .next t) ∧
    ∀ h w, single.Reachable h → h < single.nodeCount.toNat → single.tree.get h = some w →
      ∃ w', Memory.get [(0, 0x7FFFFF61#32), (1, 0#32)] h = some w' ∧ sameNode w w' := by
  refine ⟨next_of (by decide), fun h w _ h1 h2 => ?_⟩
  obtain rfl : h = 0 := by
    have : h < 1 := h1
    omega
  cases h2
  exact ⟨0x7FFFFF61#32, rfl, rfl, fun _ => rfl, fun h => absurd h (by decide)⟩

theorem test_witness_encode_rejects : small.inDepth < ({ ready with inLen := 9#32 } : State).inLen.toNat := by decide

theorem test_witness_encode_codes :
    let code : Byte → List Bool := fun x =>
      if x = 0x61#8 then [false] else if x = 0x62#8 then [true, true] else [true, false]
    let syms : List Byte := [0x61#8, 0x61#8, 0x61#8, 0x62#8, 0x62#8, 0x63#8]
    coded.InputIs syms ∧ coded.inLen.toNat ≤ coded.params.inDepth ∧
    (∀ x, x ∈ syms → coded.CodeIs x (code x) ∧ code x ≠ []) ∧ (syms.flatMap code).length ≤ coded.params.bitDepth ∧
    coded.params.wf = true ∧ coded.errInfo = 0#32 := by
  simp only [State.InputIs, State.CodeIs]
  decide

/-- An exact fill of BIT and the end of IN. -/
theorem test_witness_encode_exact_fill :
    let code : Byte → List Bool := fun _ => List.replicate 32 true
    ({ long with inLen := 1#32 } : State).InputIs [0x00#8] ∧ long.CodeIs 0x00#8 (code 0x00#8) ∧
    ([0x00#8].flatMap code).length = long.params.bitDepth := by
  simp only [State.InputIs, State.CodeIs]
  decide

theorem test_witness_encode_error :
    let code : Byte → List Bool := fun _ => List.replicate 32 true
    ([0x00#8] : List Byte).length < long.inLen.toNat ∧ long.inLen.toNat ≤ long.params.inDepth ∧
    long.params.wf = true ∧ (∀ i, i < 1 → long.inp.get i = [0x00#8][i]?) ∧
    (∀ y, y ∈ [0x00#8] → long.CodeIs y (code y) ∧ code y ≠ []) ∧
    ([0x00#8].flatMap code).length ≤ long.params.bitDepth ∧
    (long.inp.get 1 = some 0x00#8 ∧ long.lenOf 0x00#8 ≠ 0#8 ∧
      long.params.bitDepth < ([0x00#8].flatMap code).length + (long.lenOf 0x00#8).toNat) ∧
    (({ long with inp := [(0, 0x00#8), (1, 0x07#8)] } : State).inp.get 1 = some 0x07#8 ∧ long.lenOf 0x07#8 = 0#8) := by
  simp only [State.CodeIs]
  decide

theorem test_witness_encode_bad_length :
    ∃ t, exec .encode { ready with inLen := 9#32 } = .next t ∧ (t.status.err == .badLength) = true :=
  next_with (by decide)

theorem test_witness_encode_written :
    (∀ i, i < long.inLen.toNat → i < long.params.inDepth → ∃ x, long.inp.get i = some x) ∧
    ∀ x : Byte, ∀ j, j < (long.lenOf x).toNat → ∃ b, long.cbits.get (cbitsCell x j) = some b := by
  refine ⟨fun i h _ => ?_, fun x j h => ?_⟩
  · have h : i < 2 := h
    interval_cases i <;> exact ⟨_, rfl⟩
  · by_cases hx : x = 0x00#8
    · subst hx
      have h : j < 32 := h
      interval_cases j <;> exact ⟨_, rfl⟩
    · have h0 : long.lenOf x = 0#8 := by
        have : ¬ x.toNat = 0 := fun h => hx (BitVec.eq_of_toNat_eq h)
        simp [State.lenOf, long, Memory.get, this, Memory.unlisted]
      rw [h0] at h
      exact absurd h (Nat.not_lt_zero j)

theorem test_witness_pack_rejects :
    small.bitDepth < ({ ready with bitLen := 33#32 } : State).bitLen.toNat ∧
    ∃ t, exec .pack { ready with bitLen := 33#32 } = .next t ∧ (t.status.err == .badLength) = true :=
  ⟨by decide, next_with (by decide)⟩

theorem test_witness_pack_stream :
    (packReady.bitLen.toNat = stream10.length ∧ stream10.length ≤ packReady.params.bitDepth ∧
      packReady.StreamIs stream10 ∧ packReady.errInfo = 0#32) ∧
    (ready.bitLen.toNat = ([] : List Bool).length ∧ ready.StreamIs []) := by
  simp only [State.StreamIs]
  decide

theorem test_witness_pack_pair :
    stream10.length = stream10.length ∧ packReady.StreamIs stream10 ∧
    (∃ t, exec .pack packReady = .next t ∧ (t.status.err == .none) = true) := by
  refine ⟨rfl, ?_, next_with (by decide)⟩
  simp only [State.StreamIs]
  decide

/-- RUN's three ways through: an error of stage 1, an error of stage 2, no error (here with no input). -/
theorem test_witness_run_stages :
    (∃ s1, exec .buildCodes ((State.resetOf small).accept (encode .buildCodes)) = .next s1 ∧
      (s1.status.err != .none) = true) ∧
    (∃ s1, exec .buildCodes (single.accept (encode .buildCodes)) = .next s1 ∧
      (s1.status.err == .none &&
        (onNext (exec .encode (s1.accept (encode .encode))) fun s2 =>
          s2.status.err == .none &&
            (onNext (exec .pack (s2.accept (encode .pack))) fun s3 => s3.status.err == .none) == some true) ==
          some true) = true) ∧
    (∃ s1, exec .buildCodes (({ single with inp := [(0, 0x62#8)], inLen := 1#32 } : State).accept
        (encode .buildCodes)) = .next s1 ∧
      (s1.status.err == .none &&
        (onNext (exec .encode (s1.accept (encode .encode))) fun s2 => s2.status.err != .none) == some true) = true) :=
  ⟨next_with (by decide), next_with (by decide), next_with (by decide)⟩

theorem test_witness_run_input :
    ready.params.wf = true ∧ ready.InputIs [0x61#8, 0x61#8, 0x61#8, 0x62#8, 0x62#8, 0x63#8] ∧
    ready.inLen.toNat ≤ ready.params.inDepth ∧
    (∀ x, x ∈ [0x61#8, 0x61#8, 0x61#8, 0x62#8, 0x62#8, 0x63#8] → x ∈ abcTree.symbols) ∧
    ([0x61#8, 0x61#8, 0x61#8, 0x62#8, 0x62#8, 0x63#8].flatMap abcTree.codeOf).length ≤ ready.params.bitDepth ∧
    ready.errInfo = 0#32 := by
  simp only [State.InputIs]
  decide

theorem test_witness_run_errors :
    single.params.wf = true ∧
    (∃ t, exec .run { single with nodeCount := 513#32 } = .next t ∧
      (t.status.estage == .build && t.status.err == .badLength) = true) ∧
    (∃ t, exec .run { single with inLen := 5#32 } = .next t ∧
      (t.status.estage == .encode && t.status.err == .badLength) = true) ∧
    (∃ t, exec .run single = .next t ∧ (t.status.estage == .none) = true) :=
  ⟨by decide, next_with (by decide), next_with (by decide), next_with (by decide)⟩

theorem test_witness_bad_access :
    (0x1FFFF < 0x20000 ∧ (4 ≠ 4 ∨ 0x1FFFF % 4 ≠ 0)) ∧ (0x1FFFC < 0x20000 ∧ (2 ≠ 4 ∨ 0x1FFFC % 4 ≠ 0)) := by decide

theorem test_witness_outside : 0x1FFFF < ready.params.base ∧ ready.params.base + 0x20000 ≤ 0x40000 := by decide

theorem test_witness_raz :
    small.wf = true ∧ razOffset small 0x00034 ∧ razOffset small 0x01800 ∧ razOffset small 0x04024 ∧
    razOffset small 0x08008 ∧ razOffset small 0x10004 ∧ razOffset small 0x1FFFC ∧
    (0x030 : Nat) ∈ [0x000, 0x010, 0x024, 0x028, 0x02C, 0x030] :=
  ⟨by decide, by decide, by decide, by decide, by decide, by decide, by decide, by decide⟩

theorem test_witness_read_twice : (∃ t, ready.hostReads 0x01010 = .next t) ∧ ready.status.busy = false :=
  ⟨next_of (by decide), rfl⟩

theorem test_witness_idle_windows :
    ready.status.busy = false ∧ small.wf = true ∧ 511 < 512 ∧ 1 < small.inDepth / 4 ∧ 0 < small.outDepth / 4 ∧
    0 < small.bitDepth / 32 ∧ (2#32).getLsbD 0 = false := by decide

/-- Whole words written in each window, read as the word whose fields they are. -/
theorem test_witness_window_reads :
    ready.tree.get 4 = some 0x80030000#32 ∧
    (∀ k, k < 32 → long.cbits.get (cbitsCell 0x00#8 (32 * (1 - 1) + k)) = some ((0xFFFFFFFF#32).getLsbD (31 - k))) ∧
    (∀ k, k < 4 → ready.inp.get (4 * 0 + k) = some ((0x62616161#32).extractLsb' (8 * k) 8)) ∧
    (∀ k, k < 4 → ready.out.get (4 * 0 + k) = some ((0xEEEEEEEE#32).extractLsb' (8 * k) 8)) ∧
    (∀ k, k < 32 → Memory.get (Memory.cells 0 (List.replicate 32 true)) (32 * 0 + k) =
      some ((0xFFFFFFFF#32).getLsbD (31 - k))) :=
  ⟨rfl, by decide, by decide, by decide, by decide⟩

theorem test_witness_busy_writes :
    (running 3#32).status.busy = true ∧ (running 3#32).params.wf = true ∧ mappedWord small 0x01000 ∧
    mappedWord small 0x017FC ∧ mappedWord small 0x04020 ∧ mappedWord small 0x07FE0 ∧ mappedWord small 0x08004 ∧
    mappedWord small 0x10000 ∧ mappedWord small 0x18000 ∧ (0x020 : Nat) ∈ [0x008, 0x014, 0x018, 0x01C, 0x020] :=
  ⟨by decide, by decide, by decide, by decide, by decide, by decide, by decide, by decide, by decide, by decide⟩

theorem test_witness_inv_ready : ready.Inv :=
  ⟨by decide, by decide, by decide, by decide, by decide, by decide, by decide, rfl, by decide, rfl, fun _ => rfl,
    by decide⟩

theorem test_witness_inv_busy : (running 3#32).Inv ∧ (running 3#32).status.busy = true :=
  ⟨⟨by decide, by decide, by decide, by decide, by decide, by decide, by decide, rfl, by decide, rfl, fun _ => rfl,
    by decide⟩, rfl⟩

theorem test_witness_interrupt :
    (∃ t, exec .nop ready = .next t) ∧
    (let s : State := { ready with status := { ready.status with done := true } }
     s.status.done = true ∧ (2#32).getLsbD 0 = false ∧ ∃ t, s.hostWrites 0x004 2#32 = .next t) ∧
    ((2#32).getLsbD 1 = true ∧ ∃ t, ready.hostWrites 0x00C 2#32 = .next t) ∧
    (ready.status.busy = false ∧ (5#32).toNat ≤ 5 ∧ ∃ t, ready.hostWrites 0x008 5#32 = .next t) :=
  ⟨⟨_, rfl⟩, ⟨rfl, by decide, next_of (by decide)⟩, ⟨by decide, next_of (by decide)⟩,
    ⟨rfl, by decide, next_of (by decide)⟩⟩

/-- A never-written TREE word, and the last cell or the second half of a word never written in each other window. -/
theorem test_witness_unwritten_windows :
    (ready.status.busy = false ∧ small.wf = true ∧ 511 < 512 ∧ ready.tree.get 511 = none) ∧
    Memory.Hole (Memory.cells 0 (List.replicate 31 true)) (cbitsCell 0x00#8 (32 * (1 - 1))) 32 ∧
    ready.cbits.Hole (cbitsCell 0xFF#8 (32 * (8 - 1))) 32 ∧
    (1 < small.inDepth / 4 ∧ ready.inp.Hole (4 * 1) 4) ∧
    (0 < small.bitDepth / 32 ∧ packReady.bit.Hole (32 * 0) 32) ∧
    (0 < small.outDepth / 4 ∧ Memory.Hole [(0, 0xA5#8)] (4 * 0) 4) :=
  ⟨by decide, ⟨31, by decide, rfl⟩, ⟨31, by decide, rfl⟩, ⟨by decide, 2, by decide, rfl⟩, ⟨by decide, 31, by decide, rfl⟩,
    ⟨by decide, 1, by decide, rfl⟩⟩

/-- V-B2's tree without the word of 'b', the last node of the traversal: the other four are visited before it. -/
theorem test_witness_unwritten_node :
    let s : State := { ready with
      tree := [(0, 0x00000061#32), (2, 0x00000063#32), (3, 0x80010002#32), (4, 0x80030000#32)] }
    s.nodeCount.toNat ≤ 512 ∧ s.root.toNat < s.nodeCount.toNat ∧
      s.MeetsUnwritten 1 s.root.toNat 2 4 [0x61#8, 0x63#8] ∧ 2 ≤ 255 ∧ 4 < s.nodeCount.toNat ∧
      [0x61#8, 0x63#8].Nodup := by
  intro s
  refine ⟨by decide, by decide, ?_, by decide, by decide, by decide⟩
  exact .right 4 0x80030000#32 (.leaf 0x61#8) 1 2 [0x63#8] rfl rfl (by decide) (by decide) ⟨_, rfl, rfl, rfl⟩
    (.right 3 0x80010002#32 (.leaf 0x63#8) 0 0 [] rfl rfl (by decide) (by decide) ⟨_, rfl, rfl, rfl⟩ (.here rfl))

/-- V-E1's input up to its first 'b', with that symbol, or the second bit of its code, never written. -/
theorem test_witness_unwritten_encode :
    let code : Byte → List Bool := fun _ => [false]
    let pre : List Byte := [0x61#8, 0x61#8, 0x61#8]
    (pre.length < coded.inLen.toNat ∧ coded.inLen.toNat ≤ coded.params.inDepth ∧
      (∀ i, i < pre.length → coded.inp.get i = pre[i]?) ∧ (∀ y, y ∈ pre → coded.CodeIs y (code y) ∧ code y ≠ []) ∧
      (pre.flatMap code).length ≤ coded.params.bitDepth) ∧
    Memory.get [(0, 0x61#8), (1, 0x61#8), (2, 0x61#8)] pre.length = none ∧
    (coded.inp.get pre.length = some 0x62#8 ∧ coded.lenOf 0x62#8 ≠ 0#8 ∧
      (pre.flatMap code).length + (coded.lenOf 0x62#8).toNat ≤ coded.params.bitDepth) ∧
    Memory.Hole [(0x6100, false), (0x6200, true)] (cbitsCell 0x62#8 0) (coded.lenOf 0x62#8).toNat := by
  refine ⟨?_, by decide, by decide, 1, by decide, rfl⟩
  simp only [State.CodeIs]
  decide

/-- V-P1's stream without its last bit, in the final group. -/
theorem test_witness_unwritten_pack :
    packReady.bitLen.toNat ≤ packReady.params.bitDepth ∧
    Memory.Hole (Memory.cells 0 (stream10.take 9)) 0 packReady.bitLen.toNat := ⟨by decide, 9, by decide, rfl⟩

/-- RUN's first stage, or its second after the first, at a never-written cell. -/
theorem test_witness_unwritten_run :
    onFault (exec .buildCodes { single with tree := [] }) = some (.unwrittenRead .tree 0) ∧
    (onNext (exec .buildCodes { single with inLen := 1#32 }) fun t =>
      (t.status.err, onFault (exec .encode t))) = some (.none, some (.unwrittenRead .inp 0)) := by decide

theorem test_witness_power_on : ∃ s, s = State.resetOf small := ⟨_, rfl⟩

theorem test_witness_soft_reset : (3#32).getLsbD 0 = true ∧ ready.status.busy = false := by decide

/-- For each command, a running one that a soft reset aborts. -/
theorem test_witness_abort :
    ∀ i : Instr, (running (encode i)).status.busy = true ∧ (running (encode i)).running = .ok i ∧
      (1#32).getLsbD 0 = true ∧ ∃ t, (running (encode i)).hostWrites 0x004 1#32 = .next t := by
  intro i
  cases i <;> exact ⟨rfl, rfl, by decide, next_of (by decide)⟩

theorem test_witness_legal_params :
    ({ base := 0, inDepth := 4, bitDepth := 32 } : Config.Params).wf = true ∧
    ({ base := 0x20000, inDepth := 32768, bitDepth := 262144 } : Config.Params).wf = true := by decide

theorem test_witness_inv_step :
    ready.Inv ∧ (∃ t, step ready = .next t) ∧ (running 3#32).Inv ∧ ∃ t, step (running 3#32) = .next t :=
  ⟨test_witness_inv_ready, ⟨_, rfl⟩, test_witness_inv_busy.1, next_of (by decide)⟩

theorem test_witness_busy_ends :
    (∃ t, (running 3#32).portEvent .powerOn = .next t ∧ (!t.status.busy) = true) ∧
    (∃ t, (running 3#32).hostWrites 0x004 1#32 = .next t ∧ (!t.status.busy) = true) :=
  ⟨next_with (by decide), next_with (by decide)⟩

theorem test_witness_ovr :
    (∃ t, (running 3#32).hostWrites 0x014 0#32 = .next t ∧ t.status.ovr = true) ∧
    (let s : State := { ready with status := { ready.status with ovr := true } }
     s.status.ovr = true ∧ ∃ t, s.hostWrites 0x00C 4#32 = .next t ∧ (!t.status.ovr) = true) :=
  ⟨next_with (by decide), rfl, next_with (by decide)⟩

end Sys2Proof.Tests
end

section
/-! PROOFS. BUILD_CODES by R113's recursive VISIT: the traversal with the hardware's path register and stack (R41) ends as
the recursive one does, up to those two registers, which hold no value once the command has completed. -/
namespace Sys2Proof.Machine

/-- `s` with the path register and the traversal stack (R41) set to `path` and `stack`. -/
def State.withTraversal (s : State) (path : List Bool) (stack : List (Nat × Nat)) : State :=
  { s with eng := { s.eng with path := path, stack := stack } }

@[simp] theorem withTraversal_path (s : State) (path : List Bool) (stack : List (Nat × Nat)) :
    (s.withTraversal path stack).eng.path = path := rfl
@[simp] theorem withTraversal_stack (s : State) (path : List Bool) (stack : List (Nat × Nat)) :
    (s.withTraversal path stack).eng.stack = stack := rfl

/-- `s` without what its path register and traversal stack hold, the two registers that R113's VISIT does not use. -/
def State.dropTraversal (s : State) : State := s.withTraversal [] []

@[simp] theorem dropTraversal_nodeCount (s : State) : s.dropTraversal.nodeCount = s.nodeCount := rfl
@[simp] theorem dropTraversal_tree (s : State) : s.dropTraversal.tree = s.tree := rfl
@[simp] theorem dropTraversal_visits (s : State) : s.dropTraversal.eng.visits = s.eng.visits := rfl
@[simp] theorem dropTraversal_lenOf (s : State) (x : Byte) : s.dropTraversal.lenOf x = s.lenOf x := rfl
@[simp] theorem countVisit_dropTraversal (s : State) : s.dropTraversal.countVisit = s.countVisit.dropTraversal := rfl
@[simp] theorem countVisit_lenOf (s : State) (x : Byte) : s.countVisit.lenOf x = s.lenOf x := rfl

/-- The end of a body, without what the path register and the traversal stack hold there. -/
def Body.dropTraversal : Body → Body
  | .ok s => .ok s.dropTraversal
  | .raise e info s => .raise e info s.dropTraversal
  | .fault r => .fault r

@[simp] theorem Body.dropTraversal_ok (s : State) : (Body.ok s).dropTraversal = .ok s.dropTraversal := rfl
@[simp] theorem Body.dropTraversal_raise (e : ErrCode) (info : Word) (s : State) :
    (Body.raise e info s).dropTraversal = .raise e info s.dropTraversal := rfl
@[simp] theorem Body.dropTraversal_fault (r : Fault) : (Body.fault r).dropTraversal = .fault r := rfl

/-- Completion clears the path register and the traversal stack (R41). -/
@[simp] theorem Body.dropTraversal_complete (b : Body) : b.dropTraversal.complete = b.complete := by
  cases b <;> rfl

/-- Two ways to go on that agree on what a body ends in. -/
theorem Body.All.andThen_congr {P : State → Prop} {b : Body} (h : b.All P) {f g : State → Body}
    (hfg : ∀ t, P t → f t = g t) : b.andThen f = b.andThen g := by
  cases b with
  | ok t => exact hfg t h
  | raise e v t => rfl
  | fault r => rfl

/-- The traversal from handle `h` on, with the visits that NODE_COUNT still allows. -/
def visitFrom (h : Nat) (s : State) : Body := visitLoop (s.nodeCount.toNat - s.eng.visits) h s

/-- The traversal from where a visit leads. -/
def Visit.follow : Visit → Body
  | .goto h s => visitFrom h s
  | .stop b => b

theorem visitFrom_overLimit (h : Nat) (s : State) (hv : s.nodeCount.toNat ≤ s.eng.visits) :
    visitFrom h s = .raise .treeMalformed (handleInfo h) s.countVisit := by
  rw [visitFrom, Nat.sub_eq_zero_of_le hv, visitLoop]

/-- A visit spends nothing of the limit beyond its own count. -/
theorem visitNode_goto_visits {s s' : State} {h h' : Nat} (hg : s.visitNode h = .goto h' s') :
    s'.nodeCount = s.nodeCount ∧ s'.eng.visits = s.eng.visits := by
  have hpop : ∀ u : State, u.popPending = .goto h' s' →
      s'.nodeCount = u.nodeCount ∧ s'.eng.visits = u.eng.visits := by
    intro u hu
    unfold State.popPending at hu
    split at hu
    · cases hu
    · cases hu
      exact ⟨rfl, rfl⟩
  unfold State.visitNode at hg
  split at hg
  · cases hg
  split at hg
  · unfold State.visitLeaf at hg
    split at hg
    · cases hg
    · exact hpop (s.writeCode _ _) hg
  · unfold State.visitInternal at hg
    split_ifs at hg
    cases hg
    exact ⟨rfl, rfl⟩

theorem visitFrom_belowLimit (h : Nat) (s : State) (hv : s.eng.visits < s.nodeCount.toNat) :
    visitFrom h s = (s.countVisit.visitNode h).follow := by
  rw [visitFrom, show s.nodeCount.toNat - s.eng.visits = s.nodeCount.toNat - (s.eng.visits + 1) + 1 by omega, visitLoop]
  cases hn : s.countVisit.visitNode h with
  | stop b => rfl
  | goto h' s' =>
    obtain ⟨hcount, hvisits⟩ := visitNode_goto_visits hn
    simp only [Visit.follow, visitFrom, hcount, hvisits, countVisit_nodeCount, countVisit_eng]

/-- R118: a pending branch hangs below a part of the path that a deeper branch of the path does not touch. -/
theorem popPending_follow_deeper (t : State) (path : List Bool) (b : Bool) (stack : List (Nat × Nat))
    (hs : ∀ e ∈ stack, e.2 ≤ path.length) :
    (t.withTraversal (path ++ [b]) stack).popPending.follow.dropTraversal =
      (t.withTraversal path stack).popPending.follow.dropTraversal := by
  cases stack with
  | nil => rfl
  | cons e rest =>
    have he : e.2 - 1 ≤ path.length := by have := hs e (by simp); omega
    simp [State.withTraversal, State.popPending, List.take_append_of_le_length he]

/-- R118: after a left subtree, the right one that was pending. -/
theorem popPending_follow_right (t : State) (path : List Bool) (right : Nat) (stack : List (Nat × Nat)) :
    (t.withTraversal (path ++ [false]) ((right, path.length + 1) :: stack)).popPending.follow =
      visitFrom right (t.withTraversal (path ++ [true]) stack) := by
  simp [State.withTraversal, State.popPending, Visit.follow]

/-- A state that VISIT reached from one whose path register and stack are empty has them empty. -/
theorem VisitWrites.dropTraversal_eq {s t : State} (h : VisitWrites s.dropTraversal t) : t.dropTraversal = t := by
  obtain ⟨_, _, _, rfl⟩ := h
  rfl

/-- The hardware's traversal from handle `h` does what R113's VISIT of `h` does, and where that ends without a raise goes on
with the pending branch on top of the stack (R118). -/
def VisitsSubtree (room h : Nat) (s : State) : Prop :=
  s.eng.path.length + room = 255 → (∀ e ∈ s.eng.stack, e.2 ≤ s.eng.path.length) →
    (visitFrom h s).dropTraversal = (visitRec room h s.eng.path s.dropTraversal).andThen fun t =>
      (t.withTraversal s.eng.path s.eng.stack).popPending.follow.dropTraversal

/-- Below an internal node: the left subtree with the right one pending, then the right one. -/
theorem visitFrom_descend (room left right : Nat) (s : State) (hL : ∀ u, VisitsSubtree room left u)
    (hR : ∀ u, VisitsSubtree room right u) (hroom : s.eng.path.length + (room + 1) = 255)
    (hstack : ∀ e ∈ s.eng.stack, e.2 ≤ s.eng.path.length) :
    (visitFrom left (s.withTraversal (s.eng.path ++ [false])
        ((right, s.eng.path.length + 1) :: s.eng.stack))).dropTraversal =
      ((visitRec room left (s.eng.path ++ [false]) s.dropTraversal).andThen
        (visitRec room right (s.eng.path ++ [true]))).andThen fun t =>
          (t.withTraversal s.eng.path s.eng.stack).popPending.follow.dropTraversal := by
  have hstackL : ∀ e ∈ (right, s.eng.path.length + 1) :: s.eng.stack, e.2 ≤ (s.eng.path ++ [false]).length := by
    intro e he
    rcases List.mem_cons.1 he with rfl | he
    · simp
    · simpa using Nat.le_succ_of_le (hstack e he)
  rw [hL _ (by simp; omega) hstackL, Body.andThen_assoc]
  have hwrites := visitRec_all room left (s.eng.path ++ [false]) s.dropTraversal (by simp; omega)
  refine hwrites.andThen_congr fun t ht => ?_
  have hstackR : ∀ e ∈ s.eng.stack, e.2 ≤ (s.eng.path ++ [true]).length := fun e he => by
    simpa using Nat.le_succ_of_le (hstack e he)
  have hright := hR (t.withTraversal (s.eng.path ++ [true]) s.eng.stack) (by simp; omega) hstackR
  have hdrop : (t.withTraversal (s.eng.path ++ [true]) s.eng.stack).dropTraversal = t := ht.writes.dropTraversal_eq
  rw [hdrop] at hright
  refine (congrArg Body.dropTraversal (popPending_follow_right t _ right _)).trans (hright.trans ?_)
  exact congrArg _ (funext fun u => popPending_follow_deeper u s.eng.path true s.eng.stack hstack)

theorem visitFrom_visitsSubtree (room h : Nat) (s : State) : VisitsSubtree room h s := by
  induction room using Nat.strongRecOn generalizing h s with
  | ind room ih =>
    intro hroom hstack
    rw [visitRec_eq]
    simp only [dropTraversal_nodeCount, dropTraversal_tree, dropTraversal_lenOf, countVisit_dropTraversal,
      dropTraversal_visits, countVisit_eng]
    by_cases hover : s.nodeCount.toNat < s.eng.visits + 1
    · simp only [visitFrom_overLimit h s (by omega), hover, if_true]
      rfl
    simp only [visitFrom_belowLimit h s (by omega), hover, if_false]
    unfold State.visitNode
    rw [countVisit_tree]
    cases readCell .tree s.tree h with
    | error r => rfl
    | ok w =>
      simp only [Body.withRead_ok, State.visitLeaf, State.visitInternal, countVisit_lenOf, countVisit_nodeCount]
      by_cases hleaf : nodeIsLeaf w = true
      · by_cases hfree : s.lenOf (nodeSym w) = 0#8
        · simp only [hleaf, hfree, ne_eq, not_true_eq_false, ite_true, ite_false]
          rfl
        · simp only [hleaf, hfree, ne_eq, not_false_eq_true, ite_true]
          rfl
      by_cases hleft : s.nodeCount.toNat ≤ nodeLeft w
      · simp only [hleaf, hleft, ite_true, Bool.false_eq_true, ite_false]
        rfl
      by_cases hright : s.nodeCount.toNat ≤ nodeRight w
      · simp only [hleaf, hleft, hright, ite_true, Bool.false_eq_true, ite_false]
        rfl
      cases room with
      | zero =>
        have hdeep : Config.maxCodeLen < s.countVisit.eng.path.length + 1 := by
          simp only [countVisit_eng, Config.maxCodeLen]
          omega
        simp only [hleaf, hleft, hright, hdeep, ite_true, Bool.false_eq_true, ite_false]
        rfl
      | succ room =>
        have hdeep : ¬ Config.maxCodeLen < s.countVisit.eng.path.length + 1 := by
          simp only [countVisit_eng, Config.maxCodeLen]
          omega
        simp only [hleaf, hleft, hright, hdeep, Nat.succ_ne_zero, Bool.false_eq_true, ite_false]
        exact visitFrom_descend room _ _ s.countVisit (ih room (by omega) _) (ih room (by omega) _) hroom hstack

theorem Body.andThen_ok_right (b : Body) : b.andThen .ok = b := by
  cases b <;> rfl

/-- BUILD_CODES' body by the recursive VISIT (R113), up to the two registers that only the hardware's traversal uses. -/
theorem buildBody_dropTraversal (s : State) : (buildBody s).dropTraversal = buildRec s := by
  unfold buildBody buildRec
  cases s.buildPreCheck with
  | some e => rfl
  | none =>
    have hvisit := visitFrom_visitsSubtree Config.maxCodeLen s.root.toNat (s.enterStage .build).clearLens rfl
      (fun _ he => absurd he List.not_mem_nil)
    have hwrites := visitRec_all Config.maxCodeLen s.root.toNat [] (s.enterStage .build).clearLens rfl
    refine hvisit.trans ((hwrites.andThen_congr fun t ht => ?_).trans (Body.andThen_ok_right _))
    exact congrArg Body.ok (ht.writes.dropTraversal_eq (s := (s.enterStage .build).clearLens))

/-- R113: BUILD_CODES is the recursive VISIT from ROOT. -/
theorem exec_buildCodes_eq_buildRec (s : State) : exec .buildCodes s = (buildRec s).complete := by
  rw [← buildBody_dropTraversal, Body.dropTraversal_complete]
  rfl

end Sys2Proof.Machine
end

section
/-! PROOFS. The table that BUILD_CODES builds: its codes are the paths to the leaves of one tree (R115, R120), so none begins
another (R122), and a stream of codes is the stream of one symbol sequence only (R13). -/
namespace Sys2Proof.Machine

/-- Completion leaves the code table as the body ended with it. -/
theorem Body.All.complete_table {P : State → Prop} {b : Body} {t : State} (hb : b.All P) (hc : b.complete = .next t) :
    ∃ u, P u ∧ ∀ x, SameEntry u t x := by
  rcases Body.complete_eq_next hc with ⟨u, rfl, rfl⟩ | ⟨e, v, u, rfl, rfl⟩
  · exact ⟨u, hb, fun _ => ⟨rfl, fun _ _ => rfl⟩⟩
  · exact ⟨u, hb, fun _ => ⟨rfl, fun _ _ => rfl⟩⟩

/-- A pre-check of R111 that fails raises an error. -/
theorem buildPreCheck_err_ne_none {s : State} {e : ErrCode} {info : Word} (h : s.buildPreCheck = some (e, info)) :
    e ≠ .none := by
  unfold State.buildPreCheck at h
  split_ifs at h <;> cases h <;> decide

theorem buildPreCheck_of_success {s t : State} (h : exec .buildCodes s = .next t) (herr : t.status.err = .none) :
    s.buildPreCheck = none := by
  rw [exec_buildCodes_eq_buildRec, buildRec] at h
  cases hp : s.buildPreCheck with
  | none => rfl
  | some e =>
    rw [hp] at h
    cases h
    exact absurd herr (buildPreCheck_err_ne_none hp)

/-- R112, R115, R120: once the pre-checks pass, every entry with a code is a leaf of this tree, with its path as its code. -/
theorem built_entry_is_leaf {s t : State} (hpre : s.buildPreCheck = none) (h : exec .buildCodes s = .next t) {x : Byte}
    (hx : t.lenOf x ≠ 0#8) :
    ∃ path, s.LeafAt s.root.toNat path x ∧ EntryIs t x (leafCode path) := by
  rw [exec_buildCodes_eq_buildRec, buildRec, hpre] at h
  have hvisit := visitRec_all Config.maxCodeLen s.root.toNat [] (s.enterStage .build).clearLens rfl
  obtain ⟨u, hu, htable⟩ := hvisit.complete_table h
  obtain ⟨path, hleaf, -, hentry⟩ := hu.new x rfl ((htable x).1 ▸ hx)
  exact ⟨path, hleaf.congr (s := (s.enterStage .build).clearLens) (t := s) rfl, hentry.same (htable x)⟩

/-- An entry holds one code at most (R96). -/
theorem State.CodeIs.unique {t : State} {x : Byte} {c d : List Bool} (hc : t.CodeIs x c) (hd : t.CodeIs x d) : c = d := by
  obtain ⟨hclen, hcbits⟩ := hc
  obtain ⟨hdlen, hdbits⟩ := hd
  refine List.ext_getElem? fun j => ?_
  by_cases hj : j < c.length
  · rw [← hcbits j hj, hdbits j (by omega)]
  · rw [List.getElem?_eq_none (by omega), List.getElem?_eq_none (by omega)]

theorem State.CodeIs.ne_nil {t : State} {x : Byte} {c : List Bool} (hc : t.CodeIs x c) (hx : t.lenOf x ≠ 0#8) :
    c ≠ [] := by
  rintro rfl
  exact hx (BitVec.eq_of_toNat_eq hc.1)

/-- No leaf lies below another one. -/
theorem State.LeafAt.sym_eq_of_prefix {s : State} {h : Nat} {p q : List Bool} {x y : Byte} (hp : s.LeafAt h p x)
    (hq : s.LeafAt h q y) (hpq : p <+: q) : x = y := by
  induction hp generalizing q with
  | leaf h w hw hl =>
    cases hq with
    | leaf _ w' hw' _ => rw [Option.some.inj (hw.symm.trans hw')]
    | left _ w' q _ hw' hl' _ =>
      obtain rfl := Option.some.inj (hw.symm.trans hw')
      simp [hl] at hl'
    | right _ w' q _ hw' hl' _ =>
      obtain rfl := Option.some.inj (hw.symm.trans hw')
      simp [hl] at hl'
  | left h w p x hw hl _ ih =>
    cases hq with
    | leaf _ w' hw' _ => simp at hpq
    | left _ w' q _ hw' _ hq =>
      obtain rfl := Option.some.inj (hw.symm.trans hw')
      exact ih hq (List.cons_prefix_cons.1 hpq).2
    | right _ w' q _ hw' _ _ => simp at hpq
  | right h w p x hw hl _ ih =>
    cases hq with
    | leaf _ w' hw' _ => simp at hpq
    | left _ w' q _ hw' _ _ => simp at hpq
    | right _ w' q _ hw' _ hq =>
      obtain rfl := Option.some.inj (hw.symm.trans hw')
      exact ih hq (List.cons_prefix_cons.1 hpq).2

/-- The same of the codes, where a tree of one leaf has the code "0" (R116). -/
theorem State.LeafAt.sym_eq_of_leafCode_prefix {s : State} {h : Nat} {p q : List Bool} {x y : Byte} (hp : s.LeafAt h p x)
    (hq : s.LeafAt h q y) (hpq : leafCode p <+: leafCode q) : x = y := by
  by_cases hp0 : p = []
  · exact hp.sym_eq_of_prefix hq (hp0 ▸ List.nil_prefix)
  by_cases hq0 : q = []
  · exact (hq.sym_eq_of_prefix hp (hq0 ▸ List.nil_prefix)).symm
  · exact hp.sym_eq_of_prefix hq (by simpa [leafCode, hp0, hq0] using hpq)

/-- R122: in a built table, symbols of which one's code begins the other's are the same symbol. -/
theorem built_sym_eq_of_prefix {s t : State} (hexec : exec .buildCodes s = .next t) (herr : t.status.err = .none)
    {x y : Byte} {c d : List Bool} (hx : t.lenOf x ≠ 0#8) (hy : t.lenOf y ≠ 0#8) (hc : t.CodeIs x c) (hd : t.CodeIs y d)
    (hcd : c <+: d) : x = y := by
  have hpre := buildPreCheck_of_success hexec herr
  obtain ⟨p, hp, hentryX, -⟩ := built_entry_is_leaf hpre hexec hx
  obtain ⟨q, hq, hentryY, -⟩ := built_entry_is_leaf hpre hexec hy
  rw [hc.unique hentryX, hd.unique hentryY] at hcd
  exact hp.sym_eq_of_leafCode_prefix hq hcd

/-- Where no code is empty and none begins another symbol's, a stream is of one symbol sequence only: its first symbol is
the one whose code the stream begins with. -/
theorem eq_of_flatMap_eq_of_prefixFree {α β : Type} (code : α → List β) (xs ys : List α)
    (hne : ∀ x ∈ xs ++ ys, code x ≠ [])
    (hprefix : ∀ x ∈ xs ++ ys, ∀ y ∈ xs ++ ys, code x <+: code y → x = y)
    (h : xs.flatMap code = ys.flatMap code) : xs = ys := by
  induction xs generalizing ys with
  | nil =>
    cases ys with
    | nil => rfl
    | cons y ys => simp [hne y] at h
  | cons x xs ih =>
    cases ys with
    | nil => simp [hne x] at h
    | cons y ys =>
      rw [List.flatMap_cons, List.flatMap_cons] at h
      have hxy : x = y := by
        rcases List.prefix_or_prefix_of_prefix (List.prefix_append (code x) (xs.flatMap code))
          (h ▸ List.prefix_append (code y) (ys.flatMap code)) with hp | hp
        · exact hprefix x (by simp) y (by simp) hp
        · exact (hprefix y (by simp) x (by simp) hp).symm
      subst hxy
      have hsub : ∀ z ∈ xs ++ ys, z ∈ x :: xs ++ x :: ys := by
        intro z hz
        rcases List.mem_append.1 hz with hz | hz <;> simp [hz]
      rw [ih ys (fun z hz => hne z (hsub z hz)) (fun z hz w hw => hprefix z (hsub z hz) w (hsub w hw))
        (List.append_cancel_left h)]

/-- Settles O20: no code of a built table is empty or begins another symbol's code. -/
theorem builtCodesDecodeUnambiguously : Obligations.BuiltCodesDecodeUnambiguously := by
  unfold Obligations.BuiltCodesDecodeUnambiguously
  intro s t code xs ys hexec herr hcoded hstream
  refine eq_of_flatMap_eq_of_prefixFree code xs ys (fun x hx => ?_) (fun x hx y hy hxy => ?_) hstream
  · obtain ⟨hlen, hcode⟩ := hcoded x hx
    exact hcode.ne_nil hlen
  · obtain ⟨hlenX, hcodeX⟩ := hcoded x hx
    obtain ⟨hlenY, hcodeY⟩ := hcoded y hy
    exact built_sym_eq_of_prefix hexec herr hlenX hlenY hcodeX hcodeY hxy

end Sys2Proof.Machine
end

section
/-! PROOFS. The engine's step while BUSY (R9, R189). -/
namespace Sys2Proof.Machine

/-- R40: the engine runs the command whose opcode LASTOP holds. -/
theorem runEngine_of_decode {s : State} {i : Instr} (h : decodeWord (0#24 ++ s.status.lastop) = .ok i) :
    runEngine s = exec i s := by
  rw [runEngine, State.running, h]

theorem nextEvent_busy_noEvent {s : State} (hbusy : s.status.busy = true) (hport : s.port = []) :
    s.nextEvent = .engine s := by
  simp [State.nextEvent, hport, hbusy]

/-- R189, R230: the free choice between the completion and the waiting event. -/
theorem nextEvent_busy_event {s : State} (hbusy : s.status.busy = true) {e : PortEvent} {rest : List PortEvent}
    (hport : s.port = e :: rest) :
    s.nextEvent = if Config.freeEngineFirst s.draws then .engine { s with draws := s.draws + 1 }
      else .host e { s with port := rest, draws := s.draws + 1 } := by
  simp [State.nextEvent, hport, hbusy]

/-- Settles O5, by what comes next at the port. -/
theorem stepRunsTheHeldCommand : Obligations.StepRunsTheHeldCommand := by
  unfold Obligations.StepRunsTheHeldCommand
  intro s i hbusy hdecode
  refine ⟨fun hport => ?_, fun e rest hport => ?_⟩
  · rw [step, nextEvent_busy_noEvent hbusy hport]
    exact runEngine_of_decode hdecode
  · rw [step, nextEvent_busy_event hbusy hport]
    by_cases hfirst : Config.freeEngineFirst s.draws = true
    · rw [if_pos hfirst, if_pos hfirst]
      exact runEngine_of_decode hdecode
    · rw [if_neg hfirst, if_neg hfirst]

end Sys2Proof.Machine
end

section
/-! PROOFS. The run of a command, said once for all six: its body (R11), what the body writes (R71), and its completion. -/
namespace Sys2Proof.Machine

/-- The pseudocode of a command, up to its end, a raise or a fault (R11). -/
def cmdBody (i : Instr) (s : State) : Body :=
  match i with
  | .nop => .ok s
  | .buildCodes => buildBody s
  | .encode => encodeBody s
  | .pack => packBody s
  | .run => ((buildBody s).andThen encodeBody).andThen packBody
  | .clearCodes => .ok s.clearLens

/-- Every command is its pseudocode and one completion (R184, R185). -/
theorem exec_eq_complete (i : Instr) (s : State) : exec i s = (cmdBody i s).complete := by
  cases i <;> rfl

/-- The parts of the state the pseudocode of a command can write (R71), and the internal registers. -/
def CommandWrites (s t : State) : Prop :=
  ∃ l c b n o m e, t = { s with lens := l, cbits := c, bit := b, bitLen := n, out := o, outLen := m, eng := e }

theorem CommandWrites.refl (s : State) : CommandWrites s s :=
  ⟨s.lens, s.cbits, s.bit, s.bitLen, s.out, s.outLen, s.eng, rfl⟩

theorem CommandWrites.trans {s t u : State} (h : CommandWrites s t) (k : CommandWrites t u) : CommandWrites s u := by
  obtain ⟨_, _, _, _, _, _, _, rfl⟩ := h
  obtain ⟨_, _, _, _, _, _, _, rfl⟩ := k
  exact ⟨_, _, _, _, _, _, _, rfl⟩

theorem CommandWrites.status {s t : State} (h : CommandWrites s t) : t.status = s.status := by
  obtain ⟨_, _, _, _, _, _, _, rfl⟩ := h
  rfl

theorem CommandWrites.errInfo {s t : State} (h : CommandWrites s t) : t.errInfo = s.errInfo := by
  obtain ⟨_, _, _, _, _, _, _, rfl⟩ := h
  rfl

theorem CommandWrites.irqEn {s t : State} (h : CommandWrites s t) : t.irqEn = s.irqEn := by
  obtain ⟨_, _, _, _, _, _, _, rfl⟩ := h
  rfl

theorem CommandWrites.params {s t : State} (h : CommandWrites s t) : t.params = s.params := by
  obtain ⟨_, _, _, _, _, _, _, rfl⟩ := h
  rfl

theorem buildBody_writes (s : State) : (buildBody s).All (CommandWrites s) := by
  refine (buildBody_all s).mono fun t ht => ?_
  obtain ⟨-, l, c, e, rfl⟩ := ht
  exact ⟨l, c, s.bit, s.bitLen, s.out, s.outLen, e, rfl⟩

theorem encodeBody_writes (s : State) : (encodeBody s).All (CommandWrites s) := by
  refine (encodeBody_all s).mono fun t ht => ?_
  obtain ⟨-, b, n, e, rfl⟩ := ht
  exact ⟨s.lens, s.cbits, b, n, s.out, s.outLen, e, rfl⟩

theorem packBody_writes (s : State) : (packBody s).All (CommandWrites s) := by
  refine (packBody_all s).mono fun t ht => ?_
  obtain ⟨-, o, m, e, rfl⟩ := ht
  exact ⟨s.lens, s.cbits, s.bit, s.bitLen, o, m, e, rfl⟩

/-- A part that holds at every end of each stage's body holds at every end of RUN's (R171). -/
theorem Body.All.run {P : State → State → Prop} (hbuild : ∀ s, (buildBody s).All (P s))
    (hencode : ∀ s, (encodeBody s).All (P s)) (hpack : ∀ s, (packBody s).All (P s))
    (htrans : ∀ {s t u}, P s t → P t u → P s u) (s : State) :
    (((buildBody s).andThen encodeBody).andThen packBody).All (P s) :=
  ((hbuild s).andThen (fun _ ht => ht) fun t ht => (hencode t).mono fun _ hu => htrans ht hu).andThen
    (fun _ ht => ht) fun t ht => (hpack t).mono fun _ hu => htrans ht hu

theorem cmdBody_writes (i : Instr) (s : State) : (cmdBody i s).All (CommandWrites s) := by
  cases i with
  | nop => exact CommandWrites.refl s
  | buildCodes => exact buildBody_writes s
  | encode => exact encodeBody_writes s
  | pack => exact packBody_writes s
  | run => exact Body.All.run buildBody_writes encodeBody_writes packBody_writes CommandWrites.trans s
  | clearCodes => exact ⟨_, s.cbits, s.bit, s.bitLen, s.out, s.outLen, s.eng, rfl⟩

/-- R184, R185: a command that completes leaves BUSY 0 and DONE 1, and IRQ_EN, OVR and the parameters as they were. -/
theorem exec_next_flags {i : Instr} {s t : State} (h : exec i s = .next t) :
    t.status.busy = false ∧ t.status.done = true ∧ t.status.ovr = s.status.ovr ∧ t.irqEn = s.irqEn := by
  have hw := cmdBody_writes i s
  rw [exec_eq_complete] at h
  rcases Body.complete_eq_next h with ⟨u, hb, rfl⟩ | ⟨e, info, u, hb, rfl⟩
  all_goals
    rw [hb] at hw
    have hu : CommandWrites s u := hw
    simp [hu.status, hu.irqEn]

end Sys2Proof.Machine
end

section
/-! PROOFS. Command words (R90 to R93): a word that decodes is its command's word, and the words 0 to 5 decode. -/
namespace Sys2Proof.Machine

theorem eq_opcode_of_opcodeInstr {op : Byte} {i : Instr} (h : opcodeInstr op = some i) : op = opcode i := by
  unfold opcodeInstr at h
  apply BitVec.eq_of_toNat_eq
  split at h <;> cases h <;> assumption

/-- R90: MBZ and OP are all of a command word. -/
theorem eq_fields (v : Word) : v = cmdMbz v ++ cmdOp v := by
  have hsplit := BitVec.extractLsb'_append_extractLsb'_eq_extractLsb' (x := v) (start₁ := 0) (start₂ := 8) (len₁ := 8)
    (len₂ := 24) rfl
  rw [cmdMbz, cmdOp, hsplit, BitVec.extractLsb'_eq_self]

/-- R90, R92: a legal word is its command's word. -/
theorem eq_encode_of_decodeWord {v : Word} {i : Instr} (h : decodeWord v = .ok i) : v = encode i := by
  unfold decodeWord at h
  split at h
  · rename_i hmbz
    split at h
    · rename_i hop
      cases h
      rw [encode, ← eq_opcode_of_opcodeInstr hop, ← hmbz, ← eq_fields]
    · cases h
  · cases h

/-- R183: an accepted word's OP is one of the six. -/
theorem cmdOp_le_of_decodeWord {v : Word} {i : Instr} (h : decodeWord v = .ok i) : (cmdOp v).toNat ≤ 5 := by
  rw [eq_encode_of_decodeWord h]
  cases i <;> decide

theorem decodeWord_of_le {v : Word} (h : v.toNat ≤ 5) : ∃ i, decodeWord v = .ok i := by
  have hv : v = BitVec.ofNat 32 v.toNat := by simp
  generalize v.toNat = n at h hv
  subst hv
  interval_cases n <;> exact ⟨_, rfl⟩

end Sys2Proof.Machine
end

section
/-! PROOFS. The host's accesses, said once: a register access, and everything that one event at the port can do. -/
namespace Sys2Proof.Machine

/-- The offset of a register (R21 to R32). -/
def Reg.offset : Reg → Nat
  | .id => 0x000
  | .ctrl => 0x004
  | .cmd => 0x008
  | .status => 0x00C
  | .errInfo => 0x010
  | .nodeCount => 0x014
  | .root => 0x018
  | .inLen => 0x01C
  | .bitLen => 0x020
  | .outLen => 0x024
  | .inDepthR => 0x028
  | .bitDepthR => 0x02C
  | .outDepthR => 0x030

theorem eq_offset_of_regAt {o : Nat} {r : Reg} (h : regAt o = some r) : o = r.offset := by
  unfold regAt at h
  split at h <;> cases h <;> rfl

theorem regAt_aligned {o : Nat} {r : Reg} (h : regAt o = some r) : o % 4 = 0 := by
  rw [eq_offset_of_regAt h]
  cases r <;> rfl

/-- R21 to R32: a read of a register that is not busy-unspecified, or of any register while BUSY = 0. -/
theorem hostReads_reg {s : State} {o : Nat} (r : Reg) (hr : regAt o = some r)
    (hb : s.status.busy = false ∨ busyUnspecified (.reg r) = false) :
    s.hostReads o = .next { s with busData := some (s.readReg r) } := by
  have ho := regAt_lt o r hr
  rw [hostReads_eq s o (by omega) (regAt_aligned hr), State.hostRead, locate_reg s.params o r (by omega) hr, if_neg]
  · rfl
  · rcases hb with hb | hb <;> simp [hb]

/-- R22 to R33: a write of a register that is not busy-dropped, or of any register while BUSY = 0. -/
theorem hostWrites_reg {s : State} {o : Nat} (r : Reg) (v : Word) (hr : regAt o = some r)
    (hb : s.status.busy = false ∨ busyDropped (.reg r) = false) :
    s.hostWrites o v = .next { s.writeReg r v with busData := none } := by
  have ho := regAt_lt o r hr
  rw [hostWrites_eq s o v (by omega) (regAt_aligned hr), State.hostWrite, locate_reg s.params o r (by omega) hr, if_neg]
  · rfl
  · rcases hb with hb | hb <;> simp [hb]

/-- The address map names a register at its offset only. -/
theorem eq_offset_of_locate {p : Config.Params} {o : Nat} {r : Reg} (h : locate p o = .reg r) : o = r.offset := by
  refine eq_offset_of_regAt ?_
  unfold locate codeLoc at h
  split_ifs at h
  split at h
  · rename_i hr
    cases h
    exact hr
  · cases h

/-- R63, R64, R221: a read changes what the port shows, and may draw a free value. -/
theorem hostRead_next {s t : State} {o : Nat} (h : s.hostRead o = .next t) :
    ∃ d n, t = { s with busData := d, draws := n } := by
  unfold State.hostRead at h
  split at h
  · cases h
    exact ⟨_, _, rfl⟩
  · split at h
    · cases h
      exact ⟨_, s.draws, rfl⟩
    · cases h

/-- What one event at the port leaves: power-on (R210); a read, or an access outside the aperture (R60), which changes no
more than what the port shows and the draw counter; a write dropped while BUSY = 1 (R220); a write that takes effect. -/
inductive EventEffect (s t : State) : PortEvent → Prop where
  | powerOn : t = s.powerOn → EventEffect s t .powerOn
  | keep (e : PortEvent) (d : Option Word) (n : Nat) : t = { s with busData := d, draws := n } → EventEffect s t e
  | drop (addr : Nat) (v : Word) : s.status.busy = true → t = { s.dropWrite with busData := none } →
      EventEffect s t (.write addr 4 v)
  | write (o : Nat) (v : Word) : o % 4 = 0 → o < 0x20000 →
      (s.status.busy = false ∨ busyDropped (locate s.params o) = false) →
      t = { s.writeLoc (locate s.params o) v with busData := none } → EventEffect s t (.write (s.params.base + o) 4 v)

/-- An access that reaches HBP is 32 bits wide at an aligned offset of the aperture (R60, R62). -/
theorem atOffset_next {s t : State} {addr size : Nat} {f : Nat → Host.Outcome State Fault Refusal}
    (h : s.atOffset addr size f = .next t) :
    t = { s with busData := none } ∨
    ∃ o, addr = s.params.base + o ∧ size = 4 ∧ o % 4 = 0 ∧ o < 0x20000 ∧ f o = .next t := by
  unfold State.atOffset at h
  cases ho : offsetOf s.params addr with
  | none =>
    rw [ho] at h
    cases h
    exact .inl rfl
  | some o =>
    simp only [ho] at h
    split at h
    · rename_i hlegal
      obtain ⟨hsize, haligned⟩ : size = 4 ∧ o % 4 = 0 := by simpa [accessLegal] using hlegal
      unfold offsetOf at ho
      split_ifs at ho with hin
      cases ho
      obtain ⟨hlow, hhigh⟩ := hin
      simp only [Config.apertureBytes] at hhigh
      exact .inr ⟨_, by omega, hsize, haligned, by omega, h⟩
    · cases h

/-- Everything that one event at the port can do. -/
theorem portEvent_next {s t : State} {e : PortEvent} (h : s.portEvent e = .next t) : EventEffect s t e := by
  cases e with
  | powerOn =>
    cases h
    exact .powerOn rfl
  | read addr size =>
    rcases atOffset_next h with rfl | ⟨o, -, -, -, -, hread⟩
    · exact .keep _ none s.draws rfl
    · obtain ⟨d, n, ht⟩ := hostRead_next hread
      exact .keep _ d n ht
  | write addr size v =>
    rcases atOffset_next h with rfl | ⟨o, rfl, rfl, haligned, hlt, hwrite⟩
    · exact .keep _ none s.draws rfl
    · unfold State.hostWrite at hwrite
      split at hwrite
      · rename_i hdrop
        cases hwrite
        exact .drop _ v (Bool.and_eq_true_iff.1 hdrop).1 rfl
      · rename_i htake
        cases hwrite
        exact .write o v haligned hlt (by simpa [← imp_iff_not_or, ← Bool.not_eq_true] using htake) rfl

end Sys2Proof.Machine
end

section
/-! PROOFS. Every step keeps the invariant: the host's accesses and the resets, and the bodies of the commands, whose
internal registers hold values while they run and whose completion sets STATUS and ERR_INFO. -/
namespace Sys2Proof.Machine

/-! ## The invariant without the engine and the status -/

/-- `s` with the engine and the status as they are at reset. -/
def State.atRest (s : State) : State := { s with eng := .idle, status := .reset, errInfo := 0#32 }

/-- The part of the invariant that a running command keeps at every moment: parameters, memories and OUT_LEN. -/
def State.DataInv (s : State) : Prop := s.atRest.Inv

theorem State.Inv.dataInv {s : State} (h : s.Inv) : s.DataInv :=
  { h with eng := rfl, busy := fun hb => absurd hb Bool.false_ne_true, errStage := rfl, errInfo := fun _ => rfl }

/-- R185: a completion without an error, with the ERR_INFO of acceptance. -/
theorem State.DataInv.completeOk {s : State} (h : s.DataInv) (hinfo : s.errInfo = 0#32) : s.completeOk.Inv :=
  { (h : s.atRest.Inv) with
    eng := rfl, busy := fun hb => absurd hb Bool.false_ne_true, errStage := rfl, errInfo := fun _ => hinfo }

/-- R184: a completion with an error of the stage the engine is in. -/
theorem State.DataInv.completeError {s : State} (h : s.DataInv) {e : ErrCode} (info : Word)
    (hstage : errStageOk e s.eng.stage = true) (he : e ≠ .none) : (s.completeError e info).Inv :=
  { (h : s.atRest.Inv) with
    eng := rfl, busy := fun hb => absurd hb Bool.false_ne_true, errStage := hstage, errInfo := fun hn => absurd hn he }

theorem State.DataInv.bitDepth_mod {s : State} (h : s.DataInv) : s.params.bitDepth % 32 = 0 := by
  obtain ⟨-, -, -, hmod, -, -⟩ := params_wf s.atRest.params (State.Inv.params h)
  exact hmod

theorem State.DataInv.bit_below {s : State} (h : s.DataInv) : s.bit.below s.params.bitDepth := (State.Inv.bit h).2

/-! ## The writes of the memories -/

theorem cbitsCell_run_le (x : Byte) (w len : Nat) (h : w + len ≤ 256) :
    cbitsCell x w + len ≤ Config.nsym * Config.cbitsW := by
  have := x.isLt
  simp only [cbitsCell, Config.nsym, Config.cbitsW]
  omega

/-- R36: a write of LEN keeps the canonical form, in which no LEN of 0 is listed. -/
theorem State.Inv.lens_setLen {s : State} (h : s.Inv) (x v : Byte) :
    (s.setLen x v).lens.wf ∧ (s.setLen x v).lens.below Config.nsym ∧ ∀ c ∈ (s.setLen x v).lens, c.2 ≠ 0#8 := by
  obtain ⟨hwf, hbelow, hne⟩ := h.lens
  rw [setLen_lens]
  split
  · exact ⟨Memory.wf_erase _ _ hwf, Memory.below_erase _ _ _ hbelow, fun c hc => hne c (List.mem_filter.1 hc).1⟩
  · rename_i hv
    refine ⟨Memory.wf_set _ _ _ hwf, Memory.below_set _ _ _ _ hbelow x.isLt, fun c hc => ?_⟩
    rcases Memory.mem_setRun hc with hc | hc
    · rw [List.mem_singleton.1 hc]
      exact hv
    · exact hne c hc

/-- Writing a run of cells within the first `n`. -/
theorem Memory.wf_below_setRun {α : Type} {m : Memory α} {n : Nat} (h : m.wf ∧ m.below n) (base : Nat) (vals : List α)
    (hr : base + vals.length ≤ n) : (m.setRun base vals).wf ∧ (m.setRun base vals).below n :=
  ⟨Memory.wf_setRun _ _ _ h.1, Memory.below_setRun _ _ _ _ h.2 hr⟩

/-- R115: a leaf's code, of at most 255 bits. -/
theorem State.DataInv.writeCode {s : State} (h : s.DataInv) (x : Byte) (code : List Bool) (hlen : code.length ≤ 255) :
    (s.writeCode x code).DataInv :=
  { (h : s.atRest.Inv) with
    lens := State.Inv.lens_setLen (s := s.atRest) h x _
    cbits := Memory.wf_below_setRun (Inv.cbits h) _ _
      (by rw [paddedCode_length code (by omega)]; exact cbitsCell_run_le x 0 256 (by omega)) }

/-- R132: a code that fits. -/
theorem State.DataInv.appendCode {s : State} (h : s.DataInv) (code : List Bool)
    (hfit : s.eng.bitCur + code.length ≤ s.params.bitDepth) : (s.appendCode code).DataInv :=
  { (h : s.atRest.Inv) with bit := Memory.wf_below_setRun (Inv.bit h) _ _ hfit }

/-- R152: a byte within OUT. -/
theorem State.DataInv.storeByte {s : State} (h : s.DataInv) (bits : List Bool)
    (hfit : s.eng.byteIdx < s.params.outDepth) : (s.storeByte bits).DataInv :=
  { (h : s.atRest.Inv) with out := Memory.wf_below_setRun (Inv.out h) _ [packedByte bits] hfit }

/-- R154: the bytes of a stream that fits BIT fit OUT. -/
theorem State.DataInv.storeOutLen {s : State} (h : s.DataInv) {n : Nat} (hn : n ≤ s.params.bitDepth) :
    (s.storeOutLen n).DataInv := by
  have hmod := h.bitDepth_mod
  have hbytes : n / 8 + (if n % 8 ≠ 0 then 1 else 0) ≤ s.params.bitDepth / 8 := by
    split <;> omega
  exact { (h : s.atRest.Inv) with outLen := (Nat.mod_le _ _).trans hbytes }

/-! ## The bodies -/

/-- Every end of the body satisfies `P`, and a raise is of an error of the stage the engine is in (R181, R182). -/
def Body.Sound (P : State → Prop) : Body → Prop
  | .ok t => P t
  | .raise e _ t => P t ∧ errStageOk e t.eng.stage = true ∧ e ≠ .none
  | .fault _ => True

theorem Body.Sound.mono {P Q : State → Prop} {b : Body} (h : b.Sound P) (hpq : ∀ t, P t → Q t) : b.Sound Q := by
  cases b with
  | ok t => exact hpq t h
  | raise e v t => exact ⟨hpq t h.1, h.2⟩
  | fault r => trivial

theorem Body.Sound.andThen {P Q : State → Prop} {b : Body} {f : State → Body} (h : b.Sound P)
    (hpq : ∀ t, P t → Q t) (hf : ∀ t, P t → (f t).Sound Q) : (b.andThen f).Sound Q := by
  cases b with
  | ok t => exact hf t h
  | raise e v t => exact ⟨hpq t h.1, h.2⟩
  | fault r => trivial

theorem Body.sound_withRead {β : Type} {P : State → Prop} (x : Except Fault β) (f : β → Body)
    (h : ∀ v, x = .ok v → (f v).Sound P) : (Body.withRead x f).Sound P := by
  cases x with
  | ok v => exact h v rfl
  | error r => trivial

/-- What holds within stage `st`. -/
structure StageInv (st : Stage) (t : State) : Prop where
  data : t.DataInv
  stage : t.eng.stage = st

theorem StageInv.enter {s : State} (h : s.DataInv) (st : Stage) : StageInv st (s.enterStage st) := ⟨h, rfl⟩

/-- A raise of one of the errors of the stage that the engine is in. -/
theorem Body.sound_raise {P : State → Prop} {st : Stage} {t : State} {e : ErrCode} (info : Word) (h : P t)
    (hstage : t.eng.stage = st) (he : errStageOk e st = true) (hst : st ≠ .none) : (Body.raise e info t).Sound P := by
  refine ⟨h, hstage ▸ he, ?_⟩
  rintro rfl
  exact hst (beq_iff_eq.1 he)

theorem StageInv.sound_raise {st : Stage} {t : State} (h : StageInv st t) {e : ErrCode} (info : Word)
    (he : errStageOk e st = true) (hst : st ≠ .none) : (Body.raise e info t).Sound (StageInv st) :=
  Body.sound_raise info h h.stage he hst

/-! ### BUILD_CODES -/

/-- A predicate of stage 1 that a visit keeps, and that does not depend on the path register and the traversal stack. -/
structure KeptByBuild (P : State → Prop) : Prop where
  stage : ∀ s, P s → s.eng.stage = .build
  countVisit : ∀ s, P s → P s.countVisit
  writeCode : ∀ s x code, code.length ≤ 255 → P s → P (s.writeCode x code)
  dropTraversal : ∀ s, P s.dropTraversal → P s

/-- R113 to R118: VISIT, whose path is never longer than MAX_CODE_LEN. -/
theorem visitRec_sound {P : State → Prop} (hP : KeptByBuild P) (room h : Nat) (path : List Bool) (s : State)
    (hroom : path.length + room = 255) (hs : P s) : (visitRec room h path s).Sound P := by
  induction room using Nat.strongRecOn generalizing h path s with
  | ind room ih =>
    have hcount := hP.countVisit s hs
    have hraise : ∀ e info, errStageOk e .build = true → (Body.raise e info s.countVisit).Sound P :=
      fun e info he => Body.sound_raise info hcount (hP.stage _ hcount) he Stage.noConfusion
    rw [visitRec_eq]
    split
    · exact hraise _ _ rfl
    refine Body.sound_withRead _ _ fun w _ => ?_
    split
    · split
      · exact hraise _ _ rfl
      · exact hP.writeCode _ _ _ (leafCode_length path (by omega)).1 hcount
    split
    · exact hraise _ _ rfl
    split
    · exact hraise _ _ rfl
    split
    · exact hraise _ _ rfl
    · exact (ih (room - 1) (by omega) _ _ _ (by simp; omega) hcount).andThen (fun _ ht => ht) fun t ht =>
        ih (room - 1) (by omega) _ _ t (by simp; omega) ht

theorem KeptByBuild.sound_of_dropTraversal {P : State → Prop} (hP : KeptByBuild P) {b : Body}
    (h : b.dropTraversal.Sound P) : b.Sound P := by
  cases b with
  | ok t => exact hP.dropTraversal t h
  | raise e v t => exact ⟨hP.dropTraversal t h.1, h.2⟩
  | fault r => trivial

theorem buildPreCheck_errStageOk {s : State} {e : ErrCode} {info : Word} (h : s.buildPreCheck = some (e, info)) :
    errStageOk e .build = true := by
  unfold State.buildPreCheck at h
  split_ifs at h <;> cases h <;> rfl

theorem KeptByBuild.buildBody_sound {P : State → Prop} (hP : KeptByBuild P) {s : State}
    (henter : P (s.enterStage .build)) (hclear : P (s.enterStage .build).clearLens) : (buildBody s).Sound P := by
  refine hP.sound_of_dropTraversal ?_
  rw [buildBody_dropTraversal, buildRec]
  cases hpre : s.buildPreCheck with
  | some e => exact Body.sound_raise _ henter rfl (buildPreCheck_errStageOk hpre) Stage.noConfusion
  | none => exact visitRec_sound hP _ _ _ _ rfl hclear

/-- R112, R125: every LEN 0. -/
theorem State.DataInv.clearLens {s : State} (h : s.DataInv) : s.clearLens.DataInv :=
  { (h : s.atRest.Inv) with lens := ⟨Memory.wf_nil, Memory.below_nil _, fun _ hc => absurd hc List.not_mem_nil⟩ }

theorem stageInv_keptByBuild : KeptByBuild (StageInv .build) where
  stage _ h := h.stage
  countVisit _ h := ⟨h.data, h.stage⟩
  writeCode _ x code hlen h := ⟨h.data.writeCode x code hlen, h.stage⟩
  dropTraversal _ h := ⟨h.data, h.stage⟩

theorem buildBody_sound {s : State} (h : s.DataInv) : (buildBody s).Sound (StageInv .build) :=
  have henter := StageInv.enter h .build
  stageInv_keptByBuild.buildBody_sound henter ⟨henter.data.clearLens, rfl⟩

/-- From every state, a raise of BUILD_CODES is of an error of its stage. -/
theorem buildBody_sound_stage (s : State) : (buildBody s).Sound fun t => t.eng.stage = .build :=
  KeptByBuild.buildBody_sound ⟨fun _ h => h, fun _ h => h, fun _ _ _ _ h => h, fun _ h => h⟩ rfl rfl

/-! ### ENCODE -/

theorem StageInv.storeBitLen {st : Stage} {s : State} (h : StageInv st s) : StageInv st s.storeBitLen :=
  ⟨{ (h.data : s.atRest.Inv) with }, h.stage⟩

theorem encodeSymbol_sound {s : State} (h : StageInv .encode s) : (encodeSymbol s).Sound (StageInv .encode) := by
  have hraise : ∀ e info, errStageOk e .encode = true → (Body.raise e info s.storeBitLen).Sound (StageInv .encode) :=
    fun e info he => h.storeBitLen.sound_raise info he Stage.noConfusion
  refine Body.sound_withRead _ _ fun sym _ => ?_
  split
  · exact hraise _ _ rfl
  split
  · exact hraise _ _ rfl
  · refine Body.sound_withRead _ _ fun code hcode => ⟨h.data.appendCode code ?_, h.stage⟩
    have hlen := (readCells_eq_ok.1 hcode).1
    omega

theorem encodeLoop_sound (left : Nat) {s : State} (h : StageInv .encode s) :
    (encodeLoop left s).Sound (StageInv .encode) := by
  induction left generalizing s with
  | zero => exact h.storeBitLen
  | succ left ih => exact (encodeSymbol_sound h).andThen (fun _ ht => ht) fun t ht => ih ht

theorem encodeBody_sound {s : State} (h : s.DataInv) : (encodeBody s).Sound (StageInv .encode) := by
  unfold encodeBody
  split
  · exact (StageInv.enter h _).sound_raise _ rfl Stage.noConfusion
  · exact encodeLoop_sound _ ⟨h, rfl⟩

/-! ### PACK -/

/-- A cell that holds a value is one of the memory's. -/
theorem Memory.lt_of_get {α : Type} {m : Memory α} {n k : Nat} {v : α} (hm : m.below n) (h : m.get k = some v) :
    k < n := by
  induction m with
  | nil => cases h
  | cons c m ih =>
    rw [Memory.get_cons] at h
    split at h
    · rename_i hk
      exact hk ▸ hm c (by simp)
    · exact ih (fun d hd => hm d (by simp [hd])) h

/-- What holds within PACK of a stream of `n` bits. -/
structure PackInv (n : Nat) (t : State) : Prop extends StageInv .pack t where
  fits : n ≤ t.params.bitDepth

/-- R152, R153: a group that could be read lies within BIT, so its byte lies within OUT. -/
theorem packGroup_sound {n g : Nat} (hg : 0 < g) {s : State} (h : PackInv n s) : (packGroup g s).Sound (PackInv n) := by
  refine Body.sound_withRead _ _ fun bits hbits => ⟨⟨h.data.storeByte bits ?_, h.stage⟩, h.fits⟩
  obtain ⟨hlen, hget⟩ := readCells_eq_ok.1 hbits
  have hfirst := (hget 0 hg).trans (List.getElem?_eq_getElem (by omega))
  have hcell := Memory.lt_of_get h.data.bit_below hfirst
  have hmod := h.data.bitDepth_mod
  show s.eng.byteIdx < s.params.bitDepth / 8
  omega

theorem packLoop_sound {n : Nat} (left : Nat) {s : State} (h : PackInv n s) : (packLoop left s).Sound (PackInv n) := by
  induction left generalizing s with
  | zero => exact h
  | succ left ih => exact (packGroup_sound (by omega) h).andThen (fun _ ht => ht) fun t ht => ih ht

theorem packFinal_sound {n : Nat} (r : Nat) {s : State} (h : PackInv n s) : (packFinal r s).Sound (PackInv n) := by
  unfold packFinal
  split
  · exact h
  · exact packGroup_sound (by omega) h

theorem packBody_sound {s : State} (h : s.DataInv) : (packBody s).Sound (StageInv .pack) := by
  unfold packBody
  split
  · exact (StageInv.enter h _).sound_raise _ rfl Stage.noConfusion
  · rename_i hfits
    have hstart : PackInv s.bitLen.toNat (s.enterStage .pack) := ⟨⟨h, rfl⟩, by simpa using hfits⟩
    refine Body.Sound.andThen (P := PackInv s.bitLen.toNat) ?_ (fun _ ht => ht.toStageInv) fun t ht =>
      ⟨ht.data.storeOutLen ht.fits, ht.stage⟩
    exact (packLoop_sound _ hstart).andThen (fun _ ht => ht) fun t ht => packFinal_sound _ ht

/-! ### The commands -/

theorem cmdBody_sound (i : Instr) {s : State} (h : s.DataInv) : (cmdBody i s).Sound State.DataInv := by
  cases i with
  | nop => exact h
  | buildCodes => exact (buildBody_sound h).mono fun _ ht => ht.data
  | encode => exact (encodeBody_sound h).mono fun _ ht => ht.data
  | pack => exact (packBody_sound h).mono fun _ ht => ht.data
  | run =>
    refine Body.Sound.andThen ?_ (fun _ ht => ht) fun t ht => (packBody_sound ht).mono fun _ hu => hu.data
    exact (buildBody_sound h).andThen (fun _ ht => ht.data) fun t ht =>
      (encodeBody_sound ht.data).mono fun _ hu => hu.data
  | clearCodes => exact h.clearLens

/-- A command that runs with the ERR_INFO of its acceptance. -/
theorem exec_inv {i : Instr} {s t : State} (h : exec i s = .next t) (hs : s.DataInv) (hinfo : s.errInfo = 0#32) :
    t.Inv ∧ t.params = s.params := by
  have hsound := cmdBody_sound i hs
  have hwrites := cmdBody_writes i s
  rw [exec_eq_complete] at h
  rcases Body.complete_eq_next h with ⟨u, hb, rfl⟩ | ⟨e, info, u, hb, rfl⟩
  · rw [hb] at hsound hwrites
    have hu : CommandWrites s u := hwrites
    exact ⟨State.DataInv.completeOk hsound (hu.errInfo.trans hinfo), hu.params⟩
  · rw [hb] at hsound hwrites
    have hu : CommandWrites s u := hwrites
    obtain ⟨hdata, hstage, he⟩ := hsound
    exact ⟨hdata.completeError info hstage he, hu.params⟩

/-! ## The host's events -/

theorem resetOf_inv {p : Config.Params} (hp : p.wf = true) : (State.resetOf p).Inv where
  params := hp
  tree := ⟨Memory.wf_nil, Memory.below_nil _⟩
  lens := ⟨Memory.wf_nil, Memory.below_nil _, fun _ hc => absurd hc List.not_mem_nil⟩
  cbits := ⟨Memory.wf_nil, Memory.below_nil _⟩
  inp := ⟨Memory.wf_nil, Memory.below_nil _⟩
  bit := ⟨Memory.wf_nil, Memory.below_nil _⟩
  out := ⟨Memory.wf_nil, Memory.below_nil _⟩
  eng := rfl
  busy hb := absurd hb Bool.false_ne_true
  errStage := rfl
  errInfo _ := rfl
  outLen := Nat.zero_le _

/-- R213: an abort may forget memories. -/
theorem abort_inv {s : State} (h : s.Inv) : s.abort.Inv := by
  unfold State.abort
  split
  · rename_i i _ _
    cases i with
    | nop => exact h
    | buildCodes => exact { h with cbits := ⟨Memory.wf_nil, Memory.below_nil _⟩ }
    | encode => exact { h with bit := ⟨Memory.wf_nil, Memory.below_nil _⟩ }
    | pack => exact { h with out := ⟨Memory.wf_nil, Memory.below_nil _⟩ }
    | run =>
      exact { h with
        cbits := ⟨Memory.wf_nil, Memory.below_nil _⟩
        bit := ⟨Memory.wf_nil, Memory.below_nil _⟩
        out := ⟨Memory.wf_nil, Memory.below_nil _⟩ }
    | clearCodes => exact h
  · exact h
  · exact h

theorem abort_params (s : State) : s.abort.params = s.params := by
  unfold State.abort State.forgetOutputs
  split
  · split <;> rfl
  · rfl
  · rfl

theorem softReset_inv {s : State} (h : s.Inv) : s.softReset.Inv :=
  { abort_inv h with
    lens := ⟨Memory.wf_nil, Memory.below_nil _, fun _ hc => absurd hc List.not_mem_nil⟩
    eng := rfl
    busy := fun hb => absurd hb Bool.false_ne_true
    errStage := rfl
    errInfo := fun _ => rfl
    outLen := Nat.zero_le _ }

theorem writeCtrl_inv {s : State} (h : s.Inv) (v : Word) : (s.writeCtrl v).Inv := by
  unfold State.writeCtrl
  split
  · exact softReset_inv h
  · exact { h with }

/-- R183, R187: a command word while BUSY = 0. -/
theorem present_inv {s : State} (h : s.Inv) (hidle : s.status.busy = false) (v : Word) : (s.present v).Inv := by
  unfold State.present
  split
  · rename_i hdecode
    exact { h with
      busy := fun _ => ⟨rfl, rfl, rfl, cmdOp_le_of_decodeWord hdecode⟩, errStage := rfl, errInfo := fun _ => rfl }
  · exact { h with
      busy := fun hb => absurd (hidle.symm.trans hb) Bool.false_ne_true
      errStage := rfl
      errInfo := fun hn => ErrCode.noConfusion hn }

theorem w1c_inv {s : State} (h : s.Inv) (v : Word) : ({ s with status := s.status.w1c v } : State).Inv := by
  refine { h with busy := fun hb => ?_ }
  obtain ⟨hdone, herr⟩ := h.busy hb
  exact ⟨by simp [Status.w1c, hdone], herr⟩

theorem writeReg_inv {s : State} (h : s.Inv) (r : Reg) (v : Word)
    (hb : s.status.busy = false ∨ busyDropped (.reg r) = false) : (s.writeReg r v).Inv := by
  cases r with
  | ctrl => exact writeCtrl_inv h v
  | cmd => exact present_inv h (hb.resolve_right Bool.noConfusion) v
  | status => exact w1c_inv h v
  | nodeCount | root | inLen | bitLen => exact { h with }
  | id | errInfo | outLen | inDepthR | bitDepthR | outDepthR => exact h

/-- R63, R65 to R69: a write that takes effect. -/
theorem writeLoc_inv {s : State} (h : s.Inv) {o : Nat} (h4 : o % 4 = 0) (ho : o < 0x20000) (v : Word)
    (hb : s.status.busy = false ∨ busyDropped (locate s.params o) = false) :
    (s.writeLoc (locate s.params o) v).Inv := by
  obtain ⟨-, -, -, hmod, -, -⟩ := params_wf s.params h.params
  rcases locate_cases s.params h.params o h4 ho with
    ⟨r, e, -⟩ | ⟨k, e, hk, -⟩ | ⟨x, e, -⟩ | ⟨x, w, e, hw, -⟩ | ⟨q, e, hq, -⟩ | ⟨q, e, hq, -⟩ | ⟨q, e, hq, -⟩ | ⟨e, -⟩
  all_goals rw [e] at hb ⊢
  · exact writeReg_inv h r v hb
  · exact { h with tree := Memory.wf_below_setRun h.tree k [v] hk }
  · exact { h with lens := h.lens_setLen x _ }
  · exact { h with cbits := Memory.wf_below_setRun h.cbits _ _ (cbitsCell_run_le x _ 32 (by omega)) }
  · exact { h with inp := Memory.wf_below_setRun h.inp _ _ (by rw [wordBytes_length]; omega) }
  · exact { h with bit := Memory.wf_below_setRun h.bit _ _ (by rw [wordBits_length]; omega) }
  · exact { h with out := Memory.wf_below_setRun h.out _ _ (by rw [wordBytes_length]; omega) }
  · exact h

theorem writeLoc_params (s : State) (loc : Loc) (v : Word) : (s.writeLoc loc v).params = s.params := by
  cases loc with
  | reg r =>
    cases r with
    | ctrl =>
      simp only [State.writeLoc, State.writeReg, State.writeCtrl]
      split
      · exact abort_params s
      · rfl
    | cmd =>
      simp only [State.writeLoc, State.writeReg, State.present]
      split <;> rfl
    | _ => rfl
  | _ => rfl

theorem EventEffect.inv {s t : State} {e : PortEvent} (h : EventEffect s t e) (hs : s.Inv) :
    t.Inv ∧ t.params = s.params := by
  cases h with
  | powerOn ht => exact ht ▸ ⟨{ resetOf_inv hs.params with }, rfl⟩
  | keep _ d n ht => exact ht ▸ ⟨{ hs with }, rfl⟩
  | drop _ _ _ ht => exact ht ▸ ⟨{ hs with }, rfl⟩
  | write o v h4 ho hb ht => exact ht ▸ ⟨{ writeLoc_inv hs h4 ho v hb with }, writeLoc_params s _ v⟩

/-! ## The step -/

/-- What comes next is taken in the state up to the model's own port and draw counter, and the engine's run only while
BUSY = 1. -/
theorem nextEvent_cases (s : State) :
    s.nextEvent = .idle ∨
    (∃ e p n, s.nextEvent = .host e { s with port := p, draws := n }) ∨
    (s.status.busy = true ∧ ∃ p n, s.nextEvent = .engine { s with port := p, draws := n }) := by
  cases hbusy : s.status.busy with
  | false =>
    cases hport : s.port with
    | nil => exact .inl (by simp [State.nextEvent, hport, hbusy])
    | cons e rest => exact .inr (.inl ⟨e, rest, s.draws, by simp [State.nextEvent, hport, hbusy]⟩)
  | true =>
    cases hport : s.port with
    | nil => exact .inr (.inr ⟨rfl, s.port, s.draws, nextEvent_busy_noEvent hbusy hport⟩)
    | cons e rest =>
      rw [nextEvent_busy_event hbusy hport]
      split
      · exact .inr (.inr ⟨rfl, s.port, _, rfl⟩)
      · exact .inr (.inl ⟨_, _, _, rfl⟩)

theorem runEngine_next {s t : State} (h : runEngine s = .next t) : ∃ i, exec i s = .next t := by
  unfold runEngine at h
  split at h
  · exact ⟨_, h⟩
  · cases h

/-- Settles O57, by what comes next: nothing, an event at the port, or the engine's run of its command. -/
theorem everyStepKeepsTheInvariant : Obligations.EveryStepKeepsTheInvariant := by
  unfold Obligations.EveryStepKeepsTheInvariant
  intro s t hs h
  unfold step at h
  rcases nextEvent_cases s with hnext | ⟨e, p, n, hnext⟩ | ⟨hbusy, p, n, hnext⟩
  · rw [hnext] at h
    cases h
    exact ⟨hs, rfl⟩
  · rw [hnext] at h
    exact (portEvent_next h).inv { hs with }
  · rw [hnext] at h
    obtain ⟨i, hexec⟩ := runEngine_next h
    obtain ⟨-, -, hinfo, -⟩ := hs.busy hbusy
    exact exec_inv (s := { s with port := p, draws := n }) hexec (State.Inv.dataInv { hs with }) hinfo

end Sys2Proof.Machine
end

section
/-! PROOFS. The registers as the host reads and writes them (R21 to R32), and the interrupt (R43, R191, R192). -/
namespace Sys2Proof.Machine

theorem ctrlWord_eq (b : Bool) : ctrlWord b = if b then 2#32 else 0#32 := by
  cases b <;> rfl

/-- Settles O41: no register but BIT_LEN and OUT_LEN is busy-unspecified. -/
theorem registersReadTheirValues : Obligations.RegistersReadTheirValues := by
  unfold Obligations.RegistersReadTheirValues
  intro s
  have hread : ∀ (o : Nat) (r : Reg), regAt o = some r → busyUnspecified (.reg r) = false →
      s.hostReads o = .next { s with busData := some (s.readReg r) } := fun _ r hr hb => hostReads_reg r hr (.inr hb)
  have hctrl := hread 0x004 .ctrl rfl rfl
  rw [State.readReg, ctrlWord_eq] at hctrl
  exact ⟨hread 0x000 .id rfl rfl, hctrl, hread 0x008 .cmd rfl rfl, hread 0x00C .status rfl rfl,
    hread 0x010 .errInfo rfl rfl, hread 0x014 .nodeCount rfl rfl, hread 0x018 .root rfl rfl,
    hread 0x01C .inLen rfl rfl, hread 0x028 .inDepthR rfl rfl, hread 0x02C .bitDepthR rfl rfl,
    hread 0x030 .outDepthR rfl rfl,
    fun hidle => ⟨hostReads_reg .bitLen rfl (.inl hidle), hostReads_reg .outLen rfl (.inl hidle)⟩⟩

/-- Settles O42: none of the four is dropped while BUSY = 0. -/
theorem lengthAndRootRegistersStoreAllBits : Obligations.LengthAndRootRegistersStoreAllBits := by
  unfold Obligations.LengthAndRootRegistersStoreAllBits
  intro s v hidle
  exact ⟨hostWrites_reg .nodeCount v rfl (.inl hidle), hostWrites_reg .root v rfl (.inl hidle),
    hostWrites_reg .inLen v rfl (.inl hidle), hostWrites_reg .bitLen v rfl (.inl hidle)⟩

theorem hostWrites_ctrl (s : State) (v : Word) : s.hostWrites 0x004 v = .next { s.writeCtrl v with busData := none } :=
  hostWrites_reg .ctrl v rfl (.inr rfl)

theorem hostWrites_status (s : State) (v : Word) :
    s.hostWrites 0x00C v = .next { s with status := s.status.w1c v, busData := none } :=
  hostWrites_reg .status v rfl (.inr rfl)

/-- Settles O44: a CTRL write is never dropped (R223). -/
theorem ctrlWriteSetsIrqEnable : Obligations.CtrlWriteSetsIrqEnable := by
  unfold Obligations.CtrlWriteSetsIrqEnable
  intro s v hsrst
  rw [hostWrites_ctrl, State.writeCtrl, if_neg (by rw [hsrst]; exact Bool.false_ne_true)]

/-- Settles O43, the fields of the STATUS word bit by bit. -/
theorem statusWordAndWriteOneToClear : Obligations.StatusWordAndWriteOneToClear := by
  unfold Obligations.StatusWordAndWriteOneToClear
  refine ⟨by decide, by decide, fun st => ?_, fun s v => ?_⟩
  · simp only [Status.word]
    refine ⟨by simp, by simp, by simp, by simp, ?_, ?_, ?_, ?_, ?_⟩
    all_goals
      apply BitVec.eq_of_getLsbD_eq
      intro i hi
      interval_cases i <;> simp
  · rw [hostWrites_status, Status.w1c]
    cases v.getLsbD 1 <;> cases v.getLsbD 2 <;> simp

/-- Settles O51: DONE after a completion, a CTRL write, a W1C of DONE, and an acceptance. -/
theorem interruptIsLevelOfDone : Obligations.InterruptIsLevelOfDone := by
  unfold Obligations.InterruptIsLevelOfDone
  refine ⟨fun s => rfl, fun i s t h => ?_, fun s t v hdone hsrst h => ?_, fun s t v hclear h => ?_,
    fun s t v hidle hv h => ?_⟩
  · obtain ⟨-, hdone, -, hirqEn⟩ := exec_next_flags h
    simp [State.irq, hdone, hirqEn]
  · rw [ctrlWriteSetsIrqEnable s v hsrst] at h
    cases h
    simp [State.irq, hdone]
  · rw [hostWrites_status] at h
    cases h
    simp [State.irq, Status.w1c, hclear]
  · obtain ⟨i, hdecode⟩ := decodeWord_of_le hv
    rw [hostWrites_reg .cmd v rfl (.inl hidle), State.writeReg, State.present, hdecode] at h
    cases h
    simp [State.irq]

end Sys2Proof.Machine
end

section
/-! PROOFS. The model's own loading of a command word (log 10). -/
namespace Sys2Proof.Machine

theorem tableWord_eq_some {w : Nat} {v : Word} (h : tableWord 32 w = some v) : v = BitVec.ofNat 32 (w % 2 ^ 32) := by
  unfold tableWord at h
  split at h
  · exact (Option.some.inj h).symm
  · cases h

theorem decodeWord_of_decodeTableWord {w : Nat} {i : Instr} (h : decodeTableWord 32 w = some i) :
    decodeWord (BitVec.ofNat 32 (w % 2 ^ 32)) = .ok i := by
  unfold decodeTableWord at h
  split at h
  · rename_i v hv
    rw [← tableWord_eq_some hv]
    cases hd : decodeWord v with
    | ok j =>
      rw [hd] at h
      exact congrArg Except.ok (Option.some.inj h)
    | error r =>
      rw [hd] at h
      cases h
  · cases h

/-- Settles O7: the loaded state has the command accepted and nothing at the port, where the engine runs next. -/
theorem fetchedWordRunsNext : Obligations.FetchedWordRunsNext := by
  unfold Obligations.FetchedWordRunsNext
  intro s w i h
  have hdecode := decodeWord_of_decodeTableWord h
  have hload : s.withFetchWord 32 w = { s.accept (encode i) with port := [] } := by
    rw [State.withFetchWord, State.withCommand, hdecode, eq_encode_of_decodeWord hdecode]
  have hheld : decodeWord (0#24 ++ cmdOp (encode i)) = .ok i := by
    cases i <;> rfl
  rw [hload]
  exact (stepRunsTheHeldCommand { s.accept (encode i) with port := [] } i rfl hheld).1 rfl

end Sys2Proof.Machine
end

section
/-! PROOFS. What an event at the port does to STATUS (R24, R34, R220, R224). -/
namespace Sys2Proof.Machine

/-- R22, R24, R183, R187: which writes that take effect change STATUS. -/
theorem writeLoc_status (s : State) (loc : Loc) (v : Word) :
    (s.writeLoc loc v).status = s.status ∨
    (loc = .reg .ctrl ∧ v.getLsbD 0 = true ∧ (s.writeLoc loc v).status = .reset) ∨
    (loc = .reg .status ∧ (s.writeLoc loc v).status = s.status.w1c v) ∨
    (loc = .reg .cmd ∧ (s.writeLoc loc v).status = (s.present v).status) := by
  cases loc with
  | reg r =>
    cases r with
    | ctrl =>
      by_cases hsrst : v.getLsbD 0 = true
      · exact .inr (.inl ⟨rfl, hsrst, by rw [State.writeLoc, State.writeReg, State.writeCtrl, if_pos hsrst]; rfl⟩)
      · exact .inl (by rw [State.writeLoc, State.writeReg, State.writeCtrl, if_neg hsrst])
    | status => exact .inr (.inr (.inl ⟨rfl, rfl⟩))
    | cmd => exact .inr (.inr (.inr ⟨rfl, rfl⟩))
    | _ => exact .inl rfl
  | _ => exact .inl rfl

/-- R183, R187: OVR is not changed. -/
@[simp] theorem present_ovr (s : State) (v : Word) : (s.present v).status.ovr = s.status.ovr := by
  unfold State.present
  split <;> rfl

/-- What an event at the port leaves STATUS as: unchanged; at its reset value (R210, R212); after write-1-to-clear (R24);
with OVR unchanged, by a command word while BUSY = 0 (R183, R187); with OVR set, by a dropped write (R220). -/
theorem EventEffect.status {s t : State} {e : PortEvent} (h : EventEffect s t e) :
    t.status = s.status ∨
    (t.status = .reset ∧ (e = .powerOn ∨ ∃ v, e = .write (s.params.base + 0x004) 4 v ∧ v.getLsbD 0 = true)) ∨
    (∃ v, e = .write (s.params.base + 0x00C) 4 v ∧ t.status = s.status.w1c v) ∨
    (s.status.busy = false ∧ t.status.ovr = s.status.ovr) ∨
    (s.status.busy = true ∧ (∃ addr v, e = .write addr 4 v) ∧ t.status = { s.status with ovr := true }) := by
  cases h with
  | powerOn ht => exact .inr (.inl ⟨ht ▸ rfl, .inl rfl⟩)
  | keep _ d n ht => exact .inl (ht ▸ rfl)
  | drop addr v hbusy ht => exact .inr (.inr (.inr (.inr ⟨hbusy, ⟨addr, v, rfl⟩, ht ▸ rfl⟩)))
  | write o v h4 ho hb ht =>
    have hstatus : t.status = (s.writeLoc (locate s.params o) v).status := ht ▸ rfl
    rw [hstatus]
    rcases writeLoc_status s (locate s.params o) v with hkeep | ⟨hloc, hsrst, hreset⟩ | ⟨hloc, hw1c⟩ | ⟨hloc, hcmd⟩
    · exact .inl hkeep
    · exact .inr (.inl ⟨hreset, .inr ⟨v, by rw [eq_offset_of_locate hloc, Reg.offset], hsrst⟩⟩)
    · exact .inr (.inr (.inl ⟨v, by rw [eq_offset_of_locate hloc, Reg.offset], hw1c⟩))
    · rw [hloc] at hb
      exact .inr (.inr (.inr (.inl ⟨hb.resolve_right Bool.noConfusion, by rw [hcmd, present_ovr]⟩)))

/-- Settles O58: of what an event can do to STATUS, only a reset clears BUSY. -/
theorem busyEndsOnlyByCompletionOrReset : Obligations.BusyEndsOnlyByCompletionOrReset := by
  unfold Obligations.BusyEndsOnlyByCompletionOrReset
  refine ⟨fun s t e h hbusy hend => ?_, fun s t i h => (exec_next_flags h).1⟩
  rcases (portEvent_next h).status with hkeep | hreset | ⟨v, -, hw1c⟩ | ⟨hidle, -⟩ | ⟨-, -, hdrop⟩
  · simp [hkeep, hbusy] at hend
  · exact hreset
  · simp [hw1c, Status.w1c, hbusy] at hend
  · simp [hidle] at hbusy
  · simp [hdrop, hbusy] at hend

/-- Settles O59: of what an event can do to STATUS, only a dropped write sets OVR, and only W1C or a reset clears it. -/
theorem ovrRecordsDroppedWrites : Obligations.OvrRecordsDroppedWrites := by
  unfold Obligations.OvrRecordsDroppedWrites
  refine ⟨fun s t e h => ?_, fun s t i h => ?_⟩
  · by_cases hsame : t.status.ovr = s.status.ovr
    · exact ⟨fun hclear hrise => by simp [hsame, hclear] at hrise, fun hset hfall => by simp [hsame, hset] at hfall⟩
    rcases (portEvent_next h).status with
      hkeep | ⟨hreset, hevent⟩ | ⟨v, he, hw1c⟩ | ⟨-, hkeep⟩ | ⟨hbusy, hwrite, hdrop⟩
    · exact absurd (by rw [hkeep]) hsame
    · refine ⟨fun _ hrise => ?_, fun _ _ => hevent.imp id .inr⟩
      simp [hreset, Status.reset] at hrise
    · refine ⟨fun hclear hrise => ?_, fun hset hfall => .inr (.inl ⟨v, he, ?_⟩)⟩
      · simp [hw1c, Status.w1c, hclear] at hrise
      · simpa [hw1c, Status.w1c, hset] using hfall
    · exact absurd hkeep hsame
    · exact ⟨fun _ _ => ⟨hbusy, hwrite⟩, fun _ hfall => by simp [hdrop] at hfall⟩
  · obtain ⟨-, -, hovr, -⟩ := exec_next_flags h
    exact hovr

end Sys2Proof.Machine
end

section
/-! PROOFS. No command reads STATUS (R34): the body of a command ends with another STATUS as it does with this one. -/
namespace Sys2Proof.Machine

/-- `s` with STATUS replaced. -/
def State.withStatus (s : State) (st : Status) : State := { s with status := st }

section
variable (s : State) (st : Status)

@[simp] theorem withStatus_params : (s.withStatus st).params = s.params := rfl
@[simp] theorem withStatus_nodeCount : (s.withStatus st).nodeCount = s.nodeCount := rfl
@[simp] theorem withStatus_inLen : (s.withStatus st).inLen = s.inLen := rfl
@[simp] theorem withStatus_bitLen : (s.withStatus st).bitLen = s.bitLen := rfl
@[simp] theorem withStatus_tree : (s.withStatus st).tree = s.tree := rfl
@[simp] theorem withStatus_eng : (s.withStatus st).eng = s.eng := rfl
@[simp] theorem withStatus_lenOf (x : Byte) : (s.withStatus st).lenOf x = s.lenOf x := rfl
@[simp] theorem withStatus_countVisit : (s.withStatus st).countVisit = s.countVisit.withStatus st := rfl
@[simp] theorem withStatus_buildPreCheck : (s.withStatus st).buildPreCheck = s.buildPreCheck := rfl

end

/-- The end of a body, with STATUS replaced there. -/
def Body.withStatus (st : Status) : Body → Body
  | .ok s => .ok (s.withStatus st)
  | .raise e info s => .raise e info (s.withStatus st)
  | .fault r => .fault r

theorem Body.withStatus_eq_fault {b : Body} {st : Status} {r : Fault} (h : b.withStatus st = .fault r) : b = .fault r := by
  cases b with
  | ok s => cases h
  | raise e info s => cases h
  | fault r' => exact h

/-- A piece of pseudocode that STATUS does not touch and that does not touch STATUS. -/
def IgnoresStatus (f : State → Body) : Prop := ∀ s st, f (s.withStatus st) = (f s).withStatus st

theorem IgnoresStatus.andThen {f g : State → Body} (hf : IgnoresStatus f) (hg : IgnoresStatus g) :
    IgnoresStatus fun s => (f s).andThen g := by
  intro s st
  simp only [hf s st]
  cases f s with
  | ok t => exact hg t st
  | raise e info t => rfl
  | fault r => rfl

theorem Body.withRead_withStatus {β : Type} (st : Status) (x : Except Fault β) {f g : β → Body}
    (h : ∀ v, g v = (f v).withStatus st) : Body.withRead x g = (Body.withRead x f).withStatus st := by
  cases x with
  | ok v => exact h v
  | error r => rfl

/-! ## BUILD_CODES -/

/-- Where a visit leads, with STATUS replaced there. -/
def Visit.withStatus (st : Status) : Visit → Visit
  | .goto h s => .goto h (s.withStatus st)
  | .stop b => .stop (b.withStatus st)

theorem popPending_withStatus (s : State) (st : Status) :
    (s.withStatus st).popPending = s.popPending.withStatus st := by
  unfold State.popPending
  rw [withStatus_eng]
  cases s.eng.stack <;> rfl

theorem visitLeaf_withStatus (s : State) (h : Nat) (x : Byte) (st : Status) :
    (s.withStatus st).visitLeaf h x = (s.visitLeaf h x).withStatus st := by
  unfold State.visitLeaf
  rw [withStatus_lenOf]
  split
  · rfl
  · exact popPending_withStatus (s.writeCode x (leafCode s.eng.path)) st

theorem visitInternal_withStatus (s : State) (h left right : Nat) (st : Status) :
    (s.withStatus st).visitInternal h left right = (s.visitInternal h left right).withStatus st := by
  unfold State.visitInternal
  rw [withStatus_nodeCount, withStatus_eng]
  split_ifs <;> rfl

theorem visitNode_withStatus (s : State) (h : Nat) (st : Status) :
    (s.withStatus st).visitNode h = (s.visitNode h).withStatus st := by
  unfold State.visitNode
  rw [withStatus_tree]
  cases readCell .tree s.tree h with
  | error r => rfl
  | ok w =>
    simp only
    split
    · exact visitLeaf_withStatus s h _ st
    · exact visitInternal_withStatus s h _ _ st

theorem visitLoop_ignoresStatus (left h : Nat) : IgnoresStatus (visitLoop left h) := by
  intro s st
  induction left generalizing h s with
  | zero => rfl
  | succ left ih =>
    rw [visitLoop, visitLoop, withStatus_countVisit, visitNode_withStatus]
    cases s.countVisit.visitNode h with
    | goto h' s' => exact ih h' s'
    | stop b => rfl

theorem buildBody_ignoresStatus : IgnoresStatus buildBody := by
  intro s st
  unfold buildBody
  rw [withStatus_buildPreCheck]
  cases s.buildPreCheck with
  | some e => rfl
  | none => exact visitLoop_ignoresStatus _ _ (s.enterStage .build).clearLens st

/-! ## ENCODE -/

theorem encodeSymbol_ignoresStatus : IgnoresStatus encodeSymbol := by
  intro s st
  refine Body.withRead_withStatus st _ fun sym => ?_
  rw [withStatus_lenOf, withStatus_params, withStatus_eng]
  split
  · rfl
  split
  · rfl
  · exact Body.withRead_withStatus st _ fun code => rfl

theorem encodeLoop_ignoresStatus (left : Nat) : IgnoresStatus (encodeLoop left) := by
  induction left with
  | zero => exact fun _ _ => rfl
  | succ left ih => exact encodeSymbol_ignoresStatus.andThen ih

theorem encodeBody_ignoresStatus : IgnoresStatus encodeBody := by
  intro s st
  unfold encodeBody
  rw [withStatus_params, withStatus_inLen]
  split
  · rfl
  · exact encodeLoop_ignoresStatus _ (s.enterStage .encode) st

/-! ## PACK -/

theorem packGroup_ignoresStatus (n : Nat) : IgnoresStatus (packGroup n) :=
  fun _ st => Body.withRead_withStatus st _ fun _ => rfl

theorem packLoop_ignoresStatus (left : Nat) : IgnoresStatus (packLoop left) := by
  induction left with
  | zero => exact fun _ _ => rfl
  | succ left ih => exact (packGroup_ignoresStatus 8).andThen ih

theorem packFinal_ignoresStatus (r : Nat) : IgnoresStatus (packFinal r) := by
  intro s st
  unfold packFinal
  split
  · rfl
  · exact packGroup_ignoresStatus r s st

theorem packBody_ignoresStatus : IgnoresStatus packBody := by
  intro s st
  unfold packBody
  rw [withStatus_params, withStatus_bitLen]
  split
  · rfl
  · exact ((packLoop_ignoresStatus _).andThen (packFinal_ignoresStatus _)).andThen (fun _ _ => rfl)
      (s.enterStage .pack) st

/-! ## The commands -/

theorem cmdBody_ignoresStatus (i : Instr) : IgnoresStatus (cmdBody i) := by
  cases i with
  | nop | clearCodes => exact fun _ _ => rfl
  | buildCodes => exact buildBody_ignoresStatus
  | encode => exact encodeBody_ignoresStatus
  | pack => exact packBody_ignoresStatus
  | run => exact (buildBody_ignoresStatus.andThen encodeBody_ignoresStatus).andThen packBody_ignoresStatus

/-- Settles O11: the completion keeps OVR and LASTOP of the STATUS that the body ignores, and sets the other fields. -/
theorem noCommandReadsTheFlags : Obligations.NoCommandReadsTheFlags := by
  unfold Obligations.NoCommandReadsTheFlags
  intro i s t st h
  rw [exec_eq_complete] at h
  have hbody : exec i { s with status := st } = ((cmdBody i s).withStatus st).complete := by
    rw [exec_eq_complete, ← cmdBody_ignoresStatus i s st]
    rfl
  rw [hbody]
  rcases Body.complete_eq_next h with ⟨u, hb, rfl⟩ | ⟨e, info, u, hb, rfl⟩
  · rw [hb]
    rfl
  · rw [hb]
    rfl

end Sys2Proof.Machine
end

section
/-! PROOFS. Reads of never-written cells (D35, U2): the host's, while BUSY = 0, and those of the commands. -/
namespace Sys2Proof.Machine

/-! ## The host -/

theorem hostReads_fault {s : State} {o : Nat} {r : Fault} (hidle : s.status.busy = false) (h4 : o % 4 = 0)
    (ho : o < 0x20000) (hread : s.readLoc (locate s.params o) = .error r) : s.hostReads o = .fault r := by
  rw [hostReads_eq s o ho h4, State.hostRead, hidle, hread]
  rfl

/-- A window word of several cells, one of them never written. -/
theorem hostReads_hole {α : Type} {s : State} {o base len : Nat} {n : MemName} {m : Memory α} {f : List α → Word}
    (hidle : s.status.busy = false) (h4 : o % 4 = 0) (ho : o < 0x20000)
    (hread : s.readLoc (locate s.params o) = (readCells n m base len).map f) (hole : m.Hole base len) :
    ∃ c, m.FirstHole base len c ∧ s.hostReads o = .fault (.unwrittenRead n c) := by
  obtain ⟨c, hfirst, herror⟩ := readCells_hole (n := n) hole
  rw [herror] at hread
  exact ⟨c, hfirst, hostReads_fault hidle h4 ho hread⟩

/-! ## BUILD_CODES -/

/-- R114: a visit that the limit still allows. -/
theorem countVisit_notOverLimit {s : State} (hlimit : s.eng.visits < s.nodeCount.toNat) :
    ¬ s.nodeCount.toNat < s.countVisit.eng.visits :=
  Nat.not_lt.2 hlimit

/-- R115: a visit of a leaf whose symbol has no code. -/
theorem visitRec_leaf {room h : Nat} {path : List Bool} {s : State} {w : Word}
    (hlimit : s.eng.visits < s.nodeCount.toNat) (hw : s.tree.get h = some w) (hleaf : nodeIsLeaf w = true)
    (hfree : s.lenOf (nodeSym w) = 0#8) :
    visitRec room h path s = .ok (s.countVisit.writeCode (nodeSym w) (leafCode path)) := by
  rw [visitRec_eq, if_neg (countVisit_notOverLimit hlimit), readCell_of_get hw, Body.withRead_ok, if_pos hleaf,
    if_neg (by simp [hfree])]

/-- R117, R118: a visit of an internal node above the depth limit. -/
theorem visitRec_internal {room h : Nat} {path : List Bool} {s : State} {w : Word}
    (hlimit : s.eng.visits < s.nodeCount.toNat) (hw : s.tree.get h = some w) (hleaf : nodeIsLeaf w = false)
    (hleft : nodeLeft w < s.nodeCount.toNat) (hright : nodeRight w < s.nodeCount.toNat) :
    visitRec (room + 1) h path s = (visitRec room (nodeLeft w) (path ++ [false]) s.countVisit).andThen
      (visitRec room (nodeRight w) (path ++ [true])) := by
  rw [visitRec_eq, if_neg (countVisit_notOverLimit hlimit), readCell_of_get hw, Body.withRead_ok,
    if_neg (by simp [hleaf]), if_neg (by omega), if_neg (by omega), if_neg (Nat.succ_ne_zero room), Nat.add_sub_cancel]

/-- U2: a visit of a node that was never written. -/
theorem visitRec_unwritten {room h : Nat} {path : List Bool} {s : State}
    (hlimit : s.eng.visits < s.nodeCount.toNat) (hw : s.tree.get h = none) :
    visitRec room h path s = .fault (.unwrittenRead .tree h) := by
  rw [visitRec_eq, if_neg (countVisit_notOverLimit hlimit), readCell_of_none hw, Body.withRead_error]

theorem VisitWrites.tree {s t : State} (h : VisitWrites s t) : t.tree = s.tree := by
  obtain ⟨_, _, _, rfl⟩ := h
  rfl

theorem VisitWrites.nodeCount {s t : State} (h : VisitWrites s t) : t.nodeCount = s.nodeCount := by
  obtain ⟨_, _, _, rfl⟩ := h
  rfl

/-- What a visit of a whole subtree leaves: the count of its nodes, and codes for its symbols only. -/
structure Visited (T : CodeTree) (s t : State) : Prop where
  writes : VisitWrites s t
  visits : t.eng.visits = s.eng.visits + T.size
  others : ∀ x, x ∉ T.symbols → t.lenOf x = s.lenOf x

/-- R113: VISIT of a subtree of symbols without a code, within the limits of depth and of visits. -/
theorem visitRec_holdsTree {T : CodeTree} {room h : Nat} {path : List Bool} {s : State} (hT : s.HoldsTree h T)
    (hdepth : T.depth ≤ room) (hsize : s.eng.visits + T.size ≤ s.nodeCount.toNat) (hnodup : T.symbols.Nodup)
    (hfree : ∀ x ∈ T.symbols, s.lenOf x = 0#8) : ∃ t, visitRec room h path s = .ok t ∧ Visited T s t := by
  induction T generalizing room h path s with
  | leaf x =>
    obtain ⟨w, hw, hleaf, rfl⟩ := hT
    refine ⟨_, visitRec_leaf hsize hw hleaf (hfree _ (by simp [CodeTree.symbols])),
      (countVisit_writes s).trans (writeCode_writes _ _ _), rfl, fun y hy => ?_⟩
    rw [writeCode_lenOf, if_neg (by simpa [CodeTree.symbols] using hy), countVisit_lenOf]
  | node l r ihl ihr =>
    obtain ⟨w, hw, hleaf, hleft, hright, hl, hr⟩ := hT
    rw [CodeTree.depth] at hdepth
    rw [CodeTree.size] at hsize
    simp only [CodeTree.symbols] at hnodup hfree
    obtain ⟨hnl, hnr, hdisj⟩ := List.nodup_append'.1 hnodup
    obtain ⟨room, rfl⟩ : ∃ k, room = k + 1 := ⟨room - 1, by omega⟩
    rw [visitRec_internal (by omega) hw hleaf hleft hright]
    obtain ⟨t, ht, hvt⟩ := ihl (room := room) (path := path ++ [false]) (s := s.countVisit)
      (hl.congr (s := s) (t := s.countVisit) rfl rfl) (by omega)
      (by show s.eng.visits + 1 + l.size ≤ s.nodeCount.toNat; omega) hnl (fun x hx => hfree x (by simp [hx]))
    have hvisits : t.eng.visits = s.eng.visits + 1 + l.size := hvt.visits
    have hcount : t.nodeCount = s.nodeCount := hvt.writes.nodeCount
    have htree : t.tree = s.tree := hvt.writes.tree
    obtain ⟨u, hu, hvu⟩ := ihr (room := room) (path := path ++ [true]) (s := t) (hr.congr htree hcount)
      (by omega) (by rw [hvisits, hcount]; omega) hnr
      (fun x hx => by rw [hvt.others x fun hxl => hdisj hxl hx]; exact hfree x (by simp [hx]))
    refine ⟨u, by rw [ht, Body.andThen_ok, hu],
      ((countVisit_writes s).trans hvt.writes).trans hvu.writes,
      by rw [hvu.visits, hvisits, CodeTree.size]; omega, fun x hx => ?_⟩
    obtain ⟨hxl, hxr⟩ : x ∉ l.symbols ∧ x ∉ r.symbols := by simpa [CodeTree.symbols] using hx
    rw [hvu.others x hxr, hvt.others x hxl, countVisit_lenOf]

/-- A traversal that comes to a never-written node stops there (R113, U2). TREE and NODE_COUNT are `s`'s throughout. -/
theorem visitRec_meetsUnwritten {s : State} {g h depth count : Nat} {syms : List Byte}
    (hm : s.MeetsUnwritten g h depth count syms) {room : Nat} {path : List Bool} {t : State}
    (htree : t.tree = s.tree) (hnodes : t.nodeCount = s.nodeCount) (hdepth : depth ≤ room)
    (hlimit : t.eng.visits + count < t.nodeCount.toNat) (hnodup : syms.Nodup) (hfree : ∀ x ∈ syms, t.lenOf x = 0#8) :
    visitRec room h path t = .fault (.unwrittenRead .tree g) := by
  induction hm generalizing room path t with
  | here hg => exact visitRec_unwritten (by omega) (htree ▸ hg)
  | left h w depth count syms hw hleaf hleft hright _ ih =>
    obtain ⟨room, rfl⟩ : ∃ k, room = k + 1 := ⟨room - 1, by omega⟩
    rw [visitRec_internal (by omega) (htree ▸ hw) hleaf (hnodes ▸ hleft) (hnodes ▸ hright),
      ih (t := t.countVisit) htree hnodes (by omega)
        (by show t.eng.visits + 1 + count < t.nodeCount.toNat; omega) hnodup hfree, Body.andThen_fault]
  | right h w T depth count syms hw hleaf hleft hright hT _ ih =>
    obtain ⟨hnT, hnsyms, hdisj⟩ := List.nodup_append'.1 hnodup
    obtain ⟨room, rfl⟩ : ∃ k, room = k + 1 := ⟨room - 1, by omega⟩
    obtain ⟨u, hu, hvu⟩ := visitRec_holdsTree (room := room) (path := path ++ [false]) (s := t.countVisit)
      (hT.congr (s := s) (t := t.countVisit) htree hnodes) (by omega)
      (by show t.eng.visits + 1 + T.size ≤ t.nodeCount.toNat; omega) hnT (fun x hx => hfree x (by simp [hx]))
    have hvisits : u.eng.visits = t.eng.visits + 1 + T.size := hvu.visits
    have hcount : u.nodeCount = t.nodeCount := hvu.writes.nodeCount
    rw [visitRec_internal (by omega) (htree ▸ hw) hleaf (hnodes ▸ hleft) (hnodes ▸ hright), hu, Body.andThen_ok]
    refine ih (hvu.writes.tree.trans htree) (hcount.trans hnodes) (by omega) (by rw [hvisits, hcount]; omega) hnsyms
      fun x hx => ?_
    rw [hvu.others x fun hxT => hdisj hxT hx]
    exact hfree x (by simp [hx])

/-- R111: the pre-checks pass where NODE_COUNT is at most 512 and ROOT is below it. -/
theorem buildPreCheck_none {s : State} (hcount : s.nodeCount.toNat ≤ 512) (hroot : s.root.toNat < s.nodeCount.toNat) :
    s.buildPreCheck = none := by
  rw [State.buildPreCheck, if_neg (by simpa using hcount), if_neg (by omega), if_neg (by omega)]

theorem exec_buildCodes_meetsUnwritten {s : State} {g depth count : Nat} {syms : List Byte}
    (hcount : s.nodeCount.toNat ≤ 512) (hroot : s.root.toNat < s.nodeCount.toNat)
    (hm : s.MeetsUnwritten g s.root.toNat depth count syms) (hdepth : depth ≤ 255) (hlimit : count < s.nodeCount.toNat)
    (hnodup : syms.Nodup) : exec .buildCodes s = .fault (.unwrittenRead .tree g) := by
  have hvisit := visitRec_meetsUnwritten hm (path := []) (t := (s.enterStage .build).clearLens) rfl rfl hdepth
    (by show 0 + count < s.nodeCount.toNat; omega) hnodup fun _ _ => rfl
  rw [exec_buildCodes_eq_buildRec, buildRec, buildPreCheck_none hcount hroot]
  simp only
  rw [hvisit, Body.complete_fault]

/-! ## ENCODE -/

/-- R132: an iteration whose symbol was never written. -/
theorem encodeSymbol_unwritten {u : State} (h : u.inp.get u.eng.symIdx = none) :
    encodeSymbol u = .fault (.unwrittenRead .inp u.eng.symIdx) := by
  rw [encodeSymbol, readCell_of_none h, Body.withRead_error]

/-- R132: an iteration whose symbol has a code that fits, with a bit that was never written. -/
theorem encodeSymbol_hole {u : State} {x : Byte} (hi : u.inp.get u.eng.symIdx = some x) (hx : u.lenOf x ≠ 0#8)
    (hfit : u.eng.bitCur + (u.lenOf x).toNat ≤ u.params.bitDepth)
    (hole : u.cbits.Hole (cbitsCell x 0) (u.lenOf x).toNat) :
    ∃ c, u.cbits.FirstHole (cbitsCell x 0) (u.lenOf x).toNat c ∧ encodeSymbol u = .fault (.unwrittenRead .cbits c) := by
  obtain ⟨c, hfirst, herror⟩ := readCells_hole (n := .cbits) hole
  have hlen : ¬ (u.lenOf x).toNat = 0 := fun h => hx (BitVec.eq_of_toNat_eq h)
  refine ⟨c, hfirst, ?_⟩
  rw [encodeSymbol, readCell_of_get hi, Body.withRead_ok, if_neg hlen, if_neg (by omega), herror, Body.withRead_error]

/-- ENCODE's state in its loop: BIT, the symbol index and the bit cursor have changed since it began. -/
def State.inEncode (s : State) (b : Memory Bool) (symIdx bitCur : Nat) : State :=
  { s with bit := b, eng := { EngineRegs.idle with stage := .encode, symIdx := symIdx, bitCur := bitCur } }

/-- ENCODE goes through coded symbols whose codes fit, to the iteration of the symbol after them. -/
theorem exec_encode_afterCodes {s : State} {pre : List Byte} {code : Byte → List Bool} (hpre : pre.length < s.inLen.toNat)
    (hin : s.inLen.toNat ≤ s.params.inDepth) (hinp : ∀ i, i < pre.length → s.inp.get i = pre[i]?)
    (hcode : ∀ y ∈ pre, s.CodeIs y (code y) ∧ code y ≠ []) (hfit : (pre.flatMap code).length ≤ s.params.bitDepth) :
    ∃ b left, exec .encode s =
      ((encodeSymbol (s.inEncode b pre.length (pre.flatMap code).length)).andThen (encodeLoop left)).complete := by
  obtain ⟨left, hleft⟩ : ∃ left, s.inLen.toNat = pre.length + (left + 1) := ⟨s.inLen.toNat - pre.length - 1, by omega⟩
  obtain ⟨b, hloop, -⟩ := encodeLoop_prefix code pre (left + 1) (s.enterStage .encode)
    (fun k hk => by rw [← hinp k hk]; exact congrArg s.inp.get (Nat.zero_add k)) hcode
    (by rw [← Nat.zero_add (pre.flatMap code).length] at hfit; exact hfit)
  refine ⟨b, left, ?_⟩
  rw [exec_eq_complete, cmdBody, encodeBody, if_neg (by omega), hleft, hloop, encodeLoop]
  simp [State.inEncode, State.enterStage, EngineRegs.idle]

/-! ## PACK -/

/-- A run of cells in two parts. -/
theorem readCells_add {α : Type} (n : MemName) (m : Memory α) (base k l : Nat) :
    readCells n m base (k + l) = (readCells n m base k).bind fun vs => (readCells n m (base + k) l).map (vs ++ ·) := by
  induction k generalizing base with
  | zero => cases h : readCells n m base l <;> simp [readCells, Except.bind, Except.map, h]
  | succ k ih =>
    rw [Nat.succ_add, readCells, readCells, ih, show base + 1 + k = base + (k + 1) by omega]
    cases readCell n m base with
    | error r => rfl
    | ok v =>
      cases readCells n m (base + 1) k with
      | error r => rfl
      | ok vs => cases readCells n m (base + (k + 1)) l <;> rfl

/-- R152, R153: PACK's groups read the stream's cells in order, so they stop where a read of all of them stops. -/
theorem packGroups_fault {left r : Nat} {u : State} {f : Fault}
    (h : readCells .bit u.bit (8 * u.eng.byteIdx) (8 * left + r) = .error f) :
    (packLoop left u).andThen (packFinal r) = .fault f := by
  induction left generalizing u with
  | zero =>
    rw [Nat.mul_zero, Nat.zero_add] at h
    have hr : r ≠ 0 := by
      rintro rfl
      cases h
    rw [packLoop, Body.andThen_ok, packFinal, if_neg hr, packGroup, h, Body.withRead_error]
  | succ left ih =>
    rw [show 8 * (left + 1) + r = 8 + (8 * left + r) by omega, readCells_add] at h
    rw [packLoop, packGroup]
    cases hgroup : readCells .bit u.bit (8 * u.eng.byteIdx) 8 with
    | error e =>
      rw [hgroup] at h
      cases h
      rfl
    | ok bits =>
      rw [hgroup] at h
      rw [Body.withRead_ok, Body.andThen_ok]
      refine ih (u := u.storeByte bits) ?_
      cases hrest : readCells .bit u.bit (8 * u.eng.byteIdx + 8) (8 * left + r) with
      | error e =>
        simp only [Except.bind, hrest] at h
        cases h
        exact hrest
      | ok vs =>
        simp only [Except.bind, hrest] at h
        cases h

theorem exec_pack_hole {s : State} (hfit : s.bitLen.toNat ≤ s.params.bitDepth) (hole : s.bit.Hole 0 s.bitLen.toNat) :
    ∃ c, s.bit.FirstHole 0 s.bitLen.toNat c ∧ exec .pack s = .fault (.unwrittenRead .bit c) := by
  obtain ⟨c, hfirst, herror⟩ := readCells_hole (n := .bit) hole
  refine ⟨c, hfirst, ?_⟩
  have hgroups : (packLoop (s.bitLen.toNat / 8) (s.enterStage .pack)).andThen (packFinal (s.bitLen.toNat % 8)) =
      .fault (.unwrittenRead .bit c) := by
    refine packGroups_fault ?_
    rw [Nat.div_add_mod]
    exact herror
  rw [exec_eq_complete, cmdBody, packBody, if_neg (by omega), hgroups, Body.andThen_fault, Body.complete_fault]

/-! ## RUN -/

theorem Body.complete_eq_fault {b : Body} {r : Fault} (h : b.complete = .fault r) : b = .fault r := by
  cases b with
  | ok t => cases h
  | raise e info t => cases h
  | fault r' =>
    cases h
    rfl

theorem exec_run_of_build_fault {s : State} {r : Fault} (h : exec .buildCodes s = .fault r) : exec .run s = .fault r := by
  rw [exec_eq_complete] at h ⊢
  have hbuild : buildBody s = .fault r := Body.complete_eq_fault h
  rw [cmdBody, hbuild, Body.andThen_fault, Body.andThen_fault, Body.complete_fault]

/-- ENCODE's stage reads neither the flags nor the internal registers, which is all that a completion changes. -/
theorem encodeBody_completeOk (u : State) : encodeBody u.completeOk = (encodeBody u).withStatus u.completeOk.status :=
  encodeBody_ignoresStatus u u.completeOk.status

theorem exec_run_of_encode_fault {s t : State} {r : Fault} (hbuild : exec .buildCodes s = .next t)
    (herr : t.status.err = .none) (hencode : exec .encode t = .fault r) : exec .run s = .fault r := by
  rw [exec_eq_complete] at hbuild hencode ⊢
  rcases Body.complete_eq_next hbuild with ⟨u, hb, rfl⟩ | ⟨e, info, u, hb, rfl⟩
  · have hu : (encodeBody u).withStatus u.completeOk.status = .fault r := by
      rw [← encodeBody_completeOk]
      exact Body.complete_eq_fault hencode
    rw [cmdBody] at hb
    rw [cmdBody, hb, Body.andThen_ok, Body.withStatus_eq_fault hu, Body.andThen_fault, Body.complete_fault]
  · have hsound := buildBody_sound_stage s
    rw [cmdBody] at hb
    rw [hb] at hsound
    obtain ⟨-, -, he⟩ := hsound
    exact absurd herr he

/-- Settles O52, reader by reader: the host's windows, BUILD_CODES, ENCODE, PACK and RUN. -/
theorem unwrittenReadsFault : Obligations.UnwrittenReadsFault := by
  unfold Obligations.UnwrittenReadsFault
  refine ⟨fun s h hidle hh hnone => ?_, fun s x w hidle h1 h8 hole => ?_, fun s q hidle hp hq hole => ?_,
    fun s q hidle hp hq hole => ?_, fun s q hidle hp hq hole => ?_,
    fun s g depth count syms hcount hroot hm hdepth hlimit hnodup =>
      exec_buildCodes_meetsUnwritten hcount hroot hm hdepth hlimit hnodup,
    fun s pre code hpre hin hinp hcode hfit => ?_, fun s hfit hole => exec_pack_hole hfit hole,
    fun s r h => exec_run_of_build_fault h, fun s t r hb he h => exec_run_of_encode_fault hb he h⟩
  · refine hostReads_fault hidle (by omega) (by omega) ?_
    rw [locate_tree _ _ hh]
    exact readCell_of_none hnone
  · have hx := x.isLt
    refine hostReads_hole (f := bitsWord) hidle (by omega) (by omega) ?_ hole
    rw [Nat.add_assoc, locate_code _ _ (by omega), codeLoc_bits x w h1 h8]
    rfl
  · have hw := params_wf s.params hp
    refine hostReads_hole (f := bytesWord) hidle (by omega) (by omega) ?_ hole
    rw [locate_inp _ _ hp hq]
    rfl
  · have hw := params_wf s.params hp
    refine hostReads_hole (f := bitsWord) hidle (by omega) (by omega) ?_ hole
    rw [locate_bit _ _ hp hq]
    rfl
  · have hw := params_wf s.params hp
    have hd : s.params.outDepth = s.params.bitDepth / 8 := rfl
    refine hostReads_hole (f := bytesWord) hidle (by omega) (by omega) ?_ hole
    rw [locate_out _ _ hp hq]
    rfl
  · obtain ⟨b, left, hexec⟩ := exec_encode_afterCodes hpre hin hinp hcode hfit
    refine ⟨fun hnone => ?_, fun x hi hx hxfit hole => ?_⟩
    · rw [hexec, encodeSymbol_unwritten hnone, Body.andThen_fault, Body.complete_fault]
      rfl
    · obtain ⟨c, hfirst, hfault⟩ :=
        encodeSymbol_hole (u := s.inEncode b pre.length (pre.flatMap code).length) hi hx hxfit hole
      exact ⟨c, hfirst, by rw [hexec, hfault, Body.andThen_fault, Body.complete_fault]⟩

end Sys2Proof.Machine
end

section
/-! PROOFS. What a command leaves unchanged, however it ends (R71): its inputs, and the cells of its outputs that it
does not write. -/
namespace Sys2Proof.Machine

/-! ## The ends of a body -/

/-- The body ends in a state that satisfies `P` at its last line, and in one that satisfies `Q e` where it raises the
error `e`. -/
def Body.Ends (P : State → Prop) (Q : ErrCode → State → Prop) : Body → Prop
  | .ok t => P t
  | .raise e _ t => Q e t
  | .fault _ => True

theorem Body.Ends.mono {P P' : State → Prop} {Q Q' : ErrCode → State → Prop} {b : Body} (h : b.Ends P Q)
    (hok : ∀ t, P t → P' t) (hraise : ∀ e t, Q e t → Q' e t) : b.Ends P' Q' := by
  cases b with
  | ok t => exact hok t h
  | raise e v t => exact hraise e t h
  | fault r => trivial

theorem Body.Ends.andThen {P P' : State → Prop} {Q : ErrCode → State → Prop} {b : Body} {f : State → Body}
    (h : b.Ends P Q) (hf : ∀ t, P t → (f t).Ends P' Q) : (b.andThen f).Ends P' Q := by
  cases b with
  | ok t => exact hf t h
  | raise e v t => exact h
  | fault r => trivial

theorem Body.ends_withRead {β : Type} {P : State → Prop} {Q : ErrCode → State → Prop} (x : Except Fault β)
    (f : β → Body) (h : ∀ v, x = .ok v → (f v).Ends P Q) : (Body.withRead x f).Ends P Q := by
  cases x with
  | ok v => exact h v rfl
  | error r => trivial

theorem Body.All.ends {P : State → Prop} {b : Body} (h : b.All P) : b.Ends P fun _ => P := by
  cases b with
  | ok t => exact h
  | raise e v t => exact h
  | fault r => trivial

theorem Body.All.and {P Q : State → Prop} {b : Body} (hP : b.All P) (hQ : b.All Q) : b.All fun t => P t ∧ Q t := by
  cases b with
  | ok t => exact ⟨hP, hQ⟩
  | raise e v t => exact ⟨hP, hQ⟩
  | fault r => trivial

theorem Body.All.and_ends {P P' : State → Prop} {Q : ErrCode → State → Prop} {b : Body} (hP : b.All P)
    (h : b.Ends P' Q) : b.Ends (fun t => P t ∧ P' t) fun e t => P t ∧ Q e t := by
  cases b with
  | ok t => exact ⟨hP, h⟩
  | raise e v t => exact ⟨hP, h⟩
  | fault r => trivial

/-- A completed command: one of the two completions (R184, R185) of a state its body ends in. -/
theorem Body.Ends.exec {P : State → Prop} {Q : ErrCode → State → Prop} {i : Instr} {s t : State}
    (h : (cmdBody i s).Ends P Q) (hexec : exec i s = .next t) :
    (∃ u, P u ∧ t = u.completeOk) ∨ ∃ e info u, Q e u ∧ t = u.completeError e info := by
  rw [exec_eq_complete] at hexec
  rcases Body.complete_eq_next hexec with ⟨u, hb, rfl⟩ | ⟨e, info, u, hb, rfl⟩
  · rw [hb] at h
    exact .inl ⟨u, h, rfl⟩
  · rw [hb] at h
    exact .inr ⟨e, info, u, h, rfl⟩

/-- A completion writes the internal registers, ERR_INFO and STATUS but OVR and LASTOP, so what every end of the body
satisfies holds of the completed state but for these. -/
theorem Body.All.exec {P : State → Prop} {i : Instr} {s t : State} (h : (cmdBody i s).All P)
    (hexec : exec i s = .next t) :
    ∃ u st info, P u ∧ t = { u with status := st, errInfo := info, eng := .idle } ∧
      st.busy = false ∧ st.done = true ∧ st.ovr = u.status.ovr ∧ st.lastop = u.status.lastop := by
  rcases h.ends.exec hexec with ⟨u, hu, rfl⟩ | ⟨e, info, u, hu, rfl⟩
  · exact ⟨u, _, _, hu, rfl, rfl, rfl, rfl, rfl⟩
  · exact ⟨u, _, _, hu, rfl, rfl, rfl, rfl, rfl⟩

/-- Settles O10: a body writes no input (R71), and a completion no more of STATUS than its own fields (R184, R185). -/
theorem noCommandWritesItsInputs : Obligations.NoCommandWritesItsInputs := by
  unfold Obligations.NoCommandWritesItsInputs
  intro i s t h
  obtain ⟨u, st, info, hwrites, rfl, hbusy, hdone, hovr, hlastop⟩ := (cmdBody_writes i s).exec h
  obtain ⟨_, _, _, _, _, _, _, rfl⟩ := hwrites
  exact ⟨{ params := rfl, irqEn := rfl, ovr := hovr, lastop := hlastop, nodeCount := rfl, root := rfl, inLen := rfl,
           tree := rfl, inp := rfl, port := rfl, busData := rfl, draws := rfl }, hbusy, hdone, rfl⟩

theorem sameInputs_of_exec {i : Instr} {s t : State} (h : exec i s = .next t) : SameInputs s t :=
  (noCommandWritesItsInputs i s t h).1

/-! ## BUILD_CODES -/

theorem Body.all_dropTraversal {P : State → Prop} {b : Body} :
    b.dropTraversal.All P ↔ b.All fun t => P t.dropTraversal := by
  cases b <;> rfl

/-- R115: VISIT writes the CBITS of a symbol only with its code, and so does the traversal in the hardware's form. -/
theorem buildBody_keepsUncoded (s : State) : (buildBody s).All (UncodedCellsKept s) := by
  have hrec : (buildRec s).All (UncodedCellsKept s) := by
    unfold buildRec
    cases s.buildPreCheck with
    | some e => exact fun _ _ _ _ => rfl
    | none =>
      refine (visitRec_all Config.maxCodeLen s.root.toNat [] (s.enterStage .build).clearLens rfl).mono fun t ht => ?_
      intro x hx
      exact (ht.uncoded x hx).2
  rw [← buildBody_dropTraversal] at hrec
  exact Body.all_dropTraversal.1 hrec

/-- Settles O23: the body writes LEN and CBITS only, and the CBITS of coded symbols only. -/
theorem buildFrame : Obligations.BuildFrame := by
  unfold Obligations.BuildFrame
  intro s t h
  have hbody : (cmdBody .buildCodes s).All _ := (buildBody_all s).and (buildBody_keepsUncoded s)
  have hsame := sameInputs_of_exec h
  obtain ⟨u, st, info, ⟨⟨-, l, c, e, rfl⟩, hkept⟩, rfl, -⟩ := hbody.exec h
  exact ⟨hsame, rfl, rfl, rfl, rfl, hkept⟩

/-! ## ENCODE -/

/-- What ENCODE's loop keeps from its start `s` on: the cursor stays within BIT, and no cell from the cursor on
changes. -/
structure EncodedUpTo (s t : State) : Prop where
  params : t.params = s.params
  fits : t.eng.bitCur ≤ s.params.bitDepth
  above : ∀ j, t.eng.bitCur ≤ j → t.bit.get j = s.bit.get j

/-- No BIT cell from BIT_LEN on has changed. -/
def BitKeptAbove (s t : State) : Prop := ∀ j, t.bitLen.toNat ≤ j → t.bit.get j = s.bit.get j

/-- R132: BIT_LEN takes the cursor, which fits a register. -/
theorem EncodedUpTo.storeBitLen {s t : State} (hp : s.params.wf = true) (h : EncodedUpTo s t) :
    BitKeptAbove s t.storeBitLen := by
  obtain ⟨-, -, -, -, -, hdepth⟩ := params_wf s.params hp
  have hfits := h.fits
  intro j hj
  rw [storeBitLen_bitLen, BitVec.toNat_ofNat, Nat.mod_eq_of_lt (by omega)] at hj
  exact h.above j hj

theorem EncodedUpTo.appendCode {s t : State} (h : EncodedUpTo s t) (code : List Bool)
    (hfit : t.eng.bitCur + code.length ≤ t.params.bitDepth) : EncodedUpTo s (t.appendCode code) where
  params := h.params
  fits := h.params ▸ hfit
  above j hj := by
    have hj : t.eng.bitCur + code.length ≤ j := hj
    rw [appendCode_bit, Memory.get_setRun_outside _ _ _ _ (.inr hj)]
    exact h.above j (by omega)

/-- What a raise within ENCODE leaves: BAD_LENGTH, the pre-check's, leaves BIT and BIT_LEN whole. -/
def EncodeRaised (s : State) (e : ErrCode) (t : State) : Prop :=
  BitKeptAbove s t ∧ (e = .badLength → t.bit = s.bit ∧ t.bitLen = s.bitLen)

theorem encodeSymbol_ends {s u : State} (hp : s.params.wf = true) (h : EncodedUpTo s u) :
    (encodeSymbol u).Ends (EncodedUpTo s) (EncodeRaised s) := by
  refine Body.ends_withRead _ _ fun sym _ => ?_
  split
  · exact ⟨h.storeBitLen hp, ErrCode.noConfusion⟩
  split
  · exact ⟨h.storeBitLen hp, ErrCode.noConfusion⟩
  · refine Body.ends_withRead _ _ fun code hcode => h.appendCode code ?_
    have hlen := (readCells_eq_ok.1 hcode).1
    omega

theorem encodeLoop_ends {s : State} (hp : s.params.wf = true) (left : Nat) {u : State} (h : EncodedUpTo s u) :
    (encodeLoop left u).Ends (BitKeptAbove s) (EncodeRaised s) := by
  induction left generalizing u with
  | zero => exact h.storeBitLen hp
  | succ left ih => exact (encodeSymbol_ends hp h).andThen fun t ht => ih ht

theorem encodeBody_ends {s : State} (hp : s.params.wf = true) :
    (encodeBody s).Ends (BitKeptAbove s) (EncodeRaised s) := by
  unfold encodeBody
  split
  · exact ⟨fun _ _ => rfl, fun _ => ⟨rfl, rfl⟩⟩
  · exact encodeLoop_ends hp _ ⟨rfl, Nat.zero_le _, fun _ _ => rfl⟩

/-- Settles O27: the body writes BIT and BIT_LEN only, and BIT below BIT_LEN only. -/
theorem encodeFrame : Obligations.EncodeFrame := by
  unfold Obligations.EncodeFrame
  intro s t hp h
  have hbody : (cmdBody .encode s).Ends _ _ := (encodeBody_all s).and_ends (encodeBody_ends hp)
  have hsame := sameInputs_of_exec h
  rcases hbody.exec h with ⟨u, ⟨⟨-, b, n, e, rfl⟩, hkept⟩, rfl⟩ | ⟨err, info, u, ⟨⟨-, b, n, e, rfl⟩, hraised⟩, rfl⟩
  · exact ⟨hsame, rfl, rfl, rfl, rfl, hkept, ErrCode.noConfusion⟩
  · exact ⟨hsame, rfl, rfl, rfl, rfl, hraised⟩

/-! ## PACK -/

/-- PACK, begun in `s`, has packed `m` groups: no byte from OUT[m] on has changed. -/
structure PackedUpTo (s : State) (m : Nat) (t : State) : Prop where
  byteIdx : t.eng.byteIdx = m
  above : ∀ k, m ≤ k → t.out.get k = s.out.get k

section
variable {Q : ErrCode → State → Prop} {s u : State} {m : Nat}

/-- A group raises nothing. -/
theorem packGroup_ends (h : PackedUpTo s m u) (n : Nat) : (packGroup n u).Ends (PackedUpTo s (m + 1)) Q := by
  refine Body.ends_withRead _ _ fun bits _ => ⟨congrArg (· + 1) h.byteIdx, fun k hk => ?_⟩
  rw [storeByte_out, Memory.get_set, h.byteIdx, if_neg (by omega), h.above k (by omega)]

theorem packLoop_ends (h : PackedUpTo s m u) (left : Nat) : (packLoop left u).Ends (PackedUpTo s (m + left)) Q := by
  induction left generalizing m u with
  | zero => exact h
  | succ left ih =>
    refine (packGroup_ends h 8).andThen fun t ht => ?_
    rw [show m + (left + 1) = m + 1 + left by omega]
    exact ih ht

theorem packFinal_ends (h : PackedUpTo s m u) (r : Nat) :
    (packFinal r u).Ends (PackedUpTo s (m + if r ≠ 0 then 1 else 0)) Q := by
  by_cases hr : r = 0
  · rw [packFinal, if_pos hr, if_neg (not_not.2 hr)]
    exact h
  · rw [packFinal, if_neg hr, if_pos hr]
    exact packGroup_ends h r

end

/-- R154: OUT_LEN counts the bytes of `n` bits, and no byte above them has changed. -/
structure PackedBits (s : State) (n : Nat) (t : State) : Prop where
  outLen : t.outLen.toNat = (n + 7) / 8
  above : ∀ k, (n + 7) / 8 ≤ k → t.out.get k = s.out.get k

/-- PACK raises only in its pre-check. -/
theorem packBody_ends (s : State) :
    (packBody s).Ends (PackedBits s s.bitLen.toNat) fun _ t => t.out = s.out ∧ t.outLen = s.outLen := by
  have hbytes : s.bitLen.toNat / 8 + (if s.bitLen.toNat % 8 ≠ 0 then 1 else 0) = (s.bitLen.toNat + 7) / 8 := by
    split <;> omega
  unfold packBody
  split
  · exact ⟨rfl, rfl⟩
  · have hstart : PackedUpTo s 0 (s.enterStage .pack) := ⟨rfl, fun _ _ => rfl⟩
    have hloop := packLoop_ends (Q := fun _ t => t.out = s.out ∧ t.outLen = s.outLen) hstart (s.bitLen.toNat / 8)
    rw [Nat.zero_add] at hloop
    refine (hloop.andThen fun t ht => packFinal_ends ht (s.bitLen.toNat % 8)).andThen fun t ht => ?_
    rw [hbytes] at ht
    refine ⟨?_, ht.above⟩
    have hlt := s.bitLen.isLt
    rw [storeOutLen_outLen, hbytes, BitVec.toNat_ofNat, Nat.mod_eq_of_lt (by omega)]

/-- Settles O31: the body writes OUT and OUT_LEN only, and OUT below the packed bytes only. -/
theorem packFrame : Obligations.PackFrame := by
  unfold Obligations.PackFrame
  intro s t h
  have hbody : (cmdBody .pack s).Ends _ _ := (packBody_all s).and_ends (packBody_ends s)
  have hsame := sameInputs_of_exec h
  rcases hbody.exec h with ⟨u, ⟨⟨-, o, n, e, rfl⟩, hpacked⟩, rfl⟩ | ⟨err, info, u, ⟨⟨-, o, n, e, rfl⟩, hout, hlen⟩, rfl⟩
  · exact ⟨hsame, rfl, rfl, rfl, rfl, hpacked.above, ErrCode.noConfusion⟩
  · exact ⟨hsame, rfl, rfl, rfl, rfl, fun k _ => congrArg (Memory.get · k) hout, fun _ => ⟨hout, hlen⟩⟩

/-! ## RUN -/

/-- What RUN leaves unchanged where it ends in stage `st`, `.none` at its last line (R171). -/
structure RunKeeps (s : State) (st : Stage) (t : State) : Prop where
  uncoded : UncodedCellsKept s t
  build : st = .build → t.bit = s.bit ∧ t.bitLen = s.bitLen ∧ t.out = s.out ∧ t.outLen = s.outLen
  encode : st = .encode → t.out = s.out ∧ t.outLen = s.outLen
  bitAbove : st ≠ .build → BitKeptAbove s t
  outAbove : st = .none → ∀ k, t.outLen.toNat ≤ k → t.out.get k = s.out.get k

/-- What BUILD_CODES' stage leaves: LEN and CBITS alone have changed, and the CBITS of coded symbols alone. -/
structure BuildKeeps (s t : State) : Prop where
  stage : t.eng.stage = .build
  writes : ∃ l c e, t = { s with lens := l, cbits := c, eng := e }
  uncoded : UncodedCellsKept s t

theorem buildBody_keeps (s : State) : (buildBody s).All (BuildKeeps s) :=
  ((buildBody_all s).and (buildBody_keepsUncoded s)).mono fun _ ⟨⟨hstage, hwrites⟩, hkept⟩ => ⟨hstage, hwrites, hkept⟩

theorem BuildKeeps.runKeeps {s t : State} (h : BuildKeeps s t) : RunKeeps s t.eng.stage t := by
  obtain ⟨hstage, ⟨l, c, e, rfl⟩, hkept⟩ := h
  rw [hstage]
  exact ⟨hkept, fun _ => ⟨rfl, rfl, rfl, rfl⟩, Stage.noConfusion, fun hne => absurd rfl hne, Stage.noConfusion⟩

/-- What the stages before PACK's leave. -/
structure EncodeKeeps (s t : State) : Prop where
  uncoded : UncodedCellsKept s t
  params : t.params = s.params
  out : t.out = s.out
  outLen : t.outLen = s.outLen
  bitAbove : BitKeptAbove s t

/-- ENCODE's stage after BUILD_CODES'. -/
theorem encodeBody_keeps {s u : State} (hp : s.params.wf = true) (hu : BuildKeeps s u) :
    (encodeBody u).Ends (EncodeKeeps s) fun _ t => RunKeeps s t.eng.stage t := by
  obtain ⟨-, ⟨l, c, e, rfl⟩, hkept⟩ := hu
  refine Body.Ends.mono ((encodeBody_all _).and_ends (encodeBody_ends hp)) (fun t ht => ?_) fun err t ht => ?_
  · obtain ⟨⟨-, b, n, e', rfl⟩, habove⟩ := ht
    exact ⟨hkept, rfl, rfl, rfl, habove⟩
  · obtain ⟨⟨hstage, b, n, e', rfl⟩, habove, -⟩ := ht
    rw [hstage]
    exact ⟨hkept, Stage.noConfusion, fun _ => ⟨rfl, rfl⟩, fun _ => habove, Stage.noConfusion⟩

/-- PACK's stage after ENCODE's. -/
theorem packBody_keeps {s u : State} (hu : EncodeKeeps s u) :
    (packBody u).Ends (RunKeeps s .none) fun _ t => RunKeeps s t.eng.stage t := by
  refine ((packBody_all u).and_ends (packBody_ends u)).mono (fun t ht => ?_) fun err t ht => ?_
  · obtain ⟨⟨-, o, n, e, rfl⟩, hlen, habove⟩ := ht
    refine ⟨hu.uncoded, Stage.noConfusion, Stage.noConfusion, fun _ => hu.bitAbove, fun _ k hk => ?_⟩
    rw [← hu.out]
    exact habove k (hlen ▸ hk)
  · obtain ⟨⟨hstage, o, n, e, rfl⟩, -⟩ := ht
    rw [hstage]
    exact ⟨hu.uncoded, Stage.noConfusion, Stage.noConfusion, fun _ => hu.bitAbove, Stage.noConfusion⟩

theorem runBody_keeps {s : State} (hp : s.params.wf = true) :
    (cmdBody .run s).Ends (RunKeeps s .none) fun _ t => RunKeeps s t.eng.stage t := by
  have hbuild := (buildBody_keeps s).ends.mono (fun _ ht => ht) fun _ _ ht => ht.runKeeps
  exact (hbuild.andThen fun _ ht => encodeBody_keeps hp ht).andThen fun _ ht => packBody_keeps ht

/-- Settles O36, stage by stage. -/
theorem runFrame : Obligations.RunFrame := by
  unfold Obligations.RunFrame
  intro s t hp h
  have hkeeps : RunKeeps s t.status.estage t := by
    rcases (runBody_keeps hp).exec h with ⟨u, hu, rfl⟩ | ⟨e, info, u, hu, rfl⟩
    · exact { hu with }
    · exact { hu with }
  exact ⟨sameInputs_of_exec h, hkeeps.uncoded, hkeeps.build, hkeeps.encode, fun j hj hne => hkeeps.bitAbove hne j hj,
    fun k hk hst => hkeeps.outAbove hst k hk⟩

end Sys2Proof.Machine
end

section
/-! PROOFS. The host's accesses while BUSY = 0 (R60 to R72): the windows as they are read and written, the offsets that
ignore writes, and the accesses that do not reach HBP. -/
namespace Sys2Proof.Machine

/-! ## The step while IDLE -/

theorem nextEvent_idle_noEvent {s : State} (hidle : s.status.busy = false) (hport : s.port = []) :
    s.nextEvent = .idle := by
  simp [State.nextEvent, hport, hidle]

theorem nextEvent_idle_event {s : State} (hidle : s.status.busy = false) {e : PortEvent} {rest : List PortEvent}
    (hport : s.port = e :: rest) : s.nextEvent = .host e { s with port := rest } := by
  simp [State.nextEvent, hport, hidle]

/-- Settles O6, by what comes next at the port. -/
theorem idleStepTakesThePortsNextEvent : Obligations.IdleStepTakesThePortsNextEvent := by
  unfold Obligations.IdleStepTakesThePortsNextEvent
  intro s hidle
  refine ⟨fun hport => ?_, fun e rest hport => ?_⟩
  · rw [step, nextEvent_idle_noEvent hidle hport]
  · rw [step, nextEvent_idle_event hidle hport]

/-! ## Accesses that fault or do not reach HBP -/

theorem atOffset_illegal {s : State} {o size : Nat} (f : Nat → Host.Outcome State Fault Refusal) (ho : o < 0x20000)
    (h : size ≠ 4 ∨ o % 4 ≠ 0) : s.atOffset (s.params.base + o) size f = .fault (.accessError o) := by
  have hillegal : accessLegal o size = false := by
    rcases h with h | h <;> simp [accessLegal, h]
  simp [State.atOffset, offsetOf_base _ _ ho, hillegal]

theorem atOffset_outside {s : State} {addr : Nat} (size : Nat) (f : Nat → Host.Outcome State Fault Refusal)
    (h : addr < s.params.base ∨ s.params.base + 0x20000 ≤ addr) :
    s.atOffset addr size f = .next { s with busData := none } := by
  rw [State.atOffset, offsetOf_outside _ _ h]

/-- Settles O37: a read and a write pass the same check of the address and the size. -/
theorem misalignedOrMissizedAccessFaults : Obligations.MisalignedOrMissizedAccessFaults := by
  unfold Obligations.MisalignedOrMissizedAccessFaults
  intro s offset size v ho h
  exact ⟨atOffset_illegal _ ho h, atOffset_illegal _ ho h⟩

/-- Settles O38, by the same check. -/
theorem accessOutsideTheApertureChangesNothing : Obligations.AccessOutsideTheApertureChangesNothing := by
  unfold Obligations.AccessOutsideTheApertureChangesNothing
  intro s addr size v h
  exact ⟨atOffset_outside size _ h, atOffset_outside size _ h⟩

/-! ## Offsets that ignore writes -/

/-- R63: no RAZ/WI offset is busy-unspecified. -/
theorem hostReads_razWi {s : State} {o : Nat} (h4 : o % 4 = 0) (ho : o < 0x20000) (hloc : locate s.params o = .razWi) :
    s.hostReads o = .next { s with busData := some 0#32 } := by
  rw [hostReads_eq s o ho h4, State.hostRead, hloc, busyUnspecified, Bool.and_false]
  rfl

/-- R63: no RAZ/WI offset is busy-dropped. -/
theorem hostWrites_razWi {s : State} {o : Nat} (v : Word) (h4 : o % 4 = 0) (ho : o < 0x20000)
    (hloc : locate s.params o = .razWi) : s.hostWrites o v = .next { s with busData := none } := by
  rw [hostWrites_eq s o v ho h4, State.hostWrite, hloc, busyDropped, Bool.and_false]
  rfl

/-- R33: the registers that ignore writes. -/
def Reg.readOnly : Reg → Bool
  | .id | .errInfo | .outLen | .inDepthR | .bitDepthR | .outDepthR => true
  | .ctrl | .cmd | .status | .nodeCount | .root | .inLen | .bitLen => false

theorem hostWrites_readOnly {s : State} {o : Nat} {r : Reg} (v : Word) (hr : regAt o = some r)
    (hro : r.readOnly = true) : s.hostWrites o v = .next { s with busData := none } := by
  have hkept : busyDropped (.reg r) = false ∧ s.writeReg r v = s := by
    cases r with
    | id | errInfo | outLen | inDepthR | bitDepthR | outDepthR => exact ⟨rfl, rfl⟩
    | ctrl | cmd | status | nodeCount | root | inLen | bitLen => exact Bool.noConfusion hro
  rw [hostWrites_reg r v hr (.inr hkept.1), hkept.2]

/-- Settles O39: neither kind of offset is busy-dropped, and a write of one has no effect. -/
theorem reservedAndReadOnlyOffsetsIgnoreWrites : Obligations.ReservedAndReadOnlyOffsetsIgnoreWrites := by
  unfold Obligations.ReservedAndReadOnlyOffsetsIgnoreWrites
  intro s offset v hp
  refine ⟨fun hraz => ?_, fun hmem => ?_⟩
  · have hloc := locate_raz s.params hp offset hraz
    obtain ⟨h4, -, ho, -⟩ := hraz
    exact ⟨hostReads_razWi h4 ho hloc, hostWrites_razWi v h4 ho hloc⟩
  · obtain ⟨r, hr, hro⟩ : ∃ r, regAt offset = some r ∧ r.readOnly = true := by
      simp only [List.mem_cons, List.not_mem_nil, or_false] at hmem
      rcases hmem with rfl | rfl | rfl | rfl | rfl | rfl <;> exact ⟨_, rfl, rfl⟩
    exact hostWrites_readOnly v hr hro

/-! ## Reads -/

theorem hostReads_next {s t : State} {o : Nat} (h : s.hostReads o = .next t) :
    ∃ d n, t = { s with busData := d, draws := n } := by
  cases portEvent_next h with
  | keep _ d n ht => exact ⟨d, n, ht⟩

theorem readLoc_busData (s : State) (d : Option Word) (loc : Loc) :
    ({ s with busData := d } : State).readLoc loc = s.readLoc loc := by
  cases loc with
  | reg r => cases r <;> rfl
  | _ => rfl

/-- R63 to R69: a read while BUSY = 0 shows the value of its location. -/
theorem hostRead_idle_eq_next {s t : State} (hidle : s.status.busy = false) {o : Nat} :
    s.hostRead o = .next t ↔ ∃ v, s.readLoc (locate s.params o) = .ok v ∧ t = { s with busData := some v } := by
  rw [State.hostRead, hidle, Bool.false_and, if_neg Bool.false_ne_true]
  cases s.readLoc (locate s.params o) with
  | ok v => simp [eq_comm]
  | error r => simp

/-- R64: a read while BUSY = 0 draws no free value. -/
theorem hostReads_idle_next {s t : State} {o : Nat} (hidle : s.status.busy = false) (h : s.hostReads o = .next t) :
    ∃ d, t = { s with busData := d } := by
  rcases atOffset_next h with rfl | ⟨o, -, -, -, -, hread⟩
  · exact ⟨none, rfl⟩
  · obtain ⟨v, -, rfl⟩ := (hostRead_idle_eq_next hidle).1 hread
    exact ⟨some v, rfl⟩

/-- R64: what the port shows makes no difference to a read while BUSY = 0. -/
theorem hostReads_busData {s : State} (hidle : s.status.busy = false) (d : Option Word) (o : Nat) :
    ({ s with busData := d } : State).hostReads o = s.hostReads o := by
  have hread : ∀ o, ({ s with busData := d } : State).hostRead o = s.hostRead o := fun o => by
    simp only [State.hostRead, hidle, readLoc_busData, Bool.false_and, Bool.false_eq_true, if_false]
  simp only [State.hostReads, State.portEvent, State.atOffset, hread]

/-- Settles O40: a read changes what the port shows and the draw counter, while BUSY = 0 not even the counter, and what the
port shows is read by nothing. -/
theorem readsHaveNoSideEffects : Obligations.ReadsHaveNoSideEffects := by
  unfold Obligations.ReadsHaveNoSideEffects
  intro s t o h
  refine ⟨?_, fun hidle => ?_⟩
  · obtain ⟨d, n, rfl⟩ := hostReads_next h
    rfl
  · obtain ⟨d, rfl⟩ := hostReads_idle_next hidle h
    exact ⟨rfl, (hostReads_busData hidle d o).trans h⟩

/-! ## Window words -/

theorem hostReads_idle {s : State} {o : Nat} {loc : Loc} {v : Word} (hidle : s.status.busy = false) (h4 : o % 4 = 0)
    (ho : o < 0x20000) (hloc : locate s.params o = loc) (hread : s.readLoc loc = .ok v) :
    s.hostReads o = .next { s with busData := some v } := by
  rw [hostReads_eq s o ho h4]
  exact (hostRead_idle_eq_next hidle).2 ⟨v, hloc ▸ hread, rfl⟩

theorem hostWrites_idle {s : State} {o : Nat} {loc : Loc} (v : Word) (hidle : s.status.busy = false) (h4 : o % 4 = 0)
    (ho : o < 0x20000) (hloc : locate s.params o = loc) :
    s.hostWrites o v = .next { s.writeLoc loc v with busData := none } := by
  rw [hostWrites_eq s o v ho h4, State.hostWrite, hidle, Bool.false_and, if_neg Bool.false_ne_true, hloc]

/-- The 32 cells from `base` on hold the word `u`, its most significant bit first (R66, R68). -/
def Memory.HoldsBits (m : Memory Bool) (base : Nat) (u : Word) : Prop :=
  ∀ k, k < 32 → m.get (base + k) = some (u.getLsbD (31 - k))

theorem Memory.holdsBits_setRun (m : Memory Bool) (base : Nat) (v : Word) :
    (m.setRun base (wordBits v)).HoldsBits base v := by
  intro k hk
  rw [Memory.get_setRun_inside _ _ _ _ (by rw [wordBits_length]; exact hk), wordBits_getElem? v k hk]

theorem Memory.HoldsBits.read {m : Memory Bool} {base : Nat} {u : Word} (h : m.HoldsBits base u) (n : MemName) :
    (readCells n m base 32).map bitsWord = .ok u := by
  have hcells : readCells n m base 32 = .ok (wordBits u) :=
    readCells_eq_ok.2 ⟨wordBits_length u, fun k hk => by rw [h k hk, wordBits_getElem? u k hk]⟩
  rw [hcells, Except.map, bitsWord_wordBits]

/-- The 4 cells from `base` on hold the word `u`, its least significant byte first (R67, R69). -/
def Memory.HoldsBytes (m : Memory Byte) (base : Nat) (u : Word) : Prop :=
  ∀ k, k < 4 → m.get (base + k) = some (u.extractLsb' (8 * k) 8)

theorem Memory.holdsBytes_setRun (m : Memory Byte) (base : Nat) (v : Word) :
    (m.setRun base (wordBytes v)).HoldsBytes base v := by
  intro k hk
  rw [Memory.get_setRun_inside _ _ _ _ hk, wordBytes_getElem? v k hk]

theorem Memory.HoldsBytes.read {m : Memory Byte} {base : Nat} {u : Word} (h : m.HoldsBytes base u) (n : MemName) :
    (readCells n m base 4).map bytesWord = .ok u := by
  have hcells : readCells n m base 4 = .ok (wordBytes u) :=
    readCells_eq_ok.2 ⟨wordBytes_length u, fun k hk => by rw [h k hk, wordBytes_getElem? u k hk]⟩
  rw [hcells, Except.map, bytesWord_wordBytes]

/-! ### TREE -/

theorem hostReads_tree {s : State} {h : Nat} {u : Word} (hidle : s.status.busy = false) (hh : h < 512)
    (hu : s.tree.get h = some u) : s.hostReads (0x01000 + 4 * h) = .next { s with busData := some u } :=
  hostReads_idle hidle (by omega) (by omega) (locate_tree s.params h hh) (readCell_of_get hu)

/-- Settles O45: a TREE word is one cell. -/
theorem treeWindowStoresNodeWords : Obligations.TreeWindowStoresNodeWords := by
  unfold Obligations.TreeWindowStoresNodeWords
  intro s h v hidle hh
  have hstored : (s.tree.set h v).get h = some v := by rw [Memory.get_set, if_pos rfl]
  exact ⟨fun u hu => hostReads_tree hidle hh hu, _,
    hostWrites_idle v hidle (by omega) (by omega) (locate_tree s.params h hh), rfl, hstored,
    fun k hk => (Memory.get_set s.tree h v k).trans (if_neg hk), hostReads_tree hidle hh hstored⟩

/-! ### CODE -/

theorem locate_codeLen (p : Config.Params) (x : Byte) : locate p (0x04000 + 64 * x.toNat) = .codeLen x := by
  rw [locate_code _ _ (by omega), codeLoc_len]

theorem locate_codeBits (p : Config.Params) (x : Byte) {w : Nat} (h1 : 1 ≤ w) (h8 : w ≤ 8) :
    locate p (0x04000 + 64 * x.toNat + 4 * w) = .codeBits x (w - 1) := by
  rw [Nat.add_assoc, locate_code _ _ (by omega), codeLoc_bits x w h1 h8]

/-- R66: words 9 to 15 of an entry. -/
theorem locate_codeRaz (p : Config.Params) (x : Byte) {w : Nat} (h9 : 9 ≤ w) (h15 : w ≤ 15) :
    locate p (0x04000 + 64 * x.toNat + 4 * w) = .razWi := by
  rw [Nat.add_assoc, locate_code _ _ (by omega), codeLoc, if_neg (by omega), if_neg (by omega)]

theorem hostReads_codeLen {s : State} (hidle : s.status.busy = false) {x n : Byte} (hn : s.lenOf x = n) :
    s.hostReads (0x04000 + 64 * x.toNat) = .next { s with busData := some (n.setWidth 32) } :=
  hostReads_idle hidle (by omega) (by omega) (locate_codeLen s.params x) (hn ▸ rfl)

theorem hostReads_codeBits {s : State} (hidle : s.status.busy = false) (x : Byte) {w : Nat} {u : Word} (h1 : 1 ≤ w)
    (h8 : w ≤ 8) (hu : s.cbits.HoldsBits (cbitsCell x (32 * (w - 1))) u) :
    s.hostReads (0x04000 + 64 * x.toNat + 4 * w) = .next { s with busData := some u } :=
  hostReads_idle hidle (by omega) (by omega) (locate_codeBits s.params x h1 h8) (hu.read .cbits)

theorem cbitsCell_add (x : Byte) (j k : Nat) : cbitsCell x (j + k) = cbitsCell x j + k :=
  (Nat.add_assoc _ _ _).symm

/-- Settles O46, word 0, words 1 to 8 and words 9 to 15 in turn. -/
theorem codeWindowStoresLenAndCodeBits : Obligations.CodeWindowStoresLenAndCodeBits := by
  unfold Obligations.CodeWindowStoresLenAndCodeBits
  intro s x v hidle
  have hx := x.isLt
  simp only [cbitsCell_add]
  refine ⟨hostReads_codeLen hidle rfl, fun w u h1 h8 hu => hostReads_codeBits hidle x h1 h8 hu, fun w h9 h15 => ?_, ?_,
    fun w h1 h8 => ?_⟩
  · have hloc := locate_codeRaz s.params x h9 h15
    exact ⟨hostReads_razWi (by omega) (by omega) hloc, hostWrites_razWi v (by omega) (by omega) hloc⟩
  · have hlen : ∀ y, (s.setLen x (v.extractLsb' 0 8)).lenOf y = if y = x then v.extractLsb' 0 8 else s.lenOf y :=
      lenOf_setLen s x _
    have hself := (hlen x).trans (if_pos rfl)
    exact ⟨_, hostWrites_idle v hidle (by omega) (by omega) (locate_codeLen s.params x), rfl, hself,
      fun y hy => (hlen y).trans (if_neg hy),
      hostReads_codeLen (s := { s.setLen x _ with busData := none }) hidle hself⟩
  · have hcells := Memory.holdsBits_setRun s.cbits (cbitsCell x (32 * (w - 1))) v
    refine ⟨_, hostWrites_idle v hidle (by omega) (by omega) (locate_codeBits s.params x h1 h8), rfl, hcells,
      fun c hc => Memory.get_setRun_outside _ _ _ _ ?_,
      hostReads_codeBits (s := { s with cbits := _, busData := none }) hidle x h1 h8 hcells⟩
    rw [show 32 * w = 32 * (w - 1) + 32 by omega, cbitsCell_add] at hc
    rwa [wordBits_length]

/-! ### IN, OUT and BIT -/

section
variable {s : State} {q : Nat} {u : Word} (hidle : s.status.busy = false) (hp : s.params.wf = true)
include hidle hp

theorem hostReads_inp (hq : q < s.params.inDepth / 4) (hu : s.inp.HoldsBytes (4 * q) u) :
    s.hostReads (0x08000 + 4 * q) = .next { s with busData := some u } := by
  have hw := params_wf s.params hp
  exact hostReads_idle hidle (by omega) (by omega) (locate_inp s.params q hp hq) (hu.read .inp)

theorem hostReads_out (hq : q < s.params.outDepth / 4) (hu : s.out.HoldsBytes (4 * q) u) :
    s.hostReads (0x18000 + 4 * q) = .next { s with busData := some u } := by
  have hw := params_wf s.params hp
  have hd : s.params.outDepth = s.params.bitDepth / 8 := rfl
  exact hostReads_idle hidle (by omega) (by omega) (locate_out s.params q hp hq) (hu.read .out)

theorem hostReads_bit (hq : q < s.params.bitDepth / 32) (hu : s.bit.HoldsBits (32 * q) u) :
    s.hostReads (0x10000 + 4 * q) = .next { s with busData := some u } := by
  have hw := params_wf s.params hp
  exact hostReads_idle hidle (by omega) (by omega) (locate_bit s.params q hp hq) (hu.read .bit)

end

/-- Settles O47, the two windows in turn. -/
theorem byteWindowsAreLittleEndian : Obligations.ByteWindowsAreLittleEndian := by
  unfold Obligations.ByteWindowsAreLittleEndian
  intro s q v hidle hp
  have hw := params_wf s.params hp
  have hd : s.params.outDepth = s.params.bitDepth / 8 := rfl
  refine ⟨fun u hq hu => hostReads_inp hidle hp hq hu, fun u hq hu => hostReads_out hidle hp hq hu, fun hq => ?_,
    fun hq => ?_⟩
  · have hcells := Memory.holdsBytes_setRun s.inp (4 * q) v
    exact ⟨_, hostWrites_idle v hidle (by omega) (by omega) (locate_inp s.params q hp hq), rfl, hcells,
      fun c hc => Memory.get_setRun_outside _ _ _ _ hc, hostReads_inp hidle hp hq hcells⟩
  · have hcells := Memory.holdsBytes_setRun s.out (4 * q) v
    exact ⟨_, hostWrites_idle v hidle (by omega) (by omega) (locate_out s.params q hp hq), rfl, hcells,
      fun c hc => Memory.get_setRun_outside _ _ _ _ hc, hostReads_out hidle hp hq hcells⟩

/-- Settles O48: a BIT word is a run of 32 cells, most significant bit first. -/
theorem bitWindowIsMostSignificantBitFirst : Obligations.BitWindowIsMostSignificantBitFirst := by
  unfold Obligations.BitWindowIsMostSignificantBitFirst
  intro s q v hidle hp hq
  have hw := params_wf s.params hp
  have hcells := Memory.holdsBits_setRun s.bit (32 * q) v
  exact ⟨fun u hu => hostReads_bit hidle hp hq hu, _,
    hostWrites_idle v hidle (by omega) (by omega) (locate_bit s.params q hp hq), rfl, hcells,
    fun c hc => Memory.get_setRun_outside _ _ _ _ (by rwa [wordBits_length]), hostReads_bit hidle hp hq hcells⟩

end Sys2Proof.Machine
end

section
/-! PROOFS. The abort of a running command by a soft reset (R212, R213). -/
namespace Sys2Proof.Machine

section
variable (s : State) (i : Instr)

@[simp] theorem forgetOutputs_tree : (s.forgetOutputs i).tree = s.tree := by cases i <;> rfl
@[simp] theorem forgetOutputs_inp : (s.forgetOutputs i).inp = s.inp := by cases i <;> rfl
@[simp] theorem forgetOutputs_cbits :
    (s.forgetOutputs i).cbits = if i = .buildCodes ∨ i = .run then [] else s.cbits := by cases i <;> rfl
@[simp] theorem forgetOutputs_bit :
    (s.forgetOutputs i).bit = if i = .encode ∨ i = .run then [] else s.bit := by cases i <;> rfl
@[simp] theorem forgetOutputs_out :
    (s.forgetOutputs i).out = if i = .pack ∨ i = .run then [] else s.out := by cases i <;> rfl

end

theorem abort_running {s : State} {i : Instr} (hbusy : s.status.busy = true) (hrun : s.running = .ok i) :
    s.abort = s.forgetOutputs i := by
  rw [State.abort, hbusy, hrun]

/-- R212: a soft reset leaves the memories but LEN as the abort leaves them. -/
theorem softReset_memories (s : State) :
    s.softReset.tree = s.abort.tree ∧ s.softReset.inp = s.abort.inp ∧ s.softReset.cbits = s.abort.cbits ∧
      s.softReset.bit = s.abort.bit ∧ s.softReset.out = s.abort.out := ⟨rfl, rfl, rfl, rfl, rfl⟩

/-- A memory that the abort forgets where `p` holds, and keeps elsewhere. -/
theorem forgotten_or_kept {α : Type} {m old : Memory α} {p q : Prop} [Decidable (p ∨ q)]
    (h : m = if p ∨ q then [] else old) : (p ∨ q → ∀ c, m.get c = none) ∧ (¬ p → ¬ q → m = old) := by
  subst h
  exact ⟨fun hpq c => by rw [if_pos hpq, Memory.get_nil], fun hp hq => if_neg (not_or.2 ⟨hp, hq⟩)⟩

/-- Settles O55, memory by memory. -/
theorem abortForgetsWhatTheCommandCouldWrite : Obligations.AbortForgetsWhatTheCommandCouldWrite := by
  unfold Obligations.AbortForgetsWhatTheCommandCouldWrite
  intro s t v i hbusy hrun hsrst h
  rw [hostWrites_ctrl, State.writeCtrl, if_pos hsrst] at h
  cases h
  obtain ⟨htree, hinp, hcbits, hbit, hout⟩ := softReset_memories s
  rw [abort_running hbusy hrun] at htree hinp hcbits hbit hout
  obtain ⟨hcbits, hcbits'⟩ := forgotten_or_kept (hcbits.trans (forgetOutputs_cbits s i))
  obtain ⟨hbit, hbit'⟩ := forgotten_or_kept (hbit.trans (forgetOutputs_bit s i))
  obtain ⟨hout, hout'⟩ := forgotten_or_kept (hout.trans (forgetOutputs_out s i))
  exact ⟨htree.trans (forgetOutputs_tree s i), hinp.trans (forgetOutputs_inp s i), rfl, rfl, rfl, hcbits, hbit, hout,
    hcbits', hbit', hout'⟩

end Sys2Proof.Machine
end

section
/-! PROOFS. The encodings (R90 to R95): a command word is legal exactly when it is the word of one of the six commands, and
a node word decodes to the fields it was constructed from. -/
namespace Sys2Proof.Machine

/-! ## Command words -/

/-- Settles O1, command by command. -/
theorem decodeOfEncodeIsTheCommand : Obligations.DecodeOfEncodeIsTheCommand := by
  unfold Obligations.DecodeOfEncodeIsTheCommand
  intro i
  cases i <;> rfl

/-- Settles O3: each of the six words is its command's encoding; the two others are no commands by R93. -/
theorem opcodeMapWordsDecode : Obligations.OpcodeMapWordsDecode :=
  have h := decodeOfEncodeIsTheCommand
  ⟨h .nop, h .buildCodes, h .encode, h .pack, h .run, h .clearCodes, rfl, rfl, rfl⟩

/-- R91: a command's word has MBZ = 0. -/
theorem cmdMbz_of_decodeWord {v : Word} {i : Instr} (h : decodeWord v = .ok i) : cmdMbz v = 0#24 := by
  rw [eq_encode_of_decodeWord h]
  cases i <;> rfl

/-- R90: with MBZ = 0 a command word is its OP. -/
theorem toNat_eq_cmdOp {v : Word} (h : cmdMbz v = 0#24) : v.toNat = (cmdOp v).toNat := by
  have hsplit : v = 0#24 ++ cmdOp v := h ▸ eq_fields v
  exact (congrArg BitVec.toNat hsplit).trans (by rw [BitVec.toNat_append]; simp)

/-- Settles O2: a legal word has R91's fields, a word with these fields is at most 5, and such a word is legal. -/
theorem wordIsACommandExactlyWhenLegal : Obligations.WordIsACommandExactlyWhenLegal := by
  unfold Obligations.WordIsACommandExactlyWhenLegal
  intro w
  have hfields : (∃ i, decodeWord w = .ok i) → cmdMbz w = 0#24 ∧ (cmdOp w).toNat ≤ 5 :=
    fun ⟨_, h⟩ => ⟨cmdMbz_of_decodeWord h, cmdOp_le_of_decodeWord h⟩
  have hsmall : cmdMbz w = 0#24 ∧ (cmdOp w).toNat ≤ 5 → w.toNat ≤ 5 :=
    fun ⟨hmbz, hop⟩ => (toNat_eq_cmdOp hmbz).trans_le hop
  exact ⟨⟨hfields, decodeWord_of_le ∘ hsmall⟩, ⟨hsmall ∘ hfields, decodeWord_of_le⟩,
    fun i h => (eq_encode_of_decodeWord h).symm⟩

/-! ## Node words -/

theorem nodeSym_leafWord (sym : Byte) : nodeSym (leafWord sym) = sym := by
  apply BitVec.eq_of_toNat_eq
  simp [nodeSym, leafWord, sym.isLt]

/-- R94: a constructed internal node holds T at bit 31, RIGHT from bit 16 on and LEFT from bit 0 on. -/
theorem getLsbD_nodeWord (l r : BitVec 9) {i : Nat} (hi : i < 32) :
    (nodeWord l r).getLsbD i = (decide (i = 31) || !decide (i < 16) && r.getLsbD (i - 16) || l.getLsbD i) := by
  have htag : 0x80000000#32 = BitVec.twoPow 32 31 := rfl
  simp [nodeWord, htag, hi]

theorem nodeIsLeaf_nodeWord (l r : BitVec 9) : nodeIsLeaf (nodeWord l r) = false := by
  rw [nodeIsLeaf, getLsbD_nodeWord l r (by decide)]
  rfl

theorem nodeLeft_nodeWord (l r : BitVec 9) : nodeLeft (nodeWord l r) = l.toNat := by
  rw [nodeLeft]
  congr 1
  ext i hi
  have htag : i ≠ 31 := by omega
  have hright : i < 16 := by omega
  simp [getLsbD_nodeWord l r (by omega : i < 32), htag, hright, hi]

theorem nodeRight_nodeWord (l r : BitVec 9) : nodeRight (nodeWord l r) = r.toNat := by
  rw [nodeRight]
  congr 1
  ext i hi
  have htag : 16 + i ≠ 31 := by omega
  have hleft : l.getLsbD (16 + i) = false := BitVec.getLsbD_of_ge l _ (by omega)
  simp [getLsbD_nodeWord l r (by omega : 16 + i < 32), htag, hleft, hi]

/-- Settles O4, field by field. -/
theorem nodeWordsDecodeAsConstructed : Obligations.NodeWordsDecodeAsConstructed := by
  unfold Obligations.NodeWordsDecodeAsConstructed
  exact ⟨fun sym => ⟨nodeIsLeaf_leafWord sym, nodeSym_leafWord sym⟩,
    fun l r => ⟨nodeIsLeaf_nodeWord l r, nodeLeft_nodeWord l r, nodeRight_nodeWord l r⟩⟩

end Sys2Proof.Machine
end

section
/-! PROOFS. What BUILD_CODES reads of TREE (R95, R117, R121): with TREE replaced by a memory that decodes alike at the handles
that the traversal reaches, the command ends as it did, but for the replaced TREE. -/
namespace Sys2Proof.Machine

/-- `s` with TREE replaced. -/
def State.withTree (s : State) (m : Memory Word) : State := { s with tree := m }

section
variable (s : State) (m : Memory Word)

@[simp] theorem withTree_nodeCount : (s.withTree m).nodeCount = s.nodeCount := rfl
@[simp] theorem withTree_tree : (s.withTree m).tree = m := rfl
@[simp] theorem withTree_eng : (s.withTree m).eng = s.eng := rfl
@[simp] theorem withTree_lenOf (x : Byte) : (s.withTree m).lenOf x = s.lenOf x := rfl
@[simp] theorem withTree_countVisit : (s.withTree m).countVisit = s.countVisit.withTree m := rfl
@[simp] theorem withTree_writeCode (x : Byte) (code : List Bool) :
    (s.withTree m).writeCode x code = (s.writeCode x code).withTree m := rfl
@[simp] theorem withTree_buildPreCheck : (s.withTree m).buildPreCheck = s.buildPreCheck := rfl

end

/-- `b'` ends as `b` does but for the replaced TREE; nothing is said where `b` meets a never-written cell. -/
def Body.AlikeWithTree (m : Memory Word) (b b' : Body) : Prop :=
  match b with
  | .ok s => b' = .ok (s.withTree m)
  | .raise e info s => b' = .raise e info (s.withTree m)
  | .fault _ => True

theorem Body.AlikeWithTree.andThen {m : Memory Word} {P : State → Prop} {b b' : Body} {f : State → Body}
    (h : b.AlikeWithTree m b') (hP : b.All P) (hf : ∀ t, P t → (f t).AlikeWithTree m (f (t.withTree m))) :
    (b.andThen f).AlikeWithTree m (b'.andThen f) := by
  cases b with
  | ok t => exact (show b' = _ from h) ▸ hf t hP
  | raise e info t => exact (show b' = _ from h) ▸ rfl
  | fault r => trivial

theorem Body.AlikeWithTree.complete {m : Memory Word} {b b' : Body} {t : State} (h : b.AlikeWithTree m b')
    (hb : b.complete = .next t) : b'.complete = .next (t.withTree m) := by
  rcases Body.complete_eq_next hb with ⟨u, rfl, rfl⟩ | ⟨e, info, u, rfl, rfl⟩
  · exact (show b' = _ from h) ▸ rfl
  · exact (show b' = _ from h) ▸ rfl

/-- At every written handle below NODE_COUNT that the traversal reaches, `m` holds a word that R95 decodes alike. -/
def State.TreeAlike (s : State) (m : Memory Word) : Prop :=
  ∀ h w, s.Reachable h → h < s.nodeCount.toNat → s.tree.get h = some w → ∃ w', m.get h = some w' ∧ sameNode w w'

/-- VISIT of a reachable handle. TREE and NODE_COUNT are `s`'s throughout. -/
theorem visitRec_alikeWithTree {s : State} {m : Memory Word} (halike : s.TreeAlike m) {room h : Nat} {path : List Bool}
    {u : State} (hroom : path.length + room = 255) (htree : u.tree = s.tree) (hcount : u.nodeCount = s.nodeCount)
    (hreach : s.Reachable h) (hbelow : h < s.nodeCount.toNat) :
    (visitRec room h path u).AlikeWithTree m (visitRec room h path (u.withTree m)) := by
  induction room using Nat.strongRecOn generalizing h path u with
  | ind room ih =>
    rw [visitRec_eq room h path u, visitRec_eq room h path (u.withTree m)]
    simp only [withTree_nodeCount, withTree_tree, withTree_countVisit, withTree_eng, hcount, htree]
    split
    · rfl
    cases hw : s.tree.get h with
    | none =>
      rw [readCell_of_none hw]
      trivial
    | some w =>
      obtain ⟨w', hw', hkind, hsym, hchildren⟩ := halike h w hreach hbelow hw
      rw [readCell_of_get hw, readCell_of_get hw', Body.withRead_ok, Body.withRead_ok, ← hkind]
      cases hleaf : nodeIsLeaf w with
      | true =>
        rw [← hsym hleaf, if_pos rfl, if_pos rfl]
        by_cases hfree : u.lenOf (nodeSym w) = 0#8
        · simp [hfree, Body.AlikeWithTree]
        · simp [hfree, Body.AlikeWithTree]
      | false =>
        obtain ⟨hleft, hright⟩ := hchildren hleaf
        rw [← hleft, ← hright, if_neg Bool.false_ne_true, if_neg Bool.false_ne_true]
        split_ifs with hl hr hdeep
        · rfl
        · rfl
        · rfl
        have hl := Nat.lt_of_not_le hl
        have hr := Nat.lt_of_not_le hr
        have hroomL : (path ++ [false]).length + (room - 1) = 255 := by simp; omega
        have hroomR : (path ++ [true]).length + (room - 1) = 255 := by simp; omega
        have hwrites := visitRec_all (room - 1) (nodeLeft w) (path ++ [false]) u.countVisit hroomL
        refine (ih (room - 1) (by omega) (u := u.countVisit) hroomL htree hcount (.left h w hreach hw hleaf hl hr)
          hl).andThen hwrites fun t ht => ?_
        exact ih (room - 1) (by omega) hroomR (ht.writes.tree.trans htree) (ht.writes.nodeCount.trans hcount)
          (.right h w hreach hw hleaf hl hr) hr

/-- R111: the traversal begins only at a handle below NODE_COUNT. -/
theorem root_lt_of_buildPreCheck {s : State} (h : s.buildPreCheck = none) : s.root.toNat < s.nodeCount.toNat := by
  unfold State.buildPreCheck at h
  split_ifs at h with _ _ hroot
  exact Nat.lt_of_not_le hroot

theorem buildRec_alikeWithTree {s : State} {m : Memory Word} (halike : s.TreeAlike m) :
    (buildRec s).AlikeWithTree m (buildRec (s.withTree m)) := by
  unfold buildRec
  rw [withTree_buildPreCheck]
  cases hpre : s.buildPreCheck with
  | some e => rfl
  | none =>
    exact visitRec_alikeWithTree (path := []) (u := (s.enterStage .build).clearLens) halike rfl rfl rfl .root
      (root_lt_of_buildPreCheck hpre)

/-- Settles O22, through the recursive VISIT that BUILD_CODES is. -/
theorem buildReadsOnlyReachableNodeFields : Obligations.BuildReadsOnlyReachableNodeFields := by
  unfold Obligations.BuildReadsOnlyReachableNodeFields
  intro s t m h halike
  rw [exec_buildCodes_eq_buildRec] at h ⊢
  exact (buildRec_alikeWithTree halike).complete h

end Sys2Proof.Machine
end

section
/-! PROOFS. What BUILD_CODES and CLEAR_CODES leave (R110 to R125): the pre-checks, the tree that a traversal without a
raise has visited and the table of its leaves (R119), and the end of every traversal of written nodes (R114). -/
namespace Sys2Proof.Machine

/-! ## CLEAR_CODES -/

/-- R125: an ENCODE of a non-empty input whose first symbol has no code. -/
theorem exec_encode_firstUncoded {s : State} {x : Byte} (hx : s.inp.get 0 = some x) (hlen : s.lenOf x = 0#8)
    (hpos : 0 < s.inLen.toNat) (hfit : s.inLen.toNat ≤ s.params.inDepth) :
    ∃ u, exec .encode s = .next u ∧ FailedWith .unknownSymbol .encode 0#32 u := by
  have hfirst : encodeSymbol (s.enterStage .encode) = .raise .unknownSymbol 0#32 (s.enterStage .encode).storeBitLen :=
    encodeSymbol_unknown _ x hx hlen
  rw [exec_eq_complete, cmdBody, encodeBody, if_neg (by omega), ← Nat.sub_one_add_one hpos.ne', encodeLoop, hfirst]
  exact ⟨_, rfl, ⟨rfl, rfl, rfl, rfl, rfl, rfl⟩⟩

/-- Settles O13: CLEAR_CODES is one write of LEN and a completion; no symbol has a code for the ENCODE after it. -/
theorem clearCodesCompletesWithEveryLenZero : Obligations.ClearCodesCompletesWithEveryLenZero := by
  unfold Obligations.ClearCodesCompletesWithEveryLenZero
  refine ⟨rfl, fun s => ⟨s.clearLens.completeOk, rfl, rfl, fun _ => rfl⟩, fun s t x h hx hpos hfit => ?_⟩
  cases h
  exact exec_encode_firstUncoded (s := s.clearLens.completeOk.accept (encode .encode)) hx rfl hpos hfit

/-! ## The pre-checks of BUILD_CODES -/

/-- R111: a pre-check that fails ends BUILD_CODES before it writes LEN or CBITS. -/
theorem exec_buildCodes_of_preCheck {s : State} {e : ErrCode} {info : Word} (h : s.buildPreCheck = some (e, info)) :
    exec .buildCodes s = .next ((s.enterStage .build).completeError e info) := by
  rw [exec_eq_complete, cmdBody, buildBody, h, Body.complete_raise]

/-- Settles O14, check by check: what fails decides ERR and ERR_INFO. -/
theorem buildPreChecksLeaveTheTableUnchanged : Obligations.BuildPreChecksLeaveTheTableUnchanged := by
  unfold Obligations.BuildPreChecksLeaveTheTableUnchanged
  refine fun s => ⟨fun hlong => ?_, fun hempty => ?_, fun hpos hfit hroot => ?_⟩
  · exact exec_buildCodes_of_preCheck (by rw [State.buildPreCheck, if_pos hlong])
  · exact exec_buildCodes_of_preCheck (by rw [State.buildPreCheck, if_neg (by omega), if_pos hempty])
  · exact exec_buildCodes_of_preCheck
      (by rw [State.buildPreCheck, if_neg (Nat.not_lt.2 hfit), if_neg hpos.ne', if_pos hroot])

/-! ## The traversal -/

/-- Settles O17: the hardware's path register and stack hold no value once the command has completed. -/
theorem buildIsTheRecursiveVisit : Obligations.BuildIsTheRecursiveVisit := by
  unfold Obligations.BuildIsTheRecursiveVisit
  exact exec_buildCodes_eq_buildRec

/-- Settles O21: LEN is cleared before the traversal, and the traversal writes the codes of leaves only. -/
theorem buildLeavesOnlyCodesOfThisTree : Obligations.BuildLeavesOnlyCodesOfThisTree := by
  unfold Obligations.BuildLeavesOnlyCodesOfThisTree
  intro s t h _ hcount hroot x hx
  obtain ⟨path, hleaf, hcode, -⟩ := built_entry_is_leaf (buildPreCheck_none hcount hroot) h hx
  refine ⟨path, hleaf, ?_⟩
  simpa only [leafCode, List.length_eq_zero_iff] using hcode

/-! ## Every traversal of written nodes ends -/

theorem Body.complete_eq_next_of_ne_fault {b : Body} (h : ∀ r, b ≠ .fault r) : ∃ t, b.complete = .next t := by
  cases b with
  | ok s => exact ⟨_, rfl⟩
  | raise e info s => exact ⟨_, rfl⟩
  | fault r => exact absurd rfl (h r)

theorem Body.All.andThen_ne_fault {P : State → Prop} {b : Body} {f : State → Body} (hP : b.All P)
    (hb : ∀ r, b ≠ .fault r) (hf : ∀ t, P t → ∀ r, f t ≠ .fault r) : ∀ r, b.andThen f ≠ .fault r := by
  cases b with
  | ok t => exact hf t hP
  | raise e info t => exact fun _ => Body.noConfusion
  | fault r => exact absurd rfl (hb r)

/-- Every node word below NODE_COUNT is written. -/
def State.NodesWritten (s : State) : Prop := ∀ h, h < s.nodeCount.toNat → ∃ w, s.tree.get h = some w

/-- R114, R117: VISIT goes down only to handles below NODE_COUNT, so it meets no never-written word. -/
theorem visitRec_ne_fault {room h : Nat} {path : List Bool} {s : State} (hroom : path.length + room = 255)
    (hs : s.NodesWritten) (hbelow : h < s.nodeCount.toNat) (r : Fault) : visitRec room h path s ≠ .fault r := by
  induction room using Nat.strongRecOn generalizing h path s r with
  | ind room ih =>
    obtain ⟨w, hw⟩ := hs h hbelow
    rw [visitRec_eq, readCell_of_get hw, Body.withRead_ok]
    split_ifs with hover hleaf hdup hleft hright hdeep
    iterate 6 · exact Body.noConfusion
    have hroomL : (path ++ [false]).length + (room - 1) = 255 := by simp; omega
    have hwrites := visitRec_all (room - 1) (nodeLeft w) (path ++ [false]) s.countVisit hroomL
    refine hwrites.andThen_ne_fault (ih (room - 1) (by omega) hroomL hs (Nat.lt_of_not_le hleft)) (fun t ht => ?_) r
    have htree : t.tree = s.tree := ht.writes.tree
    have hcount : t.nodeCount = s.nodeCount := ht.writes.nodeCount
    refine ih (room - 1) (by omega) (by simp; omega) ?_ (hcount ▸ Nat.lt_of_not_le hright)
    rwa [State.NodesWritten, htree, hcount]

/-- R111: the traversal begins only where NODE_COUNT is at most NODE_DEPTH. -/
theorem nodeCount_le_of_buildPreCheck {s : State} (h : s.buildPreCheck = none) :
    s.nodeCount.toNat ≤ Config.nodeDepth := by
  unfold State.buildPreCheck at h
  split_ifs at h with hcount
  exact Nat.le_of_not_lt hcount

/-- Settles O18: a pre-check ends BUILD_CODES, or the traversal does, which meets no never-written word. -/
theorem buildCompletesOnAnyWrittenNodes : Obligations.BuildCompletesOnAnyWrittenNodes := by
  unfold Obligations.BuildCompletesOnAnyWrittenNodes
  intro s hwritten
  cases hpre : s.buildPreCheck with
  | some e => exact ⟨_, exec_buildCodes_of_preCheck hpre⟩
  | none =>
    have hcount := nodeCount_le_of_buildPreCheck hpre
    have hs : (s.enterStage .build).clearLens.NodesWritten := fun h hh => hwritten h hh (hh.trans_le hcount)
    rw [exec_buildCodes_eq_buildRec, buildRec, hpre]
    exact Body.complete_eq_next_of_ne_fault (visitRec_ne_fault rfl hs (root_lt_of_buildPreCheck hpre))

/-! ## The codes of a built table -/

theorem State.CodeIs.length_le {t : State} {x : Byte} {c : List Bool} (hc : t.CodeIs x c) : c.length ≤ 255 := by
  have hlt := (t.lenOf x).isLt
  obtain ⟨hlen, -⟩ := hc
  omega

/-- Settles O19: a built code is a leaf's path, and no leaf lies below another one. -/
theorem builtCodesArePrefixFree : Obligations.BuiltCodesArePrefixFree := by
  unfold Obligations.BuiltCodesArePrefixFree
  refine fun s t h herr => ⟨fun x hx => ?_, fun x c d hc hd => hc.unique hd, fun a b c d hab ha hb hc hd hcd => ?_⟩
  · obtain ⟨path, -, hcode, -⟩ := built_entry_is_leaf (buildPreCheck_of_success h herr) h hx
    exact ⟨_, hcode, List.length_pos_of_ne_nil (hcode.ne_nil hx), hcode.length_le⟩
  · exact hab (built_sym_eq_of_prefix h herr ha hb hc hd hcd)

/-! ## The tree of a traversal without a raise -/

/-- The symbols of a tree are those of its paths, in order. -/
theorem CodeTree.map_fst_paths (T : CodeTree) (path : List Bool) : (T.paths path).map Prod.fst = T.symbols := by
  induction T generalizing path with
  | leaf x => rfl
  | node l r ihl ihr => rw [CodeTree.paths, List.map_append, ihl, ihr, CodeTree.symbols]

theorem CodeTree.mem_symbols_iff {T : CodeTree} (path : List Bool) {x : Byte} :
    x ∈ T.symbols ↔ ∃ c ∈ T.paths path, c.1 = x := by
  rw [← T.map_fst_paths path, List.mem_map]

/-- R14: a leaf's path begins with the path of the tree's root. -/
theorem CodeTree.isPrefix_of_mem_paths {T : CodeTree} {path : List Bool} {c : Byte × List Bool}
    (hc : c ∈ T.paths path) : path <+: c.2 := by
  induction T generalizing path with
  | leaf x =>
    obtain rfl := List.mem_singleton.1 hc
    exact List.prefix_refl path
  | node l r ihl ihr =>
    rcases List.mem_append.1 hc with hl | hr
    · exact (List.prefix_append path _).trans (ihl hl)
    · exact (List.prefix_append path _).trans (ihr hr)

/-- R115, R116: the code table of a tree gives each leaf the code that the leaf action records. -/
theorem CodeTree.exists_path_of_mem_codes {T : CodeTree} {c : Byte × List Bool} (hc : c ∈ T.codes) :
    ∃ p, (c.1, p) ∈ T.paths [] ∧ c.2 = leafCode p := by
  cases T with
  | leaf x =>
    obtain rfl := List.mem_singleton.1 hc
    exact ⟨[], List.mem_singleton.2 rfl, rfl⟩
  | node l r =>
    have hne : c.2 ≠ [] := by
      intro hnil
      rcases List.mem_append.1 hc with hl | hr
      · simpa [hnil] using isPrefix_of_mem_paths hl
      · simpa [hnil] using isPrefix_of_mem_paths hr
    exact ⟨c.2, hc, by rw [leafCode, if_neg (by simpa using hne)]⟩

/-- An entry as R115 leaves it for a leaf has a code. -/
theorem EntryIs.lenOf_ne_zero {t : State} {x : Byte} {path : List Bool} (h : EntryIs t x (leafCode path)) :
    t.lenOf x ≠ 0#8 := by
  intro hx
  obtain ⟨⟨hlen, -⟩, -⟩ := h
  rw [hx, leafCode] at hlen
  split_ifs at hlen with hpath
  · cases hlen
  · exact hpath hlen.symm

/-- What a visit of handle `h` under `path` that ends without a raise has visited: the tree `T`, within the limits,
whose symbols had no code before and have their leaves' codes after. -/
structure VisitedTree (T : CodeTree) (room h : Nat) (path : List Bool) (s t : State) : Prop where
  holds : s.HoldsTree h T
  depth : T.depth ≤ room
  size : s.eng.visits + T.size ≤ s.nodeCount.toNat
  nodup : T.symbols.Nodup
  free : ∀ x ∈ T.symbols, s.lenOf x = 0#8
  entries : ∀ c ∈ T.paths path, EntryIs t c.1 (leafCode c.2)

/-- Such a visit is that of a whole subtree. -/
theorem VisitedTree.visited {T : CodeTree} {room h : Nat} {path : List Bool} {s t : State}
    (hT : VisitedTree T room h path s t) (hvisit : visitRec room h path s = .ok t) : Visited T s t := by
  obtain ⟨u, hu, hvisited⟩ := visitRec_holdsTree (path := path) hT.holds hT.depth hT.size hT.nodup hT.free
  cases hvisit.symm.trans hu
  exact hvisited

/-- A body that ends without a raise after another one. -/
theorem Body.andThen_eq_ok {b : Body} {f : State → Body} {u : State} (h : b.andThen f = .ok u) :
    ∃ t, b = .ok t ∧ f t = .ok u := by
  cases b with
  | ok t => exact ⟨t, rfl, h⟩
  | raise e info t => cases h
  | fault r => cases h

/-- R113 to R118: what each way through a visit without a raise has found. -/
theorem visitRec_eq_ok {room h : Nat} {path : List Bool} {s t : State} (hvisit : visitRec room h path s = .ok t) :
    s.eng.visits < s.nodeCount.toNat ∧ ∃ w, s.tree.get h = some w ∧
      ((nodeIsLeaf w = true ∧ s.lenOf (nodeSym w) = 0#8 ∧ t = s.countVisit.writeCode (nodeSym w) (leafCode path)) ∨
       (nodeIsLeaf w = false ∧ nodeLeft w < s.nodeCount.toNat ∧ nodeRight w < s.nodeCount.toNat ∧ room ≠ 0 ∧
         ∃ u, visitRec (room - 1) (nodeLeft w) (path ++ [false]) s.countVisit = .ok u ∧
           visitRec (room - 1) (nodeRight w) (path ++ [true]) u = .ok t)) := by
  rw [visitRec_eq] at hvisit
  split at hvisit
  · cases hvisit
  rename_i hover
  refine ⟨Nat.not_lt.1 hover, ?_⟩
  cases hw : s.tree.get h with
  | none => simp [readCell_of_none hw] at hvisit
  | some w =>
    rw [readCell_of_get hw, Body.withRead_ok] at hvisit
    refine ⟨w, rfl, ?_⟩
    split_ifs at hvisit with hleaf hdup hleft hright hdeep
    · exact .inl ⟨hleaf, not_not.1 hdup, (Body.ok.inj hvisit).symm⟩
    · exact .inr ⟨Bool.eq_false_iff.2 hleaf, Nat.lt_of_not_le hleft, Nat.lt_of_not_le hright, hdeep,
        Body.andThen_eq_ok hvisit⟩

/-- The children's trees below an internal node, the right one visited after the left one. -/
theorem VisitedTree.node {l r : CodeTree} {room h left right : Nat} {path : List Bool} {s t u : State}
    (hroom : path.length + room = 255) (hdeep : room ≠ 0) (hholds : s.HoldsTree h (.node l r))
    (hvisitL : visitRec (room - 1) left (path ++ [false]) s.countVisit = .ok t)
    (hvisitR : visitRec (room - 1) right (path ++ [true]) t = .ok u)
    (hl : VisitedTree l (room - 1) left (path ++ [false]) s.countVisit t)
    (hr : VisitedTree r (room - 1) right (path ++ [true]) t u) : VisitedTree (.node l r) room h path s u := by
  have hL := hl.visited hvisitL
  have hallL := visitRec_all (room - 1) left (path ++ [false]) s.countVisit (by simp; omega)
  have hallR := visitRec_all (room - 1) right (path ++ [true]) t (by simp; omega)
  rw [hvisitL] at hallL
  rw [hvisitR] at hallR
  have hcodedL : ∀ x ∈ l.symbols, t.lenOf x ≠ 0#8 := by
    intro x hx
    obtain ⟨c, hc, rfl⟩ := (CodeTree.mem_symbols_iff (path ++ [false])).1 hx
    exact (hl.entries c hc).lenOf_ne_zero
  constructor
  case holds => exact hholds
  case depth =>
    have hdl := hl.depth
    have hdr := hr.depth
    rw [CodeTree.depth]
    omega
  case size =>
    have hvisits : t.eng.visits = s.eng.visits + 1 + l.size := hL.visits
    have hcount : t.nodeCount = s.nodeCount := hL.writes.nodeCount
    have hsr := hr.size
    rw [hvisits, hcount] at hsr
    rw [CodeTree.size]
    omega
  case nodup => exact List.nodup_append'.2 ⟨hl.nodup, hr.nodup, fun x hxl hxr => hcodedL x hxl (hr.free x hxr)⟩
  case free =>
    intro x hx
    rcases List.mem_append.1 hx with hxl | hxr
    · exact hl.free x hxl
    · have hfree := hr.free x hxr
      exact (hallL.uncoded x hfree).1 ▸ hfree
  case entries =>
    intro c hc
    rcases List.mem_append.1 hc with hcl | hcr
    · have hentry := hl.entries c hcl
      exact hentry.same (hallR.coded c.1 hentry.lenOf_ne_zero)
    · exact hr.entries c hcr

/-- R113 to R118: a visit that ends without a raise has visited a tree. -/
theorem exists_visitedTree {room h : Nat} {path : List Bool} {s t : State} (hroom : path.length + room = 255)
    (hvisit : visitRec room h path s = .ok t) : ∃ T, VisitedTree T room h path s t := by
  induction room using Nat.strongRecOn generalizing h path s t with
  | ind room ih =>
    obtain ⟨hlimit, w, hw, ⟨hleaf, hfree, rfl⟩ | ⟨hleaf, hleft, hright, hdeep, u, hvisitL, hvisitR⟩⟩ :=
      visitRec_eq_ok hvisit
    · obtain ⟨hlen, -⟩ := leafCode_length path (by omega)
      exact ⟨.leaf (nodeSym w), {
        holds := ⟨w, hw, hleaf, rfl⟩
        depth := Nat.zero_le _
        size := hlimit
        nodup := List.nodup_singleton _
        free := fun x hx => List.mem_singleton.1 hx ▸ hfree
        entries := fun c hc => List.mem_singleton.1 hc ▸ writeCode_entry _ _ _ hlen }⟩
    · obtain ⟨l, hl⟩ := ih (room - 1) (by omega) (by simp; omega) hvisitL
      obtain ⟨r, hr⟩ := ih (room - 1) (by omega) (by simp; omega) hvisitR
      have hwrites : VisitWrites s u := (countVisit_writes s).trans (hl.visited hvisitL).writes
      have hholds : s.HoldsTree h (.node l r) :=
        ⟨w, hw, hleaf, hleft, hright, hl.holds.congr (s := s.countVisit) (t := s) rfl rfl,
          hr.holds.congr hwrites.tree.symm hwrites.nodeCount.symm⟩
      exact ⟨.node l r, .node hroom hdeep hholds hvisitL hvisitR hl hr⟩

/-! ## Success -/

/-- R184, R185: a BUILD_CODES that ends without an error ended at the last line of the recursive VISIT. -/
theorem exec_buildCodes_success {s t : State} (h : exec .buildCodes s = .next t) (herr : t.status.err = .none) :
    ∃ u, visitRec Config.maxCodeLen s.root.toNat [] (s.enterStage .build).clearLens = .ok u ∧ t = u.completeOk := by
  have hpre := buildPreCheck_of_success h herr
  have hbody := buildBody_dropTraversal s
  rw [buildRec, hpre] at hbody
  have hsound := buildBody_sound_stage s
  rw [exec_eq_complete, cmdBody] at h
  rcases Body.complete_eq_next h with ⟨u, hb, rfl⟩ | ⟨e, info, u, hb, rfl⟩
  · rw [hb] at hbody
    exact ⟨u.dropTraversal, hbody.symm, rfl⟩
  · rw [hb] at hsound
    obtain ⟨-, -, he⟩ := hsound
    exact absurd herr he

/-- R119: the table of the tree that a traversal from ROOT has visited. -/
theorem VisitedTree.table {T : CodeTree} {room h : Nat} {s u : State} (hT : VisitedTree T room h [] s.clearLens u)
    (hvisit : visitRec room h [] s.clearLens = .ok u) :
    u.completeOk.TableIs T ∧ ∀ x, u.completeOk.lenOf x ≠ 0#8 ↔ x ∈ T.symbols := by
  have hothers : ∀ x, x ∉ T.symbols → u.lenOf x = 0#8 := (hT.visited hvisit).others
  have hentry : ∀ c ∈ T.codes, EntryIs u c.1 c.2 := by
    intro c hc
    obtain ⟨p, hp, hcode⟩ := CodeTree.exists_path_of_mem_codes hc
    exact hcode ▸ hT.entries _ hp
  refine ⟨⟨fun c hc => (hentry c hc).1, fun c hc => (hentry c hc).2, hothers⟩,
    fun x => ⟨fun hx => by_contra fun hno => hx (hothers x hno), fun hx => ?_⟩⟩
  obtain ⟨c, hc, rfl⟩ := (CodeTree.mem_symbols_iff []).1 hx
  exact (hT.entries c hc).lenOf_ne_zero

/-- Settles O16: the traversal has visited a tree, and has written the codes of its leaves. -/
theorem buildSuccessMeansTheTableOfATree : Obligations.BuildSuccessMeansTheTableOfATree := by
  unfold Obligations.BuildSuccessMeansTheTableOfATree
  intro s t h herr
  obtain ⟨hsame, -, -, -, -, hkept⟩ := buildFrame s t h
  have hpre := buildPreCheck_of_success h herr
  obtain ⟨u, hvisit, rfl⟩ := exec_buildCodes_success h herr
  obtain ⟨T, hT⟩ := exists_visitedTree rfl hvisit
  obtain ⟨htable, hsyms⟩ := hT.table hvisit
  obtain ⟨_, _, _, rfl⟩ := (hT.visited hvisit).writes
  have hsize : 0 + T.size ≤ s.nodeCount.toNat := hT.size
  exact ⟨T, {
      count := nodeCount_le_of_buildPreCheck hpre
      root := root_lt_of_buildPreCheck hpre
      holds := hT.holds.congr (s := (s.enterStage .build).clearLens) (t := s) rfl rfl
      size := by omega
      symbols := hT.nodup
      depth := hT.depth }, htable, hsyms, hkept, ⟨rfl, rfl, rfl, rfl, rfl⟩, rfl, hsame.ovr, hsame.lastop⟩

/-- R119: a traversal of a tree that passes the checks raises nothing. -/
theorem exec_buildCodes_of_buildReady {s : State} {T : CodeTree} (hT : s.BuildReady T) :
    ∃ t, exec .buildCodes s = .next t ∧ t.status.err = .none := by
  obtain ⟨u, hu, -⟩ := visitRec_holdsTree (room := Config.maxCodeLen) (path := [])
    (hT.holds.congr (s := s) (t := (s.enterStage .build).clearLens) rfl rfl) hT.depth
    ((Nat.zero_add T.size).le.trans hT.size) hT.symbols fun _ _ => rfl
  refine ⟨u.completeOk, ?_, rfl⟩
  rw [exec_buildCodes_eq_buildRec, buildRec, buildPreCheck_none hT.count hT.root]
  simp only
  rw [hu, Body.complete_ok]

/-- Settles O15: BUILD_CODES succeeds, so CODE is the table of a tree in TREE, and TREE holds no other tree at ROOT. -/
theorem buildSucceedsOnEveryTree : Obligations.BuildSucceedsOnEveryTree := by
  unfold Obligations.BuildSucceedsOnEveryTree
  intro s T hT hinfo
  obtain ⟨t, h, herr⟩ := exec_buildCodes_of_buildReady hT
  obtain ⟨T', hT', htable, hsyms, hkept, hok, hinfo', -⟩ := buildSuccessMeansTheTableOfATree s t h herr
  obtain rfl := hT.holds.unique hT'.holds
  obtain ⟨hsame, hbitLen, houtLen, hbit, hout, -⟩ := buildFrame s t h
  exact ⟨t, h, hok, hinfo'.trans hinfo, htable, hsyms, hkept, hsame, hbitLen, houtLen, hbit, hout⟩

end Sys2Proof.Machine
end

section
/-! PROOFS. What ENCODE leaves (R130 to R136): the codes of the symbols it has gone through (R132 to R134), the
pre-check (R131), and the end of every ENCODE of written symbols and codes. -/
namespace Sys2Proof.Machine

/-! ## The stream in the loop -/

section
variable {s : State} {pre : List Byte} {code : Byte → List Bool}
variable (hin : s.inLen.toNat ≤ s.params.inDepth) (hp : s.params.wf = true)
  (hinp : ∀ i, i < pre.length → s.inp.get i = pre[i]?)
  (hcode : ∀ y ∈ pre, s.CodeIs y (code y) ∧ code y ≠ [])
  (hfit : (pre.flatMap code).length ≤ s.params.bitDepth)

include hin hinp hcode hfit in
/-- R132: ENCODE goes through coded symbols whose codes fit, and BIT then begins with their codes. -/
theorem encodeBody_afterCodes {left : Nat} (hleft : s.inLen.toNat = pre.length + left) :
    ∃ b, encodeBody s = encodeLoop left (s.inEncode b pre.length (pre.flatMap code).length) ∧
      (s.inEncode b pre.length (pre.flatMap code).length).StreamIs (pre.flatMap code) := by
  obtain ⟨b, hloop, hget⟩ := encodeLoop_prefix code pre left (s.enterStage .encode)
    (fun k hk => by rw [← hinp k hk]; exact congrArg s.inp.get (Nat.zero_add k)) hcode
    ((Nat.zero_add _).trans_le hfit)
  refine ⟨b, ?_, fun j hj => ?_⟩
  · rw [encodeBody, if_neg (by omega), hleft, hloop]
    simp [State.inEncode, State.enterStage, EngineRegs.idle]
  · exact (hget j).trans (if_pos ⟨Nat.zero_le j, hj.trans_eq (Nat.zero_add _).symm⟩)

include hp hfit in
/-- R132: `reg(BIT_LEN) <- b` loses no bit of the cursor. -/
theorem inEncode_storeBitLen_bitLen (b : Memory Bool) (i : Nat) :
    (s.inEncode b i (pre.flatMap code).length).storeBitLen.bitLen.toNat = (pre.flatMap code).length := by
  obtain ⟨-, -, -, -, -, hdepth⟩ := params_wf s.params hp
  rw [storeBitLen_bitLen, BitVec.toNat_ofNat]
  exact Nat.mod_eq_of_lt (by show (pre.flatMap code).length < 2 ^ 32; omega)

include hin hp hinp hcode hfit in
/-- R134: a raise at the symbol after `pre` leaves the codes of `pre`. -/
theorem exec_encode_raise {e : ErrCode} (hpre : pre.length < s.inLen.toNat)
    (hraise : ∀ b, encodeSymbol (s.inEncode b pre.length (pre.flatMap code).length) =
      .raise e (BitVec.ofNat 32 pre.length) (s.inEncode b pre.length (pre.flatMap code).length).storeBitLen) :
    ∃ t, exec .encode s = .next t ∧ FailedWith e .encode (BitVec.ofNat 32 pre.length) t ∧
      t.bitLen.toNat = (pre.flatMap code).length ∧ t.StreamIs (pre.flatMap code) ∧
      (∀ j, t.bitLen.toNat ≤ j → t.bit.get j = s.bit.get j) ∧ SameInputs s t := by
  obtain ⟨left, hleft⟩ : ∃ left, s.inLen.toNat = pre.length + (left + 1) := ⟨s.inLen.toNat - pre.length - 1, by omega⟩
  obtain ⟨b, hbody, hstream⟩ := encodeBody_afterCodes hin hinp hcode hfit hleft
  have hexec : exec .encode s = .next
      ((s.inEncode b pre.length (pre.flatMap code).length).storeBitLen.completeError e (BitVec.ofNat 32 pre.length)) := by
    rw [exec_eq_complete, cmdBody, hbody, encodeLoop, hraise, Body.andThen_raise, Body.complete_raise]
  obtain ⟨hsame, -, -, -, -, habove, -⟩ := encodeFrame s _ hp hexec
  exact ⟨_, hexec, ⟨rfl, rfl, rfl, rfl, rfl, rfl⟩, inEncode_storeBitLen_bitLen hp hfit b _, hstream, habove, hsame⟩

end

/-- R133: the bits of the codes are counted by LEN. -/
theorem sum_lenOf_eq_length {s : State} {syms : List Byte} {code : Byte → List Bool}
    (hcode : ∀ x ∈ syms, s.CodeIs x (code x)) :
    (syms.map fun x => (s.lenOf x).toNat).sum = (syms.flatMap code).length := by
  rw [List.length_flatMap]
  exact congrArg List.sum (List.map_congr_left fun x hx => (hcode x hx).1)

/-- Settles O25: the loop has gone through the whole input at its last line. -/
theorem encodeConcatenatesTheCodes : Obligations.EncodeConcatenatesTheCodes := by
  unfold Obligations.EncodeConcatenatesTheCodes
  intro s syms code ⟨hlen, hinp⟩ hin hcode hfit hp hinfo
  obtain ⟨b, hbody, hstream⟩ := encodeBody_afterCodes hin hinp hcode hfit (left := 0) hlen
  have hexec : exec .encode s =
      .next (s.inEncode b syms.length (syms.flatMap code).length).storeBitLen.completeOk := by
    rw [exec_eq_complete, cmdBody, hbody, encodeLoop, Body.complete_ok]
  have hbitLen := inEncode_storeBitLen_bitLen hp hfit b syms.length
  have hsum := sum_lenOf_eq_length fun x hx => (hcode x hx).1
  obtain ⟨hsame, houtLen, hlens, hcbits, hout, habove, -⟩ := encodeFrame s _ hp hexec
  exact ⟨_, hexec, ⟨rfl, rfl, rfl, rfl, rfl⟩, hinfo, hstream, hbitLen.trans hsum.symm, hbitLen, habove, hsame, houtLen,
    hlens, hcbits, hout⟩

/-- Settles O26: both checks of R132 come before any bit of the failing symbol is written. -/
theorem encodeErrorLeavesTheStreamPrefix : Obligations.EncodeErrorLeavesTheStreamPrefix := by
  unfold Obligations.EncodeErrorLeavesTheStreamPrefix
  intro s pre x code hpre hin hp hinp hx hcode hfit
  refine ⟨fun hlen => ?_, fun hlen hover => ?_⟩
  · exact exec_encode_raise hin hp hinp hcode hfit hpre fun b => encodeSymbol_unknown _ x hx hlen
  · exact exec_encode_raise hin hp hinp hcode hfit hpre fun b => encodeSymbol_overflow _ x hx hlen hover

/-! ## The pre-check -/

/-- Settles O24: R131's raise comes before any write of the body. -/
theorem encodeRejectsALongInput : Obligations.EncodeRejectsALongInput := by
  unfold Obligations.EncodeRejectsALongInput
  intro s hlong
  rw [exec_eq_complete, cmdBody, encodeBody, if_pos hlong, Body.complete_raise]
  rfl

/-! ## Every ENCODE of written symbols and codes ends -/

/-- Every code bit below LEN is written. -/
def State.CodesWritten (s : State) : Prop :=
  ∀ x : Byte, ∀ j, j < (s.lenOf x).toNat → ∃ b, s.cbits.get (cbitsCell x j) = some b

/-- The next `left` symbols from the symbol index on are written. -/
def State.SymbolsWritten (s : State) (left : Nat) : Prop :=
  ∀ k, k < left → ∃ x, s.inp.get (s.eng.symIdx + k) = some x

theorem State.CodesWritten.exists_codeIs {s : State} (h : s.CodesWritten) (x : Byte) : ∃ code, s.CodeIs x code := by
  choose bitAt hbit using h x
  refine ⟨List.ofFn fun j : Fin (s.lenOf x).toNat => bitAt j j.isLt, List.length_ofFn.symm, fun j hj => ?_⟩
  rw [List.length_ofFn] at hj
  rw [hbit j hj, List.getElem?_ofFn, dif_pos hj]

theorem State.SymbolsWritten.appendCode {s : State} {left : Nat} (h : s.SymbolsWritten (left + 1)) (code : List Bool) :
    (s.appendCode code).SymbolsWritten left := by
  intro k hk
  obtain ⟨x, hx⟩ := h (k + 1) (by omega)
  exact ⟨x, by rw [appendCode_inp, appendCode_eng, ← hx, Nat.add_assoc, Nat.add_comm 1 k]⟩

/-- R132: an iteration on a written symbol raises one of the two errors, or appends the symbol's code. -/
theorem encodeSymbol_written {u : State} {x : Byte} (hx : u.inp.get u.eng.symIdx = some x) (hcodes : u.CodesWritten) :
    (∃ e info, encodeSymbol u = .raise e info u.storeBitLen) ∨ ∃ code, encodeSymbol u = .ok (u.appendCode code) := by
  by_cases hlen : u.lenOf x = 0#8
  · exact .inl ⟨_, _, encodeSymbol_unknown u x hx hlen⟩
  by_cases hover : u.params.bitDepth < u.eng.bitCur + (u.lenOf x).toNat
  · exact .inl ⟨_, _, encodeSymbol_overflow u x hx hlen hover⟩
  obtain ⟨code, hcode⟩ := hcodes.exists_codeIs x
  have hlength : (u.lenOf x).toNat = code.length := hcode.1
  refine .inr ⟨code, encodeSymbol_ok u x code hx hcode (fun hnil => hlen ?_) (by omega)⟩
  exact BitVec.eq_of_toNat_eq (by rw [hlength, hnil]; rfl)

theorem encodeLoop_ne_fault {left : Nat} {u : State} (hsyms : u.SymbolsWritten left) (hcodes : u.CodesWritten)
    (r : Fault) : encodeLoop left u ≠ .fault r := by
  induction left generalizing u with
  | zero => exact Body.noConfusion
  | succ left ih =>
    obtain ⟨x, hx⟩ := hsyms 0 (Nat.succ_pos left)
    rw [encodeLoop]
    rcases encodeSymbol_written hx hcodes with ⟨e, info, hraise⟩ | ⟨code, hok⟩
    · rw [hraise, Body.andThen_raise]
      exact Body.noConfusion
    · rw [hok, Body.andThen_ok]
      exact ih (hsyms.appendCode code) hcodes

/-- Settles O28: the pre-check ends ENCODE, or the loop does, which meets no never-written cell. -/
theorem encodeCompletesOnAnyWrittenInput : Obligations.EncodeCompletesOnAnyWrittenInput := by
  unfold Obligations.EncodeCompletesOnAnyWrittenInput
  intro s hinp hcodes
  by_cases hlong : s.params.inDepth < s.inLen.toNat
  · exact ⟨_, encodeRejectsALongInput s hlong⟩
  have hsyms : (s.enterStage .encode).SymbolsWritten s.inLen.toNat := by
    intro k hk
    obtain ⟨x, hx⟩ := hinp k hk (by omega)
    exact ⟨x, (congrArg s.inp.get (Nat.zero_add k)).trans hx⟩
  rw [exec_eq_complete, cmdBody, encodeBody, if_neg hlong]
  exact Body.complete_eq_next_of_ne_fault (encodeLoop_ne_fault hsyms hcodes)

end Sys2Proof.Machine
end

section
/-! PROOFS. What PACK leaves (R150 to R157): the pre-check (R151), one byte per group of the stream (R152 to R154), and the
stream read back from its length and its bytes (R156). -/
namespace Sys2Proof.Machine

/-! ## The pre-check -/

theorem exec_pack_tooLong {s : State} (hlong : s.params.bitDepth < s.bitLen.toNat) :
    exec .pack s = .next ((s.enterStage .pack).completeError .badLength s.bitLen) := by
  rw [exec_eq_complete, cmdBody, packBody, if_pos hlong, Body.complete_raise]

/-- Settles O29: R151's raise comes before any write of the body, and OUT has one byte for each 8 bits of BIT. -/
theorem packRejectsALongStream : Obligations.PackRejectsALongStream := by
  unfold Obligations.PackRejectsALongStream
  refine ⟨fun s hlong => exec_pack_tooLong hlong, fun s hp hfit => ?_⟩
  obtain ⟨-, -, -, hwords, -⟩ := params_wf s.params hp
  have hdepth : s.params.outDepth = s.params.bitDepth / 8 := rfl
  omega

/-- R151: a PACK that ends without an error has passed the pre-check. -/
theorem bitLen_le_of_pack_success {s t : State} (h : exec .pack s = .next t) (herr : t.status.err = .none) :
    s.bitLen.toNat ≤ s.params.bitDepth := by
  by_contra hlong
  rw [exec_pack_tooLong (Nat.lt_of_not_le hlong)] at h
  cases h
  exact ErrCode.noConfusion herr

/-- R151 to R154: only the pre-check raises. -/
theorem packBody_raises_badLength (s : State) : (packBody s).Ends (fun _ => True) fun e _ => e = .badLength := by
  unfold packBody
  split
  · rfl
  · have hstart : PackedUpTo s 0 (s.enterStage .pack) := ⟨rfl, fun _ _ => rfl⟩
    exact ((packLoop_ends hstart _).andThen fun t ht => packFinal_ends ht _).andThen fun _ _ => trivial

/-! ## The groups of a stream -/

theorem groupBits_length (bits : List Bool) (k : Nat) : (groupBits bits k).length = min 8 (bits.length - 8 * k) := by
  rw [groupBits, List.length_take, List.length_drop]

/-- A stream is its groups in a row. -/
theorem groupBits_getElem? (bits : List Bool) (i : Nat) : (groupBits bits (i / 8))[i % 8]? = bits[i]? := by
  rw [groupBits, List.getElem?_take_of_lt (Nat.mod_lt i (by omega)), List.getElem?_drop, Nat.div_add_mod]

theorem groupBits_final_length (bits : List Bool) : (groupBits bits (bits.length / 8)).length = bits.length % 8 := by
  rw [groupBits_length]
  omega

theorem readCells_groupBits {s : State} {bits : List Bool} (hb : s.StreamIs bits) (k : Nat) :
    readCells .bit s.bit (8 * k) (groupBits bits k).length = .ok (groupBits bits k) := by
  refine readCells_eq_ok.2 ⟨rfl, fun j hj => ?_⟩
  rw [groupBits_length] at hj
  rw [hb _ (by omega), groupBits, List.getElem?_take_of_lt (by omega), List.getElem?_drop]

/-- R153: the final group, where there is one, becomes the byte after the full groups' bytes. -/
theorem packFinal_ok {u : State} {bits : List Bool} (hk : u.eng.byteIdx = bits.length / 8) (hb : u.StreamIs bits) :
    ∃ t, packFinal (bits.length % 8) u = .ok t ∧ ∀ k, t.out.get k =
      if bits.length / 8 ≤ k ∧ k < (bits.length + 7) / 8 then some (packedByte (groupBits bits k)) else u.out.get k := by
  by_cases hr : bits.length % 8 = 0
  · exact ⟨u, by rw [packFinal, if_pos hr], fun k => by rw [if_neg (by omega)]⟩
  · have hread := readCells_groupBits hb (bits.length / 8)
    rw [groupBits_final_length] at hread
    refine ⟨u.storeByte (groupBits bits (bits.length / 8)), ?_, fun k => ?_⟩
    · rw [packFinal, if_neg hr, packGroup, hk, hread, Body.withRead_ok]
    · rw [storeByte_out, Memory.get_set, hk]
      by_cases hlast : k = bits.length / 8
      · rw [if_pos hlast, if_pos (by omega), hlast]
      · rw [if_neg hlast, if_neg (by omega)]

/-! ## The run on a written stream -/

section
variable {s : State} {bits : List Bool} (hlen : s.bitLen.toNat = bits.length) (hb : s.StreamIs bits)
include hlen hb

/-- R152 to R154: the body reaches its last line with one byte per group. -/
theorem packBody_ok (hfit : s.bitLen.toNat ≤ s.params.bitDepth) :
    ∃ t, packBody s = .ok t ∧ ∀ k, k < (bits.length + 7) / 8 → t.out.get k = some (packedByte (groupBits bits k)) := by
  obtain ⟨O, hloop, hfull⟩ := packLoop_ok bits (bits.length / 8) (s.enterStage .pack) 0 rfl (by omega) hb
  obtain ⟨t, hfinal, hout⟩ := packFinal_ok
    (u := { s.enterStage .pack with
      out := O, eng := { (s.enterStage .pack).eng with byteIdx := 0 + bits.length / 8 } })
    (Nat.zero_add _) hb
  refine ⟨t.storeOutLen bits.length, ?_, fun k hk => ?_⟩
  · rw [packBody, if_neg (Nat.not_lt.2 hfit), hlen, hloop, Body.andThen_ok, hfinal, Body.andThen_ok]
  · rw [storeOutLen_out, hout]
    by_cases hlast : bits.length / 8 ≤ k
    · rw [if_pos ⟨hlast, hk⟩]
    · rw [if_neg (fun h => hlast h.1)]
      exact (hfull k).trans (if_pos (by omega))

/-- R154, R185: PACK succeeds on a written stream that passes the pre-check. -/
theorem exec_pack_ok (hfit : s.bitLen.toNat ≤ s.params.bitDepth) :
    ∃ t, exec .pack s = .next t ∧ Succeeded t ∧ t.errInfo = s.errInfo ∧ t.outLen.toNat = (bits.length + 7) / 8 ∧
      ∀ k, k < (bits.length + 7) / 8 → t.out.get k = some (packedByte (groupBits bits k)) := by
  obtain ⟨t, hbody, hout⟩ := packBody_ok hlen hb hfit
  have hwrites := packBody_writes s
  have hends := packBody_ends s
  rw [hbody] at hwrites hends
  refine ⟨t.completeOk, ?_, ⟨rfl, rfl, rfl, rfl, rfl⟩, hwrites.errInfo, hlen ▸ hends.outLen, hout⟩
  rw [exec_eq_complete, cmdBody, hbody, Body.complete_ok]

end

/-- R152, R153: a packed byte is the rules' sum over its group. -/
theorem packedBytes_getElem? {bits : List Bool} {k : Nat} (hk : k < (bits.length + 7) / 8) :
    (packedBytes bits)[k]? = some (packedByte (groupBits bits k)) := by
  rw [packedBytes, List.getElem?_map, List.getElem?_range hk, Option.map_some, groupValue_eq]
  rfl

/-- R153: a group of r bits has a value below 2^r. -/
theorem packedByte_toNat_lt (bits : List Bool) : (packedByte bits).toNat < 2 ^ bits.length := by
  rw [packedByte, BitVec.toNat_ofNat]
  exact (Nat.mod_le _ _).trans_lt (bitsValue_lt bits)

/-- Settles O30: the run on a written stream, with PACK's frame. -/
theorem packWritesTheGroupsBytes : Obligations.PackWritesTheGroupsBytes := by
  unfold Obligations.PackWritesTheGroupsBytes
  refine ⟨fun s t h => ?_, fun s bits hlen hfit hb hinfo => ?_⟩
  · have hbody : (cmdBody .pack s).Ends _ _ := packBody_raises_badLength s
    rcases hbody.exec h with ⟨u, -, rfl⟩ | ⟨e, info, u, rfl, rfl⟩
    · exact .inl rfl
    · exact .inr rfl
  · obtain ⟨t, h, hok, hinfo', houtLen, hout⟩ := exec_pack_ok hlen hb (hlen ▸ hfit)
    obtain ⟨hsame, hbitLen, hlens, hcbits, hbit, habove, -⟩ := packFrame s t h
    rw [hlen, ← houtLen] at habove
    refine ⟨t, h, hok, hinfo'.trans hinfo, fun k hk => ?_, houtLen, fun hr b hget => ?_, habove, hsame, hbitLen, hlens,
      hcbits, hbit⟩
    · have hk : k < (bits.length + 7) / 8 := by simpa [packedBytes] using hk
      rw [hout k hk, packedBytes_getElem? hk]
    · rw [hout _ (by omega)] at hget
      cases hget
      exact groupBits_final_length bits ▸ packedByte_toNat_lt _

/-! ## The stream from its bytes -/

/-- Bits of one number and of one length are the same bits. -/
theorem eq_of_bitsValue_eq {bits bits' : List Bool} (hlen : bits.length = bits'.length)
    (h : bitsValue bits = bitsValue bits') : bits = bits' := by
  induction bits using List.reverseRecOn generalizing bits' with
  | nil => exact (List.length_eq_zero_iff.1 hlen.symm).symm
  | append_singleton bits b ih =>
    cases bits' using List.reverseRecOn with
    | nil => simp at hlen
    | append_singleton bits' b' =>
      rw [bitsValue_append_one, bitsValue_append_one] at h
      have hb := b.toNat_lt
      have hb' := b'.toNat_lt
      have hbit : b = b' := by
        rw [← Bool.ofNat_toNat b, show b.toNat = b'.toNat by omega, Bool.ofNat_toNat]
      rw [hbit, ih (by simpa using hlen) (by omega)]

/-- R152, R153: a group of at most 8 bits fits its byte. -/
theorem packedByte_toNat {bits : List Bool} (h : bits.length ≤ 8) : (packedByte bits).toNat = bitsValue bits := by
  rw [packedByte, BitVec.toNat_ofNat]
  exact Nat.mod_eq_of_lt ((bitsValue_lt bits).trans_le (Nat.pow_le_pow_right (by omega) h))

theorem eq_of_packedByte_eq {bits bits' : List Bool} (hlen : bits.length = bits'.length) (h8 : bits.length ≤ 8)
    (h : packedByte bits = packedByte bits') : bits = bits' := by
  refine eq_of_bitsValue_eq hlen ?_
  rw [← packedByte_toNat h8, ← packedByte_toNat (hlen ▸ h8), h]

/-- Streams of one length whose groups form the same bytes are the same stream. -/
theorem eq_of_groups_packedByte_eq {bits bits' : List Bool} (hlen : bits.length = bits'.length)
    (h : ∀ k, k < (bits.length + 7) / 8 → packedByte (groupBits bits k) = packedByte (groupBits bits' k)) :
    bits = bits' := by
  refine List.ext_getElem? fun i => ?_
  by_cases hi : i < bits.length
  · have hgroup : groupBits bits (i / 8) = groupBits bits' (i / 8) :=
      eq_of_packedByte_eq (by rw [groupBits_length, groupBits_length, hlen]) (by rw [groupBits_length]; omega)
        (h _ (by omega))
    rw [← groupBits_getElem? bits, ← groupBits_getElem? bits', hgroup]
  · rw [List.getElem?_eq_none (by omega), List.getElem?_eq_none (by omega)]

/-- Settles O32: each byte gives back the bits of its group. -/
theorem packIsInjectiveOnStreamsOfOneLength : Obligations.PackIsInjectiveOnStreamsOfOneLength := by
  unfold Obligations.PackIsInjectiveOnStreamsOfOneLength
  intro s s' t t' bits bits' hbits hlen hlen' hb hb' h h' herr herr' hbytes
  obtain ⟨u, hu, -, -, houtLen, hout⟩ := exec_pack_ok hlen hb (bitLen_le_of_pack_success h herr)
  obtain ⟨u', hu', -, -, -, hout'⟩ := exec_pack_ok hlen' hb' (bitLen_le_of_pack_success h' herr')
  obtain rfl := Host.Outcome.next.inj (h.symm.trans hu)
  obtain rfl := Host.Outcome.next.inj (h'.symm.trans hu')
  refine eq_of_groups_packedByte_eq hbits fun k hk => Option.some.inj ?_
  rw [← hout k hk, ← hout' k (hbits ▸ hk)]
  exact hbytes k (houtLen ▸ hk)

end Sys2Proof.Machine
end

section
/-! PROOFS. NOP (R170), and RUN as its three stages (R171, R172): each stage goes on exactly where the one before it has
completed without an error, so RUN's results, its success and its errors are those of the stages. -/
namespace Sys2Proof.Machine

/-! ## NOP -/

/-- Settles O12: NOP's pseudocode is empty, so its run is the completion alone. -/
theorem nopCompletesWithTheStatusUpdateOnly : Obligations.NopCompletesWithTheStatusUpdateOnly := by
  unfold Obligations.NopCompletesWithTheStatusUpdateOnly
  have hexec : ∀ s, exec .nop s = .next s.completeOk := fun s => exec_eq_complete .nop s
  refine ⟨rfl, hexec, fun s => hexec _, fun p t h => ?_⟩
  rw [hexec] at h
  cases h
  have hstatus : ((State.resetOf p).accept (encode .nop)).completeOk.status = { Status.reset with done := true } := rfl
  rw [hstatus]
  decide

/-! ## The errors of a stage -/

/-- Every raise of the body, its error and its detail, satisfies `R`. -/
def Body.Raises (R : ErrCode → Word → Prop) : Body → Prop
  | .ok _ => True
  | .raise e info _ => R e info
  | .fault _ => True

theorem Body.Raises.mono {R R' : ErrCode → Word → Prop} {b : Body} (h : b.Raises R)
    (hR : ∀ e info, R e info → R' e info) : b.Raises R' := by
  cases b with
  | ok t => trivial
  | raise e info t => exact hR e info h
  | fault r => trivial

section
variable {R : ErrCode → Word → Prop}

theorem Body.Raises.andThen {b : Body} {f : State → Body} (h : b.Raises R) (hf : ∀ t, (f t).Raises R) :
    (b.andThen f).Raises R := by
  cases b with
  | ok t => exact hf t
  | raise e info t => exact h
  | fault r => trivial

theorem Body.raises_withRead {β : Type} (x : Except Fault β) {f : β → Body} (hf : ∀ v, (f v).Raises R) :
    (Body.withRead x f).Raises R := by
  cases x with
  | ok v => exact hf v
  | error r => trivial

theorem Body.raises_dropTraversal {b : Body} : b.dropTraversal.Raises R ↔ b.Raises R := by
  cases b <;> rfl

end

/-- R111 to R117, R172, R182: the errors of BUILD_CODES' stage begun in `s`, BAD_LENGTH with NODE_COUNT. -/
def BuildError (s : State) (e : ErrCode) (info : Word) : Prop :=
  e ∈ [.emptyInput, .treeMalformed, .dupSymbol, .badLength] ∧ (e = .badLength → info = s.nodeCount)

/-- R131, R132, R172, R182: the errors of ENCODE's stage begun in `s`, BAD_LENGTH with IN_LEN. -/
def EncodeError (s : State) (e : ErrCode) (info : Word) : Prop :=
  e ∈ [.unknownSymbol, .bitOverflow, .badLength] ∧ (e = .badLength → info = s.inLen)

theorem visitRec_raises (s : State) (room h : Nat) (path : List Bool) (u : State) :
    (visitRec room h path u).Raises (BuildError s) := by
  have hmalformed : ∀ info, BuildError s .treeMalformed info := fun _ => ⟨by simp, ErrCode.noConfusion⟩
  induction room using Nat.strongRecOn generalizing h path u with
  | ind room ih =>
    rw [visitRec_eq]
    split
    · exact hmalformed _
    refine Body.raises_withRead _ fun w => ?_
    split_ifs with hleaf hdup hleft hright hdeep
    · exact ⟨by simp, ErrCode.noConfusion⟩
    · trivial
    · exact hmalformed _
    · exact hmalformed _
    · exact hmalformed _
    · exact (ih (room - 1) (by omega) _ _ _).andThen fun t => ih (room - 1) (by omega) _ _ t

theorem buildPreCheck_error {s : State} {e : ErrCode} {info : Word} (h : s.buildPreCheck = some (e, info)) :
    BuildError s e info := by
  unfold State.buildPreCheck at h
  split_ifs at h <;> cases h
  · exact ⟨by simp, fun _ => rfl⟩
  · exact ⟨by simp, ErrCode.noConfusion⟩
  · exact ⟨by simp, ErrCode.noConfusion⟩

theorem buildBody_raises (s : State) : (buildBody s).Raises (BuildError s) := by
  rw [← Body.raises_dropTraversal, buildBody_dropTraversal, buildRec]
  cases hpre : s.buildPreCheck with
  | some e => exact buildPreCheck_error hpre
  | none => exact visitRec_raises s _ _ _ _

theorem encodeSymbol_raises (s u : State) : (encodeSymbol u).Raises (EncodeError s) := by
  refine Body.raises_withRead _ fun x => ?_
  split_ifs with hlen hover
  · exact ⟨by simp, ErrCode.noConfusion⟩
  · exact ⟨by simp, ErrCode.noConfusion⟩
  · exact Body.raises_withRead _ fun code => trivial

theorem encodeLoop_raises (s : State) (left : Nat) (u : State) : (encodeLoop left u).Raises (EncodeError s) := by
  induction left generalizing u with
  | zero => trivial
  | succ left ih => exact (encodeSymbol_raises s u).andThen ih

theorem encodeBody_raises (s : State) : (encodeBody s).Raises (EncodeError s) := by
  unfold encodeBody
  split
  · exact ⟨by simp, fun _ => rfl⟩
  · exact encodeLoop_raises s _ _

/-- No raise of the body is of ERR 0, so a completion without an error comes from the body's last line (R184, R185). -/
abbrev Body.RaisesErrors (b : Body) : Prop := b.Raises fun e _ => e ≠ .none

theorem BuildError.ne_none {s : State} {e : ErrCode} {info : Word} (h : BuildError s e info) : e ≠ .none := by
  rintro rfl
  obtain ⟨hmem, -⟩ := h
  exact absurd hmem (by decide)

theorem EncodeError.ne_none {s : State} {e : ErrCode} {info : Word} (h : EncodeError s e info) : e ≠ .none := by
  rintro rfl
  obtain ⟨hmem, -⟩ := h
  exact absurd hmem (by decide)

theorem buildBody_raisesErrors (s : State) : (buildBody s).RaisesErrors :=
  (buildBody_raises s).mono fun _ _ he => he.ne_none

theorem encodeBody_raisesErrors (s : State) : (encodeBody s).RaisesErrors :=
  (encodeBody_raises s).mono fun _ _ he => he.ne_none

section
variable {i : Instr} {s t : State} (h : exec i s = .next t)
include h

theorem Body.RaisesErrors.exec_success (hR : (cmdBody i s).RaisesErrors) (hok : t.status.err = .none) :
    ∃ u, cmdBody i s = .ok u ∧ t = u.completeOk := by
  rw [exec_eq_complete] at h
  rcases Body.complete_eq_next h with hend | ⟨e, info, u, hb, rfl⟩
  · exact hend
  · rw [hb] at hR
    exact absurd hok hR

/-- R185: a successful completion keeps ERR_INFO. -/
theorem Body.RaisesErrors.errInfo (hR : (cmdBody i s).RaisesErrors) (hok : t.status.err = .none) :
    t.errInfo = s.errInfo := by
  obtain ⟨u, hb, rfl⟩ := hR.exec_success h hok
  have hwrites := cmdBody_writes i s
  rw [hb] at hwrites
  have hu : CommandWrites s u := hwrites
  exact hu.errInfo

/-- R184: a completion with an error records the raise, and the stage the engine is in. -/
theorem Body.Raises.exec_failure {R : ErrCode → Word → Prop} {st : Stage} (hR : (cmdBody i s).Raises R)
    (hst : (cmdBody i s).All fun u => u.eng.stage = st) (herr : t.status.err ≠ .none) :
    t.status.estage = st ∧ R t.status.err t.errInfo := by
  rw [exec_eq_complete] at h
  rcases Body.complete_eq_next h with ⟨u, -, rfl⟩ | ⟨e, info, u, hb, rfl⟩
  · exact absurd rfl herr
  · rw [hb] at hR hst
    exact ⟨hst, hR⟩

end

theorem exec_buildCodes_failure {s t : State} (h : exec .buildCodes s = .next t) (herr : t.status.err ≠ .none) :
    t.status.estage = .build ∧ BuildError s t.status.err t.errInfo :=
  Body.Raises.exec_failure h (buildBody_raises s) ((buildBody_all s).mono fun _ ⟨hst, _⟩ => hst) herr

theorem exec_encode_failure {s t : State} (h : exec .encode s = .next t) (herr : t.status.err ≠ .none) :
    t.status.estage = .encode ∧ EncodeError s t.status.err t.errInfo :=
  Body.Raises.exec_failure h (encodeBody_raises s) ((encodeBody_all s).mono fun _ ⟨hst, _⟩ => hst) herr

/-! ## RUN as its stages -/

/-- After a command, the next one where it has completed without an error. -/
def onSuccess (o : Host.Outcome State Fault Refusal) (f : State → Host.Outcome State Fault Refusal) :
    Host.Outcome State Fault Refusal :=
  match o with
  | .next t => if t.status.err = .none then f t else .next t
  | .fault r => .fault r
  | .refused r => .refused r

theorem onSuccess_next_ok {t : State} (h : t.status.err = .none) (f : State → Host.Outcome State Fault Refusal) :
    onSuccess (.next t) f = f t :=
  if_pos h

theorem onSuccess_next_error {t : State} (h : t.status.err ≠ .none) (f : State → Host.Outcome State Fault Refusal) :
    onSuccess (.next t) f = .next t :=
  if_neg h

theorem onSuccess_eq_next {o : Host.Outcome State Fault Refusal} {f : State → Host.Outcome State Fault Refusal}
    {t : State} (h : onSuccess o f = .next t) :
    (o = .next t ∧ t.status.err ≠ .none) ∨ ∃ u, o = .next u ∧ u.status.err = .none ∧ f u = .next t := by
  cases o with
  | next u =>
    by_cases hu : u.status.err = .none
    · exact .inr ⟨u, rfl, hu, onSuccess_next_ok hu f ▸ h⟩
    · obtain rfl := Host.Outcome.next.inj ((onSuccess_next_error hu f).symm.trans h)
      exact .inl ⟨rfl, hu⟩
  | fault r => cases h
  | refused r => cases h

/-- The completions set STATUS but OVR and LASTOP, which a completion before the body keeps. -/
theorem Body.complete_withStatus_completeOk {b : Body} {u : State} (h : b.All (CommandWrites u)) :
    (b.withStatus u.completeOk.status).complete = b.complete := by
  cases b with
  | ok t =>
    have ht : CommandWrites u t := h
    obtain ⟨_, _, _, _, _, _, _, rfl⟩ := ht
    rfl
  | raise e info t =>
    have ht : CommandWrites u t := h
    obtain ⟨_, _, _, _, _, _, _, rfl⟩ := ht
    rfl
  | fault r => rfl

/-- R171: a stage reads nothing that the completion of the stage before it has changed. -/
theorem exec_encode_completeOk (u : State) : exec .encode u.completeOk = (encodeBody u).complete := by
  rw [exec_eq_complete, cmdBody, encodeBody_completeOk, Body.complete_withStatus_completeOk (encodeBody_writes u)]

theorem exec_pack_completeOk (u : State) : exec .pack u.completeOk = (packBody u).complete := by
  have hbody : packBody u.completeOk = (packBody u).withStatus u.completeOk.status :=
    packBody_ignoresStatus u u.completeOk.status
  rw [exec_eq_complete, cmdBody, hbody, Body.complete_withStatus_completeOk (packBody_writes u)]

/-- Two bodies under one completion do what the first one does under a completion of its own, and where that succeeds
what the second one does under its own. -/
theorem Body.andThen_complete {b : Body} {f : State → Body} {g : State → Host.Outcome State Fault Refusal}
    (hraise : b.RaisesErrors) (hg : ∀ u, g u.completeOk = (f u).complete) :
    (b.andThen f).complete = onSuccess b.complete g := by
  cases b with
  | ok u => exact (hg u).symm.trans (onSuccess_next_ok rfl g).symm
  | raise e info u => exact (onSuccess_next_error (t := u.completeError e info) hraise g).symm
  | fault r => rfl

/-- R171: from every state, RUN is BUILD_CODES, ENCODE after its success, and PACK after that one's. -/
theorem exec_run_eq_stages (s : State) :
    exec .run s = onSuccess (onSuccess (exec .buildCodes s) (exec .encode)) (exec .pack) := by
  have hbuild := buildBody_raisesErrors s
  rw [exec_eq_complete, cmdBody, Body.andThen_complete (hbuild.andThen encodeBody_raisesErrors) exec_pack_completeOk,
    Body.andThen_complete hbuild exec_encode_completeOk, exec_eq_complete .buildCodes, cmdBody]

/-! ## RUN between the stages' acceptances -/

/-- R34: a command keeps OVR and LASTOP and reads neither. -/
theorem exec_withStatus {i : Instr} {s t : State} {st : Status} (h : exec i s = .next t)
    (hovr : st.ovr = s.status.ovr) :
    exec i (s.withStatus st) = .next (t.withStatus { t.status with lastop := st.lastop }) := by
  have hsame := sameInputs_of_exec h
  have hkept : st.ovr = t.status.ovr := hovr.trans hsame.ovr.symm
  refine (noCommandReadsTheFlags i s t st h).trans ?_
  rw [hkept]
  rfl

/-- R183: acceptance changes STATUS alone where ERR_INFO is 0 already. -/
theorem accept_withStatus {s : State} (hinfo : s.errInfo = 0#32) (v : Word) (st : Status) :
    (s.accept v).withStatus st = s.withStatus st := by
  simp only [State.accept, State.withStatus, ← hinfo]

/-- `s` with the LASTOP of RUN. -/
def State.underRun (s : State) : State := s.withStatus { s.status with lastop := 0x04#8 }

/-- A stage's command runs under RUN's acceptance as it does under its own. -/
theorem exec_accept_run {i : Instr} {s t : State} (h : exec i (s.accept (encode i)) = .next t) :
    exec i (s.accept (encode .run)) = .next t.underRun :=
  exec_withStatus (st := (s.accept (encode .run)).status) h rfl

/-- After a stage, a command runs without an acceptance as it does from its own. -/
theorem exec_underRun {i : Instr} {s t : State} (hinfo : s.errInfo = 0#32)
    (h : exec i (s.accept (encode i)) = .next t) : exec i s.underRun = .next t.underRun := by
  rw [State.underRun, ← accept_withStatus hinfo (encode i)]
  exact exec_withStatus h rfl

/-- Settles O33: the stages under RUN's acceptance are the three commands under their own, but for LASTOP. -/
theorem runIsTheStagesInSequence : Obligations.RunIsTheStagesInSequence := by
  unfold Obligations.RunIsTheStagesInSequence
  refine ⟨rfl, fun s s1 h1 => ?_⟩
  have hinfo1 := Body.RaisesErrors.errInfo h1 (buildBody_raisesErrors _)
  rw [exec_run_eq_stages, exec_accept_run h1]
  refine ⟨fun herr1 => ?_, fun s2 hok1 h2 => ?_⟩
  · rw [onSuccess_next_error (t := s1.underRun) herr1, onSuccess_next_error (t := s1.underRun) herr1]
    rfl
  have hinfo2 := Body.RaisesErrors.errInfo h2 (encodeBody_raisesErrors _)
  rw [onSuccess_next_ok (t := s1.underRun) hok1, exec_underRun (hinfo1 hok1) h2]
  refine ⟨fun herr2 => ?_, fun s3 hok2 h3 => ?_⟩
  · rw [onSuccess_next_error (t := s2.underRun) herr2]
    rfl
  · rw [onSuccess_next_ok (t := s2.underRun) hok2, exec_underRun (hinfo2 hok2) h3]
    rfl

/-! ## The success of RUN -/

/-- R171: the successes of the three stages in a row. -/
theorem exec_run_of_stages {s s1 s2 s3 : State} (h1 : exec .buildCodes s = .next s1) (hok1 : Succeeded s1)
    (h2 : exec .encode s1 = .next s2) (hok2 : Succeeded s2) (h3 : exec .pack s2 = .next s3) :
    exec .run s = .next s3 := by
  rw [exec_run_eq_stages, h1, onSuccess_next_ok hok1.err, h2, onSuccess_next_ok hok2.err, h3]

/-- The code table names the symbols of the leaves, in order. -/
theorem CodeTree.map_fst_codes (T : CodeTree) : T.codes.map Prod.fst = T.symbols := by
  cases T with
  | leaf x => rfl
  | node l r => exact CodeTree.map_fst_paths _ []

theorem CodeTree.codeOf_mem_codes {T : CodeTree} {x : Byte} (hx : x ∈ T.symbols) : (x, T.codeOf x) ∈ T.codes := by
  rw [← T.map_fst_codes] at hx
  obtain ⟨c, hc, rfl⟩ := List.mem_map.1 hx
  cases hlookup : T.codes.lookup c.1 with
  | none => simpa using List.lookup_eq_none_iff.1 hlookup c hc
  | some code =>
    obtain ⟨before, after, hcodes, -⟩ := List.lookup_eq_some_iff.1 hlookup
    rw [CodeTree.codeOf, hlookup, hcodes]
    simp

/-- TableIs depends on LEN and CBITS only. -/
theorem State.TableIs.congr {s t : State} {T : CodeTree} (h : s.TableIs T) (hlens : t.lens = s.lens)
    (hcbits : t.cbits = s.cbits) : t.TableIs T := by
  have hlen : ∀ x, t.lenOf x = s.lenOf x := fun x => by rw [State.lenOf, hlens, State.lenOf]
  constructor
  case codes =>
    intro c hc
    obtain ⟨hl, hb⟩ := h.codes c hc
    exact ⟨hlen c.1 ▸ hl, hcbits ▸ hb⟩
  case zeros => exact hcbits ▸ h.zeros
  case others => exact fun x hx => (hlen x).trans (h.others x hx)

/-- Settles O34: each stage succeeds and leaves the next one its operands. -/
theorem runEncodesAndPacksTheInput : Obligations.RunEncodesAndPacksTheInput := by
  unfold Obligations.RunEncodesAndPacksTheInput
  intro s T syms hp hT hinput hin hsyms hfit hinfo
  obtain ⟨s1, h1, hok1, hinfo1, htable, hcoded, -, hsame1, -⟩ := buildSucceedsOnEveryTree s T hT hinfo
  have hcode : ∀ x ∈ syms, s1.CodeIs x (T.codeOf x) ∧ T.codeOf x ≠ [] := by
    intro x hx
    have hcode := htable.codes _ (CodeTree.codeOf_mem_codes (hsyms x hx))
    exact ⟨hcode, hcode.ne_nil ((hcoded x).2 (hsyms x hx))⟩
  have hinput1 : s1.InputIs syms := by
    rwa [State.InputIs, hsame1.inLen, hsame1.inp]
  obtain ⟨s2, h2, hok2, hinfo2, hstream, -, hbitLen, -, hsame2, -, hlens2, hcbits2, -⟩ :=
    encodeConcatenatesTheCodes s1 syms T.codeOf hinput1 (by rwa [hsame1.inLen, hsame1.params]) hcode
      (hsame1.params ▸ hfit) (hsame1.params ▸ hp) hinfo1
  have hfit2 : (syms.flatMap T.codeOf).length ≤ s2.params.bitDepth := by rwa [hsame2.params, hsame1.params]
  obtain ⟨-, hpack⟩ := packWritesTheGroupsBytes
  obtain ⟨s3, h3, hok3, hinfo3, hout, houtLen, -, -, -, hbitLen3, hlens3, hcbits3, hbit3⟩ :=
    hpack s2 _ hbitLen hfit2 hstream hinfo2
  have hrun := exec_run_of_stages h1 hok1 h2 hok2 h3
  exact ⟨s3, hrun, hok3, hinfo3, htable.congr (hlens3.trans hlens2) (hcbits3.trans hcbits2),
    fun j hj => hbit3 ▸ hstream j hj, hbitLen3 ▸ hbitLen, hout, houtLen, sameInputs_of_exec hrun⟩

/-! ## The errors of RUN -/

/-- R132: ENCODE's loop counts no more bits than fit BIT. -/
theorem encodeLoop_bitLen_le {s : State} (hp : s.params.wf = true) (left : Nat) {u : State} (h : EncodedUpTo s u) :
    (encodeLoop left u).Ends (fun t => t.bitLen.toNat ≤ s.params.bitDepth) fun _ _ => True := by
  induction left generalizing u with
  | zero => exact (BitVec.toNat_ofNat _ _).trans_le ((Nat.mod_le _ _).trans h.fits)
  | succ left ih =>
    exact ((encodeSymbol_ends hp h).mono (fun _ ht => ht) fun _ _ _ => trivial).andThen fun t ht => ih ht

/-- R132: a stream that ENCODE has written fits BIT. -/
theorem bitLen_le_of_encode_success {s t : State} (hp : s.params.wf = true) (h : exec .encode s = .next t)
    (hok : t.status.err = .none) : t.bitLen.toNat ≤ s.params.bitDepth := by
  obtain ⟨u, hb, rfl⟩ := Body.RaisesErrors.exec_success h (encodeBody_raisesErrors s) hok
  rw [cmdBody, encodeBody] at hb
  split at hb
  · cases hb
  · have hends := encodeLoop_bitLen_le hp s.inLen.toNat (u := s.enterStage .encode)
      ⟨rfl, Nat.zero_le _, fun _ _ => rfl⟩
    rw [hb] at hends
    exact hends

/-- R151 to R154: PACK raises nothing on a stream that fits BIT. -/
theorem exec_pack_ok_of_fits {s t : State} (hfit : s.bitLen.toNat ≤ s.params.bitDepth) (h : exec .pack s = .next t) :
    t.status.err = .none ∧ t.status.estage = .none := by
  have hbody : (cmdBody .pack s).Ends (fun _ => True) fun _ _ => False := by
    rw [cmdBody, packBody, if_neg (Nat.not_lt.2 hfit)]
    have hstart : PackedUpTo s 0 (s.enterStage .pack) := ⟨rfl, fun _ _ => rfl⟩
    exact ((packLoop_ends hstart _).andThen fun t ht => packFinal_ends ht _).andThen fun _ _ => trivial
  rcases hbody.exec h with ⟨u, -, rfl⟩ | ⟨e, info, u, hno, -⟩
  · exact ⟨rfl, rfl⟩
  · exact hno.elim

/-- R172: RUN ends with an error of BUILD_CODES' stage, with one of ENCODE's, or with none. -/
theorem exec_run_end {s t : State} (hp : s.params.wf = true) (h : exec .run s = .next t) :
    (t.status.estage = .build ∧ BuildError s t.status.err t.errInfo) ∨
    (t.status.estage = .encode ∧ EncodeError s t.status.err t.errInfo) ∨
    (t.status.estage = .none ∧ t.status.err = .none) := by
  rw [exec_run_eq_stages] at h
  rcases onSuccess_eq_next h with ⟨h, herr⟩ | ⟨v, h, hokV, hpack⟩
  · rcases onSuccess_eq_next h with ⟨hbuild, -⟩ | ⟨u, hbuild, -, hencode⟩
    · exact .inl (exec_buildCodes_failure hbuild herr)
    · obtain ⟨hst, he⟩ := exec_encode_failure hencode herr
      exact .inr (.inl ⟨hst, by rwa [EncodeError, (sameInputs_of_exec hbuild).inLen] at he⟩)
  · rcases onSuccess_eq_next h with ⟨-, herr⟩ | ⟨u, hbuild, -, hencode⟩
    · exact absurd hokV herr
    · have hparamsU := (sameInputs_of_exec hbuild).params
      have hparamsV := (sameInputs_of_exec hencode).params
      have hfit := bitLen_le_of_encode_success (hparamsU ▸ hp) hencode hokV
      obtain ⟨hok, hst⟩ := exec_pack_ok_of_fits (hparamsV ▸ hfit) hpack
      exact .inr (.inr ⟨hst, hok⟩)

/-- Settles O35, by the stage that RUN ends in. -/
theorem runErrorsNameTheirStage : Obligations.RunErrorsNameTheirStage := by
  unfold Obligations.RunErrorsNameTheirStage
  intro s t hp h
  rcases exec_run_end hp h with ⟨hst, he⟩ | ⟨hst, he⟩ | ⟨hst, herr⟩
  · rw [hst]
    exact ⟨Stage.noConfusion, ⟨Stage.noConfusion, fun hn => absurd hn he.ne_none⟩, fun _ => he, Stage.noConfusion⟩
  · rw [hst]
    exact ⟨Stage.noConfusion, ⟨Stage.noConfusion, fun hn => absurd hn he.ne_none⟩, Stage.noConfusion, fun _ => he⟩
  · rw [hst]
    exact ⟨Stage.noConfusion, ⟨fun _ => herr, fun _ => rfl⟩, Stage.noConfusion, Stage.noConfusion⟩

end Sys2Proof.Machine
end

section
/-! PROOFS. A command word written to CMD while BUSY = 0: a legal one is accepted in that write (R183), any other one
completes in it with ILLEGAL_CMD (R187). -/
namespace Sys2Proof.Machine

/-- R23: while BUSY = 0 a write to CMD presents its word to the engine. -/
theorem hostWrites_cmd {s : State} (hidle : s.status.busy = false) (v : Word) :
    s.hostWrites 0x008 v = .next { s.present v with busData := none } :=
  hostWrites_reg .cmd v rfl (.inl hidle)

/-- R91, R183: the legal words are 0 to 5. -/
theorem present_of_le (s : State) {v : Word} (h : v.toNat ≤ 5) : s.present v = s.accept v := by
  obtain ⟨i, hdecode⟩ := decodeWord_of_le h
  rw [State.present, hdecode]

/-- R93, R187: every word above 5 is illegal. -/
theorem present_of_lt (s : State) {v : Word} (h : 5 < v.toNat) : s.present v = s.illegalCommand v := by
  obtain ⟨-, hlegal, -⟩ := wordIsACommandExactlyWhenLegal v
  cases hdecode : decodeWord v with
  | ok i => exact absurd (hlegal.1 ⟨i, hdecode⟩) (Nat.not_le.2 h)
  | error r => rw [State.present, hdecode]

/-- Settles O8: the CMD write presents a legal word, which is accepted. -/
theorem legalCommandWordIsAccepted : Obligations.LegalCommandWordIsAccepted := by
  unfold Obligations.LegalCommandWordIsAccepted
  intro s v hidle hv
  rw [hostWrites_cmd hidle, present_of_le s hv]
  rfl

/-- Settles O9: the CMD write presents an illegal word, which sets DONE and leaves BUSY = 0. -/
theorem illegalCommandWordCompletesAtOnce : Obligations.IllegalCommandWordCompletesAtOnce := by
  unfold Obligations.IllegalCommandWordCompletesAtOnce
  intro s v hidle hv
  refine ⟨{ s.illegalCommand v with busData := none }, ?_, Bool.and_true s.irqEn, ?_⟩
  · rw [hostWrites_cmd hidle, present_of_lt s hv]
  · rw [← hidle]
    rfl

end Sys2Proof.Machine
end

section
/-! PROOFS. The host's accesses while BUSY = 1: the writes that are dropped (R220), the reads of the busy-unspecified
locations (R221), and STATUS and ERR_INFO as acceptance left them (R222). -/
namespace Sys2Proof.Machine

/-- R220: a write to a busy-dropped location. -/
theorem hostWrites_dropped {s : State} {o : Nat} (v : Word) (hbusy : s.status.busy = true) (h4 : o % 4 = 0)
    (ho : o < 0x20000) (hloc : busyDropped (locate s.params o) = true) :
    s.hostWrites o v = .next { s.dropWrite with busData := none } := by
  rw [hostWrites_eq s o v ho h4, State.hostWrite, hbusy, hloc, Bool.and_self, if_pos rfl]

/-- R221: a read of a busy-unspecified location. -/
theorem hostReads_busyUnspecified {s : State} {o : Nat} (hbusy : s.status.busy = true) (h4 : o % 4 = 0)
    (ho : o < 0x20000) (hloc : busyUnspecified (locate s.params o) = true) : s.hostReads o = .next s.anyRead := by
  rw [hostReads_eq s o ho h4, State.hostRead, hbusy, hloc, Bool.and_self, if_pos rfl]

/-- R220: CMD, NODE_COUNT, ROOT, IN_LEN, BIT_LEN and the mapped window words are busy-dropped. -/
theorem locate_busyDropped {p : Config.Params} (hp : p.wf = true) {o : Nat}
    (h : o ∈ [0x008, 0x014, 0x018, 0x01C, 0x020] ∨ mappedWord p o) :
    o % 4 = 0 ∧ o < 0x20000 ∧ busyDropped (locate p o) = true := by
  rcases h with hreg | hword
  · simp only [List.mem_cons, List.not_mem_nil, or_false] at hreg
    rcases hreg with rfl | rfl | rfl | rfl | rfl <;> exact ⟨rfl, by decide, rfl⟩
  · obtain ⟨h4, ho, -⟩ := mappedWord_lt p hp o hword
    exact ⟨h4, ho, (locate_mapped p hp o hword).2⟩

/-- R221: BIT_LEN, OUT_LEN and the mapped window words are busy-unspecified. -/
theorem locate_busyUnspecified {p : Config.Params} (hp : p.wf = true) {o : Nat}
    (h : o ∈ [0x020, 0x024] ∨ mappedWord p o) :
    o % 4 = 0 ∧ o < 0x20000 ∧ busyUnspecified (locate p o) = true := by
  rcases h with hreg | hword
  · simp only [List.mem_cons, List.not_mem_nil, or_false] at hreg
    rcases hreg with rfl | rfl <;> exact ⟨rfl, by decide, rfl⟩
  · obtain ⟨h4, ho, -⟩ := mappedWord_lt p hp o hword
    exact ⟨h4, ho, (locate_mapped p hp o hword).1⟩

/-- Settles O49: each of these locations is busy-dropped. -/
theorem writesWhileBusyAreDropped : Obligations.WritesWhileBusyAreDropped := by
  unfold Obligations.WritesWhileBusyAreDropped
  intro s o v hbusy hp ho
  obtain ⟨h4, hlt, hloc⟩ := locate_busyDropped hp ho
  exact hostWrites_dropped v hbusy h4 hlt hloc

/-- A command that runs has no error stage (R183, R222). -/
theorem State.Inv.estage_of_busy {s : State} (h : s.Inv) (hbusy : s.status.busy = true) : s.status.estage = .none := by
  obtain ⟨-, herr, -, -⟩ := h.busy hbusy
  have hstage := h.errStage
  rw [herr] at hstage
  exact eq_of_beq hstage

/-- R24, R222: the STATUS word of a running command. -/
theorem Status.word_running {st : Status} (hbusy : st.busy = true) (hdone : st.done = false) (herr : st.err = .none)
    (hestage : st.estage = .none) :
    st.word = st.lastop.setWidth 32 <<< 16 ||| (if st.ovr then 0b101#32 else 0b001#32) := by
  rw [Status.word, hbusy, hdone, herr, hestage, BitVec.or_comm]
  cases st.ovr <;> rfl

/-- Settles O50: BIT_LEN, OUT_LEN and the window words are busy-unspecified, STATUS and ERR_INFO are not. -/
theorem readsWhileBusy : Obligations.ReadsWhileBusy := by
  unfold Obligations.ReadsWhileBusy
  intro s hbusy hinv
  obtain ⟨hdone, herr, hinfo, -⟩ := hinv.busy hbusy
  refine ⟨fun o ho => ?_, ?_, ?_⟩
  · obtain ⟨h4, hlt, hloc⟩ := locate_busyUnspecified hinv.params ho
    exact hostReads_busyUnspecified hbusy h4 hlt hloc
  · rw [hostReads_reg .errInfo rfl (.inr rfl), State.readReg, hinfo]
  · rw [hostReads_reg .status rfl (.inr rfl), State.readReg,
      Status.word_running hbusy hdone herr (hinv.estage_of_busy hbusy)]

end Sys2Proof.Machine
end

section
/-! PROOFS. The state after power-on (R210) and after a soft reset (R212). -/
namespace Sys2Proof.Machine

theorem Status.word_reset : Status.reset.word = 0#32 := by decide

/-- R210: with no LEN listed, every LEN is 0. -/
theorem lenOf_of_lens_nil {s : State} (h : s.lens = []) (x : Byte) : s.lenOf x = 0#8 := by
  rw [State.lenOf, h, Memory.get_nil, Option.getD_none]

/-- Settles O53, field by field. -/
theorem powerOnResetState : Obligations.PowerOnResetState := by
  unfold Obligations.PowerOnResetState
  refine ⟨?_, fun s => ⟨rfl, rfl⟩⟩
  rintro p s rfl
  exact ⟨rfl, rfl, Status.word_reset, rfl, rfl, rfl, rfl, rfl, rfl, rfl, lenOf_of_lens_nil rfl, Memory.get_nil,
    Memory.get_nil, Memory.get_nil, Memory.get_nil, Memory.get_nil, rfl⟩

/-- R213: no command is running, so none is aborted. -/
theorem abort_idle {s : State} (hidle : s.status.busy = false) : s.abort = s := by
  rw [State.abort, hidle]

@[simp] theorem forgetOutputs_port (s : State) (i : Instr) : (s.forgetOutputs i).port = s.port := by cases i <;> rfl

/-- R213: an abort keeps what no command writes (R71) and what is still to come at the port. -/
theorem abort_keeps (s : State) : s.abort.tree = s.tree ∧ s.abort.inp = s.inp ∧ s.abort.port = s.port := by
  unfold State.abort
  split
  · exact ⟨forgetOutputs_tree s _, forgetOutputs_inp s _, forgetOutputs_port s _⟩
  · exact ⟨rfl, rfl, rfl⟩
  · exact ⟨rfl, rfl, rfl⟩

/-- Settles O54: a CTRL write is never dropped (R223), and with bit 0 = 1 it is the soft reset. -/
theorem softResetResetsRegistersAndLens : Obligations.SoftResetResetsRegistersAndLens := by
  unfold Obligations.SoftResetResetsRegistersAndLens
  intro s v hsrst
  obtain ⟨htree, hinp, hport⟩ := abort_keeps s
  refine ⟨{ s.softReset with busData := none }, by rw [hostWrites_ctrl, State.writeCtrl, if_pos hsrst], rfl, rfl,
    Status.word_reset, rfl, rfl, rfl, rfl, rfl, rfl, lenOf_of_lens_nil rfl, rfl, rfl, htree, hinp, abort_params s, hport,
    fun hidle => ?_⟩
  obtain ⟨-, -, hcbits, hbit, hout⟩ := softReset_memories s
  rw [abort_idle hidle] at hcbits hbit hout
  exact ⟨hcbits, hbit, hout⟩

/-- Settles O56: in the reset state the memories are empty and the registers 0. -/
theorem resetSatisfiesTheInvariant : Obligations.ResetSatisfiesTheInvariant := by
  unfold Obligations.ResetSatisfiesTheInvariant
  exact fun _ hp => resetOf_inv hp

end Sys2Proof.Machine
end
